-- ==== Sys2Proof/Word.lean ====
section
/-! DEFINITION. The word types of the block, each with the parameter of rule R4 (`00_scope.md`) that gives its
width. Bytes, counts, lengths, node frequencies and arena indices are bit vectors because the block stores them in
fields of a fixed width; a bit string (rule R7) is a list of bits, first bit first. -/

namespace Sys2Proof

/-- One byte: `SYM_W` = 8 bits (R4). Symbols, stream bytes and the 8-bit registers. -/
abbrev Byte := BitVec 8

/-- One occurrence count: `CNT_W` = 32 bits (R4). -/
abbrev Count := BitVec 32

/-- One length in bytes: `LEN_W` = 32 bits (R4). -/
abbrev Len := BitVec 32

/-- One node frequency: `FREQ_W` = 40 bits (R4). -/
abbrev Freq := BitVec 40

/-- One arena index: 9 bits (R4, `NNODE` = 512). -/
abbrev NodeIdx := BitVec 9

/-- A bit string (R7), first bit first; `ε` is `[]`. -/
abbrev Bits := List Bool

end Sys2Proof
end

