-- ==== Sys2Proof/Config.lean ====
section
/-! DEFINITION. The implementation parameters of rule R4 (`00_scope.md`): the fixed ones as constants, the open
ones (`IN_CAP`, `OUT_CAP`) as the fields of `Params`, which a machine carries unchanged. `HOST_ADDR_MAP` is read by
no rule (R46) and has no counterpart here. -/

namespace Sys2Proof.Config

/-- `NSYM`: the number of symbols (R4). -/
def nSym : Nat := 256

/-- `NNODE`: the number of arena entries (R4). -/
def nNode : Nat := 512

/-- `SYNTH`: the arena index of the synthetic leaf (R4, R19). -/
def synth : Nat := 256

/-- `INT_BASE`: the arena index of the first internal node (R4, R19). -/
def intBase : Nat := 257

/-- `CODE_MAX`: the longest possible code in bits (R4, R105). -/
def codeMax : Nat := 255

/-- `HDR_VERSION`: the version byte of the serialized frequency table (R4, R72). -/
def hdrVersion : Byte := 0x01#8

end Sys2Proof.Config

namespace Sys2Proof

/-- The open parameters of R4. Their range `0 .. 2^32 - 1` is the range of the type. -/
structure Params where
  /-- `IN_CAP`: the capacity of the input buffer in bytes. -/
  inCap  : Len
  /-- `OUT_CAP`: the capacity of the output buffer in bytes; the IOFailure threshold (R49). -/
  outCap : Len
  deriving DecidableEq, Repr

/-- DESIGN CHOICE (log entry 1): the capacities the reset state carries. The spec leaves both open; 4096 is the
size `95_test_vectors.md` calls sufficient for everything in it. No statement rests on the value. -/
def Config.resetParams : Params := { inCap := 4096#32, outCap := 4096#32 }

end Sys2Proof
end

