-- ==== Sys2Proof/Machine/Moves.lean ====
section
/-! DEFINITION. The host port: the named locations of `20_memory.md` rule R40 and the host moves of rule R50. A
sequence of host moves plays the part of a program (`10_state.md` rule R22). One move accesses one whole location
(R43); a written value has the location's own width, so no partial or over-wide access can be written down. Which locations
exist is `Loc.inRange` (`10_state.md` rule R26). -/

namespace Sys2Proof.Machine

/-- The locations the host may read and has no write path to (R26: column "host write" is `-`). -/
inductive RoLoc where
  | status
  | errcode
  | outLen
  | pad
  | root
  | out (i : Nat)
  | node (k : Nat)
  | ct (s : Nat)
  deriving DecidableEq, Repr

/-- The locations of the host port (R40): seven registers and the five indexed memories. -/
inductive Loc where
  | cmd
  | inLen
  | inp (i : Nat)
  | ft (s : Nat)
  | readOnly (l : RoLoc)
  deriving DecidableEq, Repr

/-- A host move (R50). -/
inductive HostMove where
  /-- `rd <loc>` (R81): the value goes to the host. -/
  | read (l : Loc)
  /-- `wr CMD, v`: starts command `v` (R11); the core's move follows in the same step (R5). -/
  | writeCmd (v : Byte)
  /-- `wr IN_LEN, v` (R14). -/
  | writeInLen (v : Len)
  /-- `wr IN[i], v` (R23). -/
  | writeIn (i : Nat) (v : Byte)
  /-- `wr FT[s], v` (R17). -/
  | writeFt (s : Nat) (v : Count)
  /-- A write to a location without a write path: an access that has no effect (R26), whatever the value. -/
  | writeReadOnly (l : RoLoc)
  /-- Assert and release `reset` (R220). -/
  | reset
  deriving DecidableEq, Repr

/-- A read-only location exists: its index is inside its memory (R26, R40, U10). -/
def RoLoc.inRange (p : Params) : RoLoc → Bool
  | .status | .errcode | .outLen | .pad | .root => true
  | .out i  => decide (i < p.outCap.toNat)
  | .node k => decide (k < Config.nNode)
  | .ct s   => decide (s < Config.nSym)

/-- A location exists: its index is inside its memory (R26, R40, U10). -/
def Loc.inRange (p : Params) : Loc → Bool
  | .cmd | .inLen => true
  | .inp i => decide (i < p.inCap.toNat)
  | .ft s  => decide (s < Config.nSym)
  | .readOnly l => l.inRange p

end Sys2Proof.Machine
end

