-- ==== Sys2Proof/Syntax.lean ====
section
/-! DEFINITION. The instructions: the eight commands of the opcode map (`30_encoding.md` rule R62), one constructor
per row of `spec/opcode_table.json`. A command word carries no operand (R61), so no constructor has an argument. -/

namespace Sys2Proof

/-- A command of the HUFFCORE command set, version 1 (R1, R62). -/
inductive Instr where
  /-- FCOUNT, 0x01: count the occurrences of each byte value in the input (R90). -/
  | fcount
  /-- BUILD, 0x02: build the Huffman tree of the table in FT (R100). -/
  | build
  /-- DERIVE, 0x03: derive the code of every symbol from the tree (R120). -/
  | derive
  /-- PACK, 0x04: replace every input byte by its code and pack the bits (R130). -/
  | pack
  /-- UNPACK, 0x05: rebuild the tree from FT and decode `payload ++ [trailer]` (R145). -/
  | unpack
  /-- COMPRESS, 0x06: turn the input bytes into a CompressedStream (R165). -/
  | compress
  /-- DECOMPRESS, 0x07: turn a CompressedStream back into the original bytes (R171). -/
  | decompress
  /-- CLEAR, 0x08: return the block to its reset state (R180). -/
  | clear
  deriving DecidableEq, Repr

end Sys2Proof
end

