-- ==== Sys2Proof/WellFormed.lean ====
section
/-! DEFINITION. Well-formedness. An instruction carries no operand (R61), so every term of `Instr` is well-formed;
what can be ill-formed is a command word (R62, R63) and a host move (R26, R50: an index outside its memory, a read
of the write-only CMD, an IN_LEN above IN_CAP). These checks say which moves a correct host makes; what the machine
does with the others is in `Machine/HostPort.lean`. -/

namespace Sys2Proof

/-- Every command is well-formed: a command word has no field but its opcode (R60, R61). -/
def Instr.wf : Instr → Bool
  | .fcount | .build | .derive | .pack | .unpack | .compress | .decompress | .clear => true

/-- A byte is a legal command word when it is one of the opcodes 0x01 .. 0x08 (R62, R63). -/
def wordWf (v : Byte) : Bool := decide (1 ≤ v.toNat ∧ v.toNat ≤ 8)

namespace Machine

/-- A move of a correct host (R230): it names an existing location, it does not read CMD (R11, U6), and it writes
no IN_LEN above IN_CAP (R14, U7). -/
def HostMove.wf (p : Params) : HostMove → Bool
  | .read .cmd       => false
  | .read l          => l.inRange p
  | .writeCmd v      => wordWf v
  | .writeInLen v    => decide (v.toNat ≤ p.inCap.toNat)
  | .writeIn i _     => decide (i < p.inCap.toNat)
  | .writeFt s _     => decide (s < Config.nSym)
  | .writeReadOnly l => l.inRange p
  | .reset           => true

end Machine

end Sys2Proof
end

