-- ==== Sys2Proof/Decode.lean ====
section
/-! DEFINITION. Decoding and encoding of the command word (`30_encoding.md` rules R60, R62, R63). One format, `CMD8`,
one byte, the whole byte the opcode: mask 0xFF in every row. -/

namespace Sys2Proof

/-- One row of the opcode table: a word `v` is `instr` when `v &&& mask = value`. -/
structure OpcodeRow where
  mask  : Byte
  value : Byte
  instr : Instr
  deriving DecidableEq, Repr

/-- The opcode map of R62 (`spec/opcode_table.json`: columns `mask` and `match`). -/
def opcodeTable : List OpcodeRow :=
  [ ⟨0xFF#8, 0x01#8, .fcount⟩,
    ⟨0xFF#8, 0x02#8, .build⟩,
    ⟨0xFF#8, 0x03#8, .derive⟩,
    ⟨0xFF#8, 0x04#8, .pack⟩,
    ⟨0xFF#8, 0x05#8, .unpack⟩,
    ⟨0xFF#8, 0x06#8, .compress⟩,
    ⟨0xFF#8, 0x07#8, .decompress⟩,
    ⟨0xFF#8, 0x08#8, .clear⟩ ]

/-- Why a word is no command. -/
inductive DecodeError where
  /-- The word is a reserved encoding, 0x00 or 0x09 .. 0xFF (R63). -/
  | reservedOpcode (v : Byte)
  deriving DecidableEq, Repr

/-- The command a word selects, or the word rejected by name (R62, R63). -/
def decode (v : Byte) : Except DecodeError Instr :=
  match opcodeTable.find? (fun r => v &&& r.mask == r.value) with
  | some r => .ok r.instr
  | none   => .error (.reservedOpcode v)

/-- The command word of a command (R62). -/
def encode : Instr → Byte
  | .fcount     => 0x01#8
  | .build      => 0x02#8
  | .derive     => 0x03#8
  | .pack       => 0x04#8
  | .unpack     => 0x05#8
  | .compress   => 0x06#8
  | .decompress => 0x07#8
  | .clear      => 0x08#8

/-- The host's reading of a table word: `nbits` bits of `w`, every bit above them 0. A command word has 8 bits
(R60, R64), so a longer word is none. -/
def decodeTableWord (nbits w : Nat) : Option Instr :=
  if 8 < nbits then none
  else
    match decode (BitVec.ofNat 8 (w % 2 ^ nbits)) with
    | .ok i    => some i
    | .error _ => none

end Sys2Proof
end

