-- ==== Sys2Proof/Machine/State.lean ====
section
/-! DEFINITION. The architectural state (`10_state.md` rule R10), the host's side of it (rules R22, R50), the reset
state (rule R30), and the reasons a step can stop. Plain data throughout: the tables FT, NODE and CT and the buffers
IN and OUT are lists of (index, entry) pairs, indices strictly rising, no entry equal to what an unlisted index reads
as (`Machine/Memory.lean` has the operations, `Safety.lean` the predicate). -/

namespace Sys2Proof.Machine

/-- The KIND field of a node (R19): Leaf 0, Internal 1. -/
inductive NodeKind where
  | leaf
  | internal
  deriving DecidableEq, Repr

/-- One entry of the node arena (R19). -/
structure Node where
  /-- VALID: the entry is a node of the current tree. -/
  valid : Bool
  /-- KIND: Leaf or Internal. -/
  kind  : NodeKind
  /-- FREQ, 40 bits. -/
  freq  : Freq
  /-- LEFT, 9 bits: arena index of the left child. -/
  left  : NodeIdx
  /-- RIGHT, 9 bits: arena index of the right child. -/
  right : NodeIdx
  deriving DecidableEq, Repr

/-- One entry of the code table (R21): LEN = 0 means absent; the first bit of the code is bit LEN - 1 of BITS. -/
structure CodeEntry where
  len  : Byte
  bits : BitVec 255
  deriving DecidableEq, Repr

/-- The failure kinds (`60_exceptions.md` rule R190). A failure is an outcome of a command, recorded in STATUS.ERR
and ERRCODE; the machine goes on (R208). -/
inductive FailKind where
  /-- 1: the result does not fit OUT (R191). -/
  | ioFailure
  /-- 2: the header fails `parse_header` (R192). -/
  | malformedHeader
  /-- 3: the bits end mid-path, or there is no trailer byte (R194). -/
  | truncatedStream
  /-- 4: the trailer is above 7, or above the bits available (R195). -/
  | invalidPadding
  /-- 5: an input byte has no code (R196). -/
  | missingCode
  /-- 6: the synthetic leaf is reached, or there are bits and no tree (R197). -/
  | invalidCode
  /-- 7: the word written to CMD is no opcode (R198). -/
  | illegalCommand
  deriving DecidableEq, Repr

/-- The reasons a step stops with a fault: there are none. A failure of a command is a next state with STATUS.ERR = 1,
"not a stuck state and not a refusal" (R208), and every host misuse the spec gives no meaning is a refusal. -/
inductive Fault where
  deriving DecidableEq, Repr

/-- The reasons a step has no meaning. -/
inductive Refusal where
  /-- An instruction whose arm in `exec` has no meaning yet. No arm of this model raises it. Safe. -/
  | notModelled (mnemonic : String)
  /-- Raised by a command, or a host read, that reads a byte of IN the host has not written since reset (R226, U1:
  "`refuse`", "Never a value, never 0"). Safe: the value is unspecified. -/
  | unwrittenInput
  /-- Raised by a host read of `OUT[i]` with `i >= OUT_LEN` (R24, U2: `refuse`). Safe: the value is unspecified. -/
  | unspecifiedOutput
  /-- Raised by a host read of anything but STATUS while STATUS.BUSY = 1 (R52, U3: `refuse`). Safe; no run from
  reset reaches it (R5). -/
  | readWhileBusy
  /-- Raised by a host read of CMD (R11, U6: `refuse`). Safe: the value is unspecified. -/
  | readOfCmd
  /-- Raised by a host move that names an index outside its memory (R26: "names no location; a model refuses it", U10:
  `refuse`). Safe: the hardware has no such location. -/
  | noSuchLocation (l : Loc)
  deriving DecidableEq, Repr

/-- The machine. CMD has no field: it "holds no value between commands: it is a trigger, not storage" (R11). -/
structure State where
  /-- The open parameters (R4). No move changes them. The model's own field (log entry 1). -/
  params  : Params
  /-- STATUS, 8 bits: BUSY bit 0, ERR bit 1, EMPTY bit 2, bits 7:3 read 0 (R12). -/
  status  : Byte
  /-- ERRCODE, 8 bits: the failure code in bits 2:0, bits 7:3 read 0 (R13). -/
  errcode : Byte
  /-- IN_LEN, 32 bits (R14). -/
  inLen   : Len
  /-- OUT_LEN, 32 bits (R15). -/
  outLen  : Len
  /-- PAD, 8 bits: the padding count in bits 2:0, bits 7:3 read 0 (R16). -/
  pad     : Byte
  /-- ROOT, 16 bits: IDX bits 8:0, PRESENT bit 9, bits 15:10 read 0 (R18). -/
  root    : BitVec 16
  /-- IN (R23): the bytes written since reset; an unlisted byte has no specified value (U1). -/
  inMem   : List Host.Cell
  /-- OUT (R24): the bytes with a specified value; an unlisted byte has none (U2). -/
  outMem  : List Host.Cell
  /-- FT (R17): the counts; an unlisted symbol has count 0. -/
  ft      : List (Nat × Count)
  /-- NODE (R19): the arena; an unlisted entry has every field 0. -/
  node    : List (Nat × Node)
  /-- CT (R21): the codes; an unlisted symbol has LEN 0 and BITS 0. -/
  ct      : List (Nat × CodeEntry)
  /-- The host's remaining moves, next first (R22, R50). The model's own field (log entry 2). -/
  script  : List HostMove
  /-- The values the host's reads returned, oldest first (R50). The model's own field (log entry 2). -/
  reads   : List Nat
  deriving DecidableEq, Repr

/-- The state after reset (R30, R220): every register 0, every table empty, no byte of IN or OUT specified. The host
has no move pending: the block "starts nothing on its own" (R222). -/
def State.reset : State where
  params  := Config.resetParams
  status  := 0#8
  errcode := 0#8
  inLen   := 0#32
  outLen  := 0#32
  pad     := 0#8
  root    := 0#16
  inMem   := []
  outMem  := []
  ft      := []
  node    := []
  ct      := []
  script  := []
  reads   := []

end Sys2Proof.Machine
end

