-- ==== Sys2Proof/Machine/Bits.lean ====
section
/-! DEFINITION. Bit strings, bytes and byte order: the notation of `00_scope.md` rule R7 and the orders of
`20_memory.md` rule R41 (bits of a payload byte most significant first; multi-byte header fields big-endian), the
code string of a code table entry (R21), and the packed words a host read of NODE and CT returns (R78, R79). -/

namespace Sys2Proof.Machine

/-- `val(b)` (R7): the number whose binary writing, most significant digit first, is `b`. -/
def val (b : Bits) : Nat :=
  b.foldl (fun n x => 2 * n + x.toNat) 0

/-- `bits8(v)` (R7, R41 item 1): the bits of a byte, most significant first. -/
def bits8 (v : Byte) : Bits :=
  [v.getLsbD 7, v.getLsbD 6, v.getLsbD 5, v.getLsbD 4, v.getLsbD 3, v.getLsbD 2, v.getLsbD 1, v.getLsbD 0]

/-- `byte(b)` (R7): the byte whose 8-bit string is `b`. -/
def byteOf (b : Bits) : Byte := BitVec.ofNat 8 (val b)

/-- `0^n` (R7). -/
def zeros (n : Nat) : Bits := List.replicate n false

/-- `be16(a, b)` (R7, R41 item 3). -/
def be16 (a b : Byte) : Nat := 256 * a.toNat + b.toNat

/-- `be32(a, b, c, d)` (R7, R41 item 3), as a count. -/
def be32 (a b c d : Byte) : Count :=
  BitVec.ofNat 32 (2 ^ 24 * a.toNat + 2 ^ 16 * b.toNat + 2 ^ 8 * c.toNat + d.toNat)

/-- `be32_bytes(v)` (R7): four bytes, most significant first. -/
def be32Bytes (v : Count) : List Byte :=
  [v.extractLsb' 24 8, v.extractLsb' 16 8, v.extractLsb' 8 8, v.extractLsb' 0 8]

/-- The bit string a code table entry holds (R21): `code(s)[i] = CT[s].BITS[LEN - 1 - i]`. -/
def codeBits (e : CodeEntry) : Bits :=
  (List.range e.len.toNat).map (fun i => e.bits.getLsbD (e.len.toNat - 1 - i))

/-- The entry `set_code` writes for a code (R121): LEN is its length, BITS its value. -/
def codeEntry (c : Bits) : CodeEntry :=
  { len := BitVec.ofNat 8 c.length, bits := BitVec.ofNat 255 (val c) }

/-- KIND as a bit: 0 Leaf, 1 Internal (R19). -/
def kindBit : NodeKind → Bool
  | .leaf => false
  | .internal => true

/-- The 60-bit word a host read of a node returns (R78): VALID, KIND, FREQ, LEFT, RIGHT from the top down. -/
def nodeWord (n : Node) : BitVec 60 :=
  BitVec.ofBool n.valid ++ BitVec.ofBool (kindBit n.kind) ++ n.freq ++ n.left ++ n.right

/-- The 263-bit word a host read of a code returns (R79): LEN above BITS. -/
def codeWord (e : CodeEntry) : BitVec 263 := e.len ++ e.bits

end Sys2Proof.Machine
end

