-- ==== Sys2Proof/Machine/Flags.lean ====
section
/-! DEFINITION. The flags: the fields of STATUS (`10_state.md` rule R12) and of ROOT (rule R18), and the failure codes
of ERRCODE (`60_exceptions.md` rule R190). A status word is written as its three fields; its reserved bits have no
write path and are 0 in every word written. -/

namespace Sys2Proof.Machine

/-- The STATUS word with the given fields (R12): BUSY bit 0, ERR bit 1, EMPTY bit 2, bits 7:3 zero. -/
def statusWord (busy err empty : Bool) : Byte :=
  0#5 ++ BitVec.ofBool empty ++ BitVec.ofBool err ++ BitVec.ofBool busy

/-- STATUS.BUSY (R12). -/
def busyBit (w : Byte) : Bool := w.getLsbD 0

/-- STATUS.ERR (R12). -/
def errBit (w : Byte) : Bool := w.getLsbD 1

/-- STATUS.EMPTY (R12). -/
def emptyBit (w : Byte) : Bool := w.getLsbD 2

/-- `STATUS.BUSY <- b`. -/
def setBusy (b : Bool) (w : Byte) : Byte := statusWord b (errBit w) (emptyBit w)

/-- `STATUS.ERR <- b`. -/
def setErr (b : Bool) (w : Byte) : Byte := statusWord (busyBit w) b (emptyBit w)

/-- `STATUS.EMPTY <- b`. -/
def setEmpty (b : Bool) (w : Byte) : Byte := statusWord (busyBit w) (errBit w) b

/-- The code of a failure kind (R190). -/
def FailKind.code : FailKind → Byte
  | .ioFailure       => 1#8
  | .malformedHeader => 2#8
  | .truncatedStream => 3#8
  | .invalidPadding  => 4#8
  | .missingCode     => 5#8
  | .invalidCode     => 6#8
  | .illegalCommand  => 7#8

/-- The ROOT word with the given fields (R18): IDX bits 8:0, PRESENT bit 9, bits 15:10 zero. -/
def rootWord (present : Bool) (idx : NodeIdx) : BitVec 16 := 0#6 ++ BitVec.ofBool present ++ idx

/-- ROOT.IDX (R18). -/
def rootIdx (w : BitVec 16) : NodeIdx := w.extractLsb' 0 9

/-- ROOT.PRESENT (R18). -/
def rootPresent (w : BitVec 16) : Bool := w.getLsbD 9

end Sys2Proof.Machine
end

