-- ==== Sys2Proof/Machine/Memory.lean ====
section
/-! DEFINITION. The one representation of every indexed memory: a list of (index, entry) pairs with indices strictly
rising. `MemRead` and `MemWrite` (`20_memory.md` rule R44) are `lookup`/`get` and `insert`/`put`. For IN and OUT an
unlisted index has no specified byte; for FT, NODE and CT it holds the reset entry, and writing that entry unlists
the index, so equal memories are equal lists. -/

namespace Sys2Proof.Machine

namespace Sparse

variable {α : Type}

/-- The entry listed at index `a`, if any. -/
def lookup : List (Nat × α) → Nat → Option α
  | [], _ => none
  | (k, v) :: t, a => if a = k then some v else lookup t a

/-- List entry `v` at index `a`, in its place, replacing what was listed there. -/
def insert : List (Nat × α) → Nat → α → List (Nat × α)
  | [], a, v => [(a, v)]
  | (k, w) :: t, a, v =>
    if a < k then (a, v) :: (k, w) :: t
    else if a = k then (a, v) :: t
    else (k, w) :: insert t a v

/-- Unlist index `a`. -/
def erase (t : List (Nat × α)) (a : Nat) : List (Nat × α) :=
  t.filter (fun e => e.1 ≠ a)

/-- The entry at index `a` of a table whose unlisted entries are `d`. -/
def get (d : α) (t : List (Nat × α)) (a : Nat) : α := (lookup t a).getD d

/-- Write entry `v` at index `a` of a table whose unlisted entries are `d`. -/
def put [DecidableEq α] (d : α) (t : List (Nat × α)) (a : Nat) (v : α) : List (Nat × α) :=
  if v = d then erase t a else insert t a v

/-- Indices strictly rising. -/
abbrev Sorted (t : List (Nat × α)) : Prop := t.Pairwise (fun x y => x.1 < y.1)

/-- Every listed index is below `n`. -/
abbrev Below (n : Nat) (t : List (Nat × α)) : Prop := ∀ e ∈ t, e.1 < n

/-- No listed entry equals the unlisted one. -/
abbrev NoDefault (d : α) (t : List (Nat × α)) : Prop := ∀ e ∈ t, e.2 ≠ d

end Sparse

/-- The canonical form of a buffer memory of `n` bytes: indices strictly rising and inside the memory. -/
abbrev Memory.wf (n : Nat) (m : List Host.Cell) : Prop := Sparse.Sorted m ∧ Sparse.Below n m

/-- The canonical form of a table of `n` entries whose unlisted entries are `d`. -/
abbrev Table.wf {α : Type} [DecidableEq α] (n : Nat) (d : α) (t : List (Nat × α)) : Prop :=
  Sparse.Sorted t ∧ Sparse.Below n t ∧ Sparse.NoDefault d t

/-- The memory that holds the byte sequence `v` from index 0 on and nothing else. -/
def Memory.ofBytes (v : List Byte) : List Host.Cell :=
  v.zipIdx.map (fun e => (e.2, e.1))

/-- An unused arena entry: every field 0 (R19). -/
def Node.unused : Node := { valid := false, kind := .leaf, freq := 0#40, left := 0#9, right := 0#9 }

/-- An absent code table entry (R21). -/
def CodeEntry.absent : CodeEntry := { len := 0#8, bits := 0#255 }

/-- `FT[s]` of a frequency table (R17): an unlisted symbol has count 0. -/
def ftGet (ft : List (Nat × Count)) (s : Nat) : Count := Sparse.get 0#32 ft s

/-- `FT[s] <- c` (R17). -/
def ftPut (ft : List (Nat × Count)) (s : Nat) (c : Count) : List (Nat × Count) := Sparse.put 0#32 ft s c

/-- `NODE[k]` of an arena (R19): an unlisted entry is unused. -/
def nodeGet (node : List (Nat × Node)) (k : Nat) : Node := Sparse.get Node.unused node k

/-- `NODE[k] <- n` (R19). -/
def nodePut (node : List (Nat × Node)) (k : Nat) (n : Node) : List (Nat × Node) := Sparse.put Node.unused node k n

/-- `CT[s]` of a code table (R21): an unlisted symbol is absent. -/
def ctGet (ct : List (Nat × CodeEntry)) (s : Nat) : CodeEntry := Sparse.get CodeEntry.absent ct s

/-- `CT[s] <- e` (R21). -/
def ctPut (ct : List (Nat × CodeEntry)) (s : Nat) (e : CodeEntry) : List (Nat × CodeEntry) :=
  Sparse.put CodeEntry.absent ct s e

end Sys2Proof.Machine
end

