-- ==== Sys2Proof/Machine/Operands.lean ====
section
/-! DEFINITION. The implicit operands of the commands (`30_encoding.md` rule R61). A command word carries none: every
operand is a named piece of state, and the only addressing mode is the direct index (`20_memory.md` rule R44). -/

namespace Sys2Proof.Machine

/-- `IN[i]`: the byte, when the host has written it since reset (R23, U1). -/
def State.inAt (s : State) (i : Nat) : Option Byte := Sparse.lookup s.inMem i

/-- `OUT[i]`: the byte, when it has a specified value (R24, U2). -/
def State.outAt (s : State) (i : Nat) : Option Byte := Sparse.lookup s.outMem i

/-- `FT[s]` (R17). -/
def State.ftAt (s : State) (sym : Nat) : Count := ftGet s.ft sym

/-- `NODE[k]` (R19). -/
def State.nodeAt (s : State) (k : Nat) : Node := nodeGet s.node k

/-- `CT[s]` (R21). -/
def State.ctAt (s : State) (sym : Nat) : CodeEntry := ctGet s.ct sym

/-- The operand `IN[0..IN_LEN)` (R14, R23), in index order; an element is `none` where the host has not written the
byte. Bytes at and above IN_LEN are no operand. -/
def State.input (s : State) : List (Option Byte) :=
  (List.range s.inLen.toNat).map s.inAt

/-- The whole of an operand, when every byte of it was written. -/
def allWritten : List (Option Byte) → Option (List Byte)
  | [] => some []
  | none :: _ => none
  | some v :: t =>
    match allWritten t with
    | some vs => some (v :: vs)
    | none    => none

end Sys2Proof.Machine
end

