-- ==== Sys2Proof/Machine/Ops.lean ====
section
/-! DEFINITION. The operations the meanings share: the outcome of a procedure, the append to OUT (`20_memory.md` rule
R49), the command frame (`45_composite_and_system.md` rule R177), and the taking of a failure (`60_exceptions.md` rule
R200), which is this block's exception entry. There is no return from a failure and nothing to restore (R204): the
next command's frame clears the report. -/

namespace Sys2Proof.Machine

/-- What a procedure of a command gives: a value, a failure raised (`raise <Kind>`, R7), or no meaning. -/
inductive Res (α : Type) where
  | ok (a : α)
  | raise (k : FailKind)
  | refuse (r : Refusal)
  deriving DecidableEq, Repr

/-- Go on with the value; "No rule continues after a `raise`" (R7). -/
def Res.bind {α β : Type} (x : Res α) (f : α → Res β) : Res β :=
  match x with
  | .ok a     => f a
  | .raise k  => .raise k
  | .refuse r => .refuse r

/-- Read one byte of IN: a byte the host has not written since reset has no meaning (R226, U1). -/
def readByte (b : Option Byte) : Res Byte :=
  match b with
  | some v => .ok v
  | none   => .refuse .unwrittenInput

/-- `emit(v)` (R49): append a byte to the output `out` made so far; the byte that does not fit raises IOFailure.
`out` is the command's local list (R153 allows it); `n` of R49 is its length. -/
def emit (cap : Nat) (out : List Byte) (v : Byte) : Res (List Byte) :=
  if out.length = cap then .raise .ioFailure else .ok (out ++ [v])

/-- `emit` each byte, in order. -/
def emitAll (cap : Nat) : List Byte → List Byte → Res (List Byte)
  | out, [] => .ok out
  | out, v :: vs => (emit cap out v).bind fun out' => emitAll cap out' vs

/-- How the body of a command ends (R177): at its normal end, at a `raise` in the state reached there, or without a
meaning. -/
inductive Body where
  | done (s : State)
  | raise (k : FailKind) (s : State)
  | refuse (r : Refusal)
  deriving DecidableEq, Repr

/-- The end of a body whose last phase is a procedure run in state `s`: on a value the body writes its results, on a
`raise` the state is `s`, which holds the tables rewritten before (R200). -/
def Body.ofRes {α : Type} (s : State) (x : Res α) (write : α → State) : Body :=
  match x with
  | .ok a     => .done (write a)
  | .raise k  => .raise k s
  | .refuse r => .refuse r

/-- The start of the frame (R177): BUSY set, ERR, EMPTY and ERRCODE cleared. -/
def beginCommand (s : State) : State :=
  { s with status := statusWord true false false, errcode := 0#8 }

/-- The end of the frame (R177): `STATUS.BUSY <- 0`. -/
def endCommand (s : State) : State :=
  { s with status := setBusy false s.status }

/-- `OUT[0..n)` holds the result and `OUT_LEN <- n`, `PAD <- p` (R130, R145, R166, R172). Bytes of OUT at and above
OUT_LEN are unspecified (R24) and are not listed. -/
def setResult (out : List Byte) (p : Byte) (s : State) : State :=
  { s with outMem := Memory.ofBytes out, outLen := BitVec.ofNat 32 out.length, pad := p }

/-- Taking a failure (R200). IllegalCommand records its code and changes nothing else; every other kind also takes
the output away: OUT_LEN and PAD become 0 and the bytes of OUT are unspecified (R24, R201), so none is listed.
EMPTY stays 0. No pc, handler or mode is involved: "Control "goes" nowhere". -/
def takeFailure (k : FailKind) (s : State) : State :=
  match k with
  | .illegalCommand => { s with status := setErr true s.status, errcode := k.code }
  | _ =>
    { s with
      outLen := 0#32, pad := 0#8, outMem := [],
      status := setErr true s.status, errcode := k.code }

/-- The command frame (R177): the whole of a command, from the write of CMD to the fall of BUSY, as one step (R5). -/
def runFrame (body : State → Body) (s : State) : Host.Outcome State Fault Refusal :=
  match body (beginCommand s) with
  | .done s'    => .next (endCommand s')
  | .raise k s' => .next (endCommand (takeFailure k s'))
  | .refuse r   => .refused r

/-- The illegal-command response (R181, R198): the frame with IllegalCommand raised at once. -/
def illegalCommand (s : State) : Host.Outcome State Fault Refusal :=
  runFrame (fun s' => .raise .illegalCommand s') s

end Sys2Proof.Machine
end

