-- ==== Sys2Proof/Machine/BitPacker.lean ====
section
/-! DEFINITION. PACK and the procedure `pack_bits` (`43_bit_packer.md`, rules R130 to R139). -/

namespace Sys2Proof.Machine

/-- `while |buf| >= 8: emit(byte(buf[0..8))); buf <- buf[8..|buf|)` (R131); `fuel = |buf|` never ends it early. -/
def drain (cap : Nat) : Nat → Bits → List Byte → Res (Bits × List Byte)
  | 0, buf, out => .ok (buf, out)
  | fuel + 1, buf, out =>
    if 8 ≤ buf.length then
      (emit cap out (byteOf (buf.take 8))).bind fun out' => drain cap fuel (buf.drop 8) out'
    else .ok (buf, out)

/-- The `for` loop of `pack_bits` (R131): at each byte the lookup comes before the emits (R135). -/
def packLoop (cap : Nat) (ct : List (Nat × CodeEntry)) :
    List (Option Byte) → Bits → List Byte → Res (Bits × List Byte)
  | [], buf, out => .ok (buf, out)
  | b :: rest, buf, out =>
    (readByte b).bind fun v =>
      if (ctGet ct v.toNat).len = 0#8 then .raise .missingCode
      else
        (drain cap (buf ++ codeBits (ctGet ct v.toNat)).length (buf ++ codeBits (ctGet ct v.toNat)) out).bind
          fun r => packLoop cap ct rest r.1 r.2

/-- The tail of `pack_bits` (R131, R134): the last 1 to 7 bits completed with zeros, then the trailer. -/
def packTail (cap : Nat) (buf : Bits) (out : List Byte) : Res (Byte × List Byte) :=
  if 0 < buf.length then
    (emit cap out (byteOf (buf ++ zeros (8 - buf.length)))).bind fun out' =>
      (emit cap out' (BitVec.ofNat 8 (8 - buf.length))).bind fun out'' =>
        .ok (BitVec.ofNat 8 (8 - buf.length), out'')
  else
    (emit cap out 0#8).bind fun out' => .ok (0#8, out')

/-- `pack_bits()` (R131): the padding count and the output made, on top of `out`. -/
def packBits (cap : Nat) (ct : List (Nat × CodeEntry)) (input : List (Option Byte)) (out : List Byte) :
    Res (Byte × List Byte) :=
  (packLoop cap ct input [] out).bind fun r => packTail cap r.1 r.2

/-- PACK (R130). -/
def execPack (s : State) : Host.Outcome State Fault Refusal :=
  runFrame (fun s1 =>
    Body.ofRes s1 (packBits s1.params.outCap.toNat s1.ct s1.input []) fun r => setResult r.2 r.1 s1) s

end Sys2Proof.Machine
end

