-- ==== Sys2Proof/Machine/TreeBuilder.lean ====
section
/-! DEFINITION. BUILD and the procedure `build_tree` (`41_tree_builder.md`, rules R100 to R112). -/

namespace Sys2Proof.Machine

/-- The present symbols of a table in ascending order: `s` in 0..255 with `FT[s] > 0` (R17). -/
def presentSymbols (ft : List (Nat × Count)) : List Nat :=
  (List.range Config.nSym).filter (fun s => ftGet ft s ≠ 0#32)

/-- A Leaf entry of the arena (R101). -/
def leafNode (f : Freq) : Node := { valid := true, kind := .leaf, freq := f, left := 0#9, right := 0#9 }

/-- An Internal entry of the arena (R101, R104): `b`, extracted second, is LEFT and `a`, extracted first, is RIGHT. -/
def internalNode (f : Freq) (b a : Nat) : Node :=
  { valid := true, kind := .internal, freq := f, left := BitVec.ofNat 9 b, right := BitVec.ofNat 9 a }

/-- The node order (R103): by FREQ, then by arena index. -/
def nodeBefore (node : List (Nat × Node)) (j k : Nat) : Bool :=
  decide ((nodeGet node j).freq < (nodeGet node k).freq) ||
    (decide ((nodeGet node j).freq = (nodeGet node k).freq) && decide (j < k))

/-- The least of `x` and the elements of a list in the node order (R103). -/
def leastOf (node : List (Nat × Node)) : Nat → List Nat → Nat
  | x, [] => x
  | x, y :: ys => leastOf node (if nodeBefore node y x then y else x) ys

/-- Extract the least element of `Q` (R101): the element and `Q` without it; `none` when `Q` is empty. -/
def extractLeast (node : List (Nat × Node)) (q : List Nat) : Option (Nat × List Nat) :=
  match q with
  | [] => none
  | x :: xs => some (leastOf node x xs, q.erase (leastOf node x xs))

/-- The seed (R101): one Leaf per table entry, its frequency the count zero-extended (R107). -/
def seedLeaves (ft : List (Nat × Count)) : List (Nat × Node) :=
  (presentSymbols ft).map (fun s => (s, leafNode ((ftGet ft s).setWidth 40)))

/-- The merge loop `while |Q| > 1` (R101, R104), at most `fuel` merges; each merge takes one element off `Q`, so
`fuel = |Q|` never ends it early. -/
def mergeLoop : Nat → List (Nat × Node) → List Nat → Nat → List (Nat × Node) × List Nat
  | 0, node, q, _ => (node, q)
  | fuel + 1, node, q, next =>
    match extractLeast node q with
    | none => (node, q)
    | some (a, q1) =>
      match extractLeast node q1 with
      | none => (node, q)
      | some (b, q2) =>
        mergeLoop fuel
          (nodePut node next (internalNode ((nodeGet node a).freq + (nodeGet node b).freq) b a))
          (q2 ++ [next]) (next + 1)

/-- The arena and `Q` before the first merge (R101, R102): a table with exactly one entry gets the synthetic leaf. -/
def seedArena (ft : List (Nat × Count)) : List (Nat × Node) × List Nat :=
  match presentSymbols ft with
  | [s] => (nodePut (seedLeaves ft) Config.synth (leafNode 0#40), [s, Config.synth])
  | q   => (seedLeaves ft, q)

/-- The arena `build_tree` makes of a table (R101, R108: a function of the table alone) and the final `Q`. -/
def buildArena (ft : List (Nat × Count)) : List (Nat × Node) × List Nat :=
  mergeLoop (seedArena ft).2.length (seedArena ft).1 (seedArena ft).2 Config.intBase

/-- The ROOT word for a final `Q` (R101, R102): its one element, or absent when the table was empty. -/
def rootOf (q : List Nat) : BitVec 16 :=
  match q with
  | []     => rootWord false 0#9
  | r :: _ => rootWord true (BitVec.ofNat 9 r)

/-- `build_tree()` (R101): all of NODE and ROOT rewritten from FT. -/
def buildTree (s : State) : State :=
  { s with node := (buildArena s.ft).1, root := rootOf (buildArena s.ft).2 }

/-- BUILD (R100). -/
def execBuild (s : State) : Host.Outcome State Fault Refusal :=
  runFrame (fun s1 => .done (buildTree s1)) s

end Sys2Proof.Machine
end

