-- ==== Sys2Proof/Machine/BitUnpacker.lean ====
section
/-! DEFINITION. UNPACK and the procedure `unpack_bits` (`44_bit_unpacker.md`, rules R145 to R158). -/

namespace Sys2Proof.Machine

/-- The 8 bits of a payload byte, most significant first (R149), each `none` when the byte was never written. -/
def expandByte (b : Option Byte) : List (Option Bool) :=
  match b with
  | some v => (bits8 v).map some
  | none   => List.replicate 8 none

/-- The expansion of a payload (R149): bit `j` is bit `7 - (j mod 8)` of payload byte `j div 8`. -/
def expandBytes (payload : List (Option Byte)) : List (Option Bool) := payload.flatMap expandByte

/-- One move of the walk (R146): bit 0 to LEFT, bit 1 to RIGHT. -/
def walkMove (node : List (Nat × Node)) (cur : NodeIdx) (bit : Bool) : NodeIdx :=
  if bit then (nodeGet node cur.toNat).right else (nodeGet node cur.toNat).left

/-- The `for` loop of `unpack_bits` (R146) over the bits to decode, with the tests in the order of R154: the bit is
read, the absent tree (R152), the move, at a leaf the synthetic leaf (R152), then the emit. -/
def walkBits (cap : Nat) (node : List (Nat × Node)) (root : BitVec 16) :
    List (Option Bool) → NodeIdx → List Byte → Res (NodeIdx × List Byte)
  | [], cur, out => .ok (cur, out)
  | none :: _, _, _ => .refuse .unwrittenInput
  | some bit :: rest, cur, out =>
    if rootPresent root = false then .raise .invalidCode
    else
      match (nodeGet node (walkMove node cur bit).toNat).kind with
      | .internal => walkBits cap node root rest (walkMove node cur bit) out
      | .leaf =>
        if (walkMove node cur bit).toNat = Config.synth then .raise .invalidCode
        else
          (emit cap out (BitVec.ofNat 8 (walkMove node cur bit).toNat)).bind fun out' =>
            walkBits cap node root rest (rootIdx root) out'

/-- `unpack_bits(lo)` (R146) on the operand `IN[lo..IN_LEN)`, taken as `payload ++ [trailer]`: the trailer value and
the decoded bytes. -/
def unpackBits (cap : Nat) (node : List (Nat × Node)) (root : BitVec 16) (operand : List (Option Byte)) :
    Res (Byte × List Byte) :=
  match operand.getLast? with
  | none => .raise .truncatedStream
  | some trailer =>
    (readByte trailer).bind fun p =>
      if 7 < p.toNat ∨ 8 * (operand.length - 1) < p.toNat then .raise .invalidPadding
      else
        (walkBits cap node root
            ((expandBytes operand.dropLast).take (8 * (operand.length - 1) - p.toNat)) (rootIdx root) []).bind
          fun r => if r.1 = rootIdx root then .ok (p, r.2) else .raise .truncatedStream

/-- UNPACK (R145): the tree is rebuilt from FT first and kept whatever fails later. -/
def execUnpack (s : State) : Host.Outcome State Fault Refusal :=
  runFrame (fun s1 =>
    Body.ofRes (buildTree s1)
      (unpackBits s1.params.outCap.toNat (buildTree s1).node (buildTree s1).root s1.input)
      fun r => setResult r.2 r.1 (buildTree s1)) s

end Sys2Proof.Machine
end

