-- ==== Sys2Proof/Machine/CodeDeriver.lean ====
section
/-! DEFINITION. DERIVE and the procedure `derive_codes` (`42_code_deriver.md`, rules R120 to R126). -/

namespace Sys2Proof.Machine

/-- `set_code(s, c)` (R121). -/
def setCode (ct : List (Nat × CodeEntry)) (sym : Nat) (c : Bits) : List (Nat × CodeEntry) :=
  ctPut ct sym (codeEntry c)

/-- `visit(k, p)` (R121), left before right (R125). `fuel` bounds the edges still to descend; a code has at most
CODE_MAX bits (R105), so in an arena that meets R32 the bound is never met (log entry 5). The synthetic leaf gets no
entry (R123). -/
def visit (node : List (Nat × Node)) : Nat → Nat → Bits → List (Nat × CodeEntry) → List (Nat × CodeEntry)
  | fuel, k, p, ct =>
    match (nodeGet node k).kind with
    | .leaf => if k ≤ 255 then setCode ct k p else ct
    | .internal =>
      match fuel with
      | 0 => ct
      | f + 1 =>
        visit node f (nodeGet node k).right.toNat (p ++ [true])
          (visit node f (nodeGet node k).left.toNat (p ++ [false]) ct)

/-- The code table `derive_codes` makes of an arena and a root (R121). The branch for a root that is itself a Leaf
is the source's defensive case (R122, U4). -/
def codesOf (node : List (Nat × Node)) (root : BitVec 16) : List (Nat × CodeEntry) :=
  match rootPresent root with
  | false => []
  | true =>
    match (nodeGet node (rootIdx root).toNat).kind with
    | .leaf     => if (rootIdx root).toNat ≤ 255 then setCode [] (rootIdx root).toNat [false] else []
    | .internal => visit node Config.codeMax (rootIdx root).toNat [] []

/-- `derive_codes()` (R121): all of CT rewritten from NODE and ROOT. -/
def deriveCodes (s : State) : State := { s with ct := codesOf s.node s.root }

/-- DERIVE (R120). -/
def execDerive (s : State) : Host.Outcome State Fault Refusal :=
  runFrame (fun s1 => .done (deriveCodes s1)) s

end Sys2Proof.Machine
end

