-- ==== Sys2Proof/Machine/FrequencyCounter.lean ====
section
/-! DEFINITION. FCOUNT, frequency table construction (`40_frequency_counter.md`, rules R90 to R93). -/

namespace Sys2Proof.Machine

/-- The loops of R90: every count cleared, then one increment per input byte, in order. -/
def countBytes (input : List Byte) : List (Nat × Count) :=
  input.foldl (fun ft v => ftPut ft v.toNat (ftGet ft v.toNat + 1#32)) []

/-- The FCOUNT body (R90) on the operand `IN[0..IN_LEN)`; every byte of it is read. -/
def fcountBody (s : State) : Res State :=
  match allWritten s.input with
  | some input => .ok { s with ft := countBytes input }
  | none       => .refuse .unwrittenInput

/-- The EmptyInput notice (R92, R168): `STATUS.EMPTY <- 1` if IN_LEN = 0, else it stays. -/
def noticeEmpty (s : State) : State :=
  if s.inLen = 0#32 then { s with status := setEmpty true s.status } else s

/-- FCOUNT (R90, R92). -/
def execFcount (s : State) : Host.Outcome State Fault Refusal :=
  runFrame (fun s1 => Body.ofRes s1 (fcountBody s1) noticeEmpty) s

end Sys2Proof.Machine
end

