-- ==== Sys2Proof/Machine/Header.lean ====
section
/-! DEFINITION. The header of a CompressedStream (`30_encoding.md`, rules R72 to R74): serialising and parsing. -/

namespace Sys2Proof.Machine

/-- One entry of the header (R72): the symbol, then its count, big-endian. -/
def headerEntry (ft : List (Nat × Count)) (s : Nat) : List Byte :=
  BitVec.ofNat 8 s :: be32Bytes (ftGet ft s)

/-- `header(FT)` (R74): version, number of entries, the entries in ascending order of symbol. -/
def header (ft : List (Nat × Count)) : List Byte :=
  [Config.hdrVersion,
    BitVec.ofNat 8 ((presentSymbols ft).length / 256), BitVec.ofNat 8 ((presentSymbols ft).length % 256)] ++
    (presentSymbols ft).flatMap (headerEntry ft)

/-- An entry's symbol may follow the one before it (R73): strictly ascending. -/
def ascends (prev : Option Byte) (sym : Byte) : Bool :=
  match prev with
  | none   => true
  | some p => decide (p < sym)

/-- The entry loop of `parse_header` (R73): `n` entries still to read, the symbol before, the table so far. -/
def parseEntries : Nat → List (Option Byte) → Option Byte → List (Nat × Count) → Res (List (Nat × Count))
  | 0, _, _, t => .ok t
  | n + 1, b0 :: b1 :: b2 :: b3 :: b4 :: rest, prev, t =>
    (readByte b0).bind fun sym => (readByte b1).bind fun c3 => (readByte b2).bind fun c2 =>
      (readByte b3).bind fun c1 => (readByte b4).bind fun c0 =>
        if be32 c3 c2 c1 c0 = 0#32 then .raise .malformedHeader
        else if ascends prev sym = false then .raise .malformedHeader
        else parseEntries n rest (some sym) (ftPut t sym.toNat (be32 c3 c2 c1 c0))
  | _ + 1, _, _, _ => .raise .malformedHeader

/-- `parse_header(x)` (R73): the table and the header length, or MalformedHeader on any of the six tests (R192). -/
def parseHeader (x : List (Option Byte)) : Res (List (Nat × Count) × Nat) :=
  match x with
  | b0 :: b1 :: b2 :: rest =>
    (readByte b0).bind fun version =>
      if version ≠ Config.hdrVersion then .raise .malformedHeader
      else
        (readByte b1).bind fun n1 => (readByte b2).bind fun n0 =>
          if 256 < be16 n1 n0 then .raise .malformedHeader
          else if rest.length < 5 * be16 n1 n0 then .raise .malformedHeader
          else (parseEntries (be16 n1 n0) rest none []).bind fun t => .ok (t, 3 + 5 * be16 n1 n0)
  | _ => .raise .malformedHeader

end Sys2Proof.Machine
end

