-- ==== Sys2Proof/Machine/Composite.lean ====
section
/-! DEFINITION. COMPRESS and DECOMPRESS (`45_composite_and_system.md`, rules R165 to R179): the phases in the source's
order, each the procedure the primitive command of its unit runs. -/

namespace Sys2Proof.Machine

/-- The first three phases of COMPRESS after the count (R166): the tables of the input, complete before the first
byte is emitted. -/
def buildTables (s : State) : State := deriveCodes (buildTree s)

/-- The emitting phases of COMPRESS (R166): the header of FT, then the packed bits and the trailer. -/
def emitStream (s : State) : Res (Byte × List Byte) :=
  (emitAll s.params.outCap.toNat [] (header s.ft)).bind fun out =>
    packBits s.params.outCap.toNat s.ct s.input out

/-- The body of COMPRESS (R166): count, build, derive, emit the header, pack, and the EmptyInput notice on success
(R168). -/
def compressBody (s : State) : Body :=
  match fcountBody s with
  | .ok s1 =>
    Body.ofRes (buildTables s1) (emitStream (buildTables s1)) fun r =>
      noticeEmpty (setResult r.2 r.1 (buildTables s1))
  | .raise k  => .raise k s
  | .refuse r => .refuse r

/-- COMPRESS (R165). -/
def execCompress (s : State) : Host.Outcome State Fault Refusal := runFrame compressBody s

/-- DECOMPRESS once the header is valid (R172, R174): FT from the header, the tree from FT, then the rest of the
stream decoded. -/
def decodeStream (s : State) (t : List (Nat × Count)) (h : Nat) : Body :=
  Body.ofRes (buildTree { s with ft := t })
    (unpackBits s.params.outCap.toNat (buildTree { s with ft := t }).node (buildTree { s with ft := t }).root
      (s.input.drop h))
    fun r => setResult r.2 r.1 (buildTree { s with ft := t })

/-- The body of DECOMPRESS (R172): the header is validated whole before FT is written (R173). -/
def decompressBody (s : State) : Body :=
  match parseHeader s.input with
  | .ok (t, h) => decodeStream s t h
  | .raise k   => .raise k s
  | .refuse r  => .refuse r

/-- DECOMPRESS (R171). -/
def execDecompress (s : State) : Host.Outcome State Fault Refusal := runFrame decompressBody s

end Sys2Proof.Machine
end

