-- ==== Sys2Proof/Machine/System.lean ====
section
/-! DEFINITION. CLEAR (`45_composite_and_system.md` rule R180) and the effect of `reset` (`70_reset_and_hazards.md`
rules R220, R221, R223). -/

namespace Sys2Proof.Machine

/-- The CLEAR body (R180): every register and table at its reset value; the bytes of IN and OUT stay. -/
def clearBody (s : State) : State :=
  { s with inLen := 0#32, outLen := 0#32, pad := 0#8, root := 0#16, ft := [], node := [], ct := [] }

/-- CLEAR (R180). -/
def execClear (s : State) : Host.Outcome State Fault Refusal :=
  runFrame (fun s1 => .done (clearBody s1)) s

/-- `reset` asserted and released (R220, R221): the reset state of R30. The capacities are the hardware's and the
moves still to make and values read are the host's, so they stay. -/
def resetBlock (s : State) : State :=
  { State.reset with params := s.params, script := s.script, reads := s.reads }

end Sys2Proof.Machine
end

