-- ==== Sys2Proof/Machine/HostPort.lean ====
section
/-! DEFINITION. The host moves (`20_memory.md` rules R50, R52; the access table of `10_state.md` rule R26). A move
that names no location has no meaning (U10). While STATUS.BUSY = 1 a write is ignored and a read of anything but STATUS has
no meaning (R52, U3); reset is allowed at any time. -/

namespace Sys2Proof.Machine

/-- STATUS.BUSY of a state. -/
def State.busy (s : State) : Bool := busyBit s.status

/-- The host receives the value of a read (R50). -/
def giveHost (v : Nat) (s : State) : State := { s with reads := s.reads ++ [v] }

/-- A read of one byte whose value may be unspecified. -/
def readSpecified (b : Option Byte) (r : Refusal) (s : State) : Host.Outcome State Fault Refusal :=
  match b with
  | some v => .next (giveHost v.toNat s)
  | none   => .refused r

/-- A read of a read-only location (R26). `OUT[i]` with `i >= OUT_LEN` is unspecified (R24, U2). NODE and CT entries
are read as their packed words (R78, R79). -/
def readRo (l : RoLoc) (s : State) : Host.Outcome State Fault Refusal :=
  match l with
  | .status  => .next (giveHost s.status.toNat s)
  | .errcode => .next (giveHost s.errcode.toNat s)
  | .outLen  => .next (giveHost s.outLen.toNat s)
  | .pad     => .next (giveHost s.pad.toNat s)
  | .root    => .next (giveHost s.root.toNat s)
  | .out i   => if i < s.outLen.toNat then readSpecified (s.outAt i) .unspecifiedOutput s else .refused .unspecifiedOutput
  | .node k  => .next (giveHost (nodeWord (s.nodeAt k)).toNat s)
  | .ct sym  => .next (giveHost (codeWord (s.ctAt sym)).toNat s)

/-- A read of any location, with STATUS.BUSY = 0 (R26, R50). -/
def readIdle (l : Loc) (s : State) : Host.Outcome State Fault Refusal :=
  match l with
  | .cmd        => .refused .readOfCmd
  | .inLen      => .next (giveHost s.inLen.toNat s)
  | .inp i      => readSpecified (s.inAt i) .unwrittenInput s
  | .ft sym     => .next (giveHost (s.ftAt sym).toNat s)
  | .readOnly r => readRo r s

/-- A host read (R50, R52). -/
def hostRead (l : Loc) (s : State) : Host.Outcome State Fault Refusal :=
  if l.inRange s.params = false then .refused (.noSuchLocation l)
  else if s.busy = true ∧ l ≠ .readOnly .status then .refused .readWhileBusy
  else readIdle l s

/-- A host write with the effect `w` to location `l` (R50): ignored while BUSY (R52, R182). -/
def hostWrite (l : Loc) (w : State → Host.Outcome State Fault Refusal) (s : State) : Host.Outcome State Fault Refusal :=
  if l.inRange s.params = false then .refused (.noSuchLocation l)
  else if s.busy = true then .next s
  else w s

/-- A write of `v` to CMD with STATUS.BUSY = 0 (R11, R177): the command runs, or the illegal-command response. -/
def startCommand (v : Byte) (s : State) : Host.Outcome State Fault Refusal :=
  match decode v with
  | .ok i    => exec i s
  | .error _ => illegalCommand s

/-- A write of IN_LEN (R14): a value above IN_CAP is ignored (log entry 4). -/
def writeInLen (v : Len) (s : State) : State :=
  if v.toNat ≤ s.params.inCap.toNat then { s with inLen := v } else s

/-- A write of `IN[i]` (R23). -/
def writeIn (i : Nat) (v : Byte) (s : State) : State := { s with inMem := Sparse.insert s.inMem i v }

/-- A write of `FT[sym]` (R17). -/
def writeFt (sym : Nat) (v : Count) (s : State) : State := { s with ft := ftPut s.ft sym v }

/-- One host move (R50). -/
def hostMove (m : HostMove) (s : State) : Host.Outcome State Fault Refusal :=
  match m with
  | .read l          => hostRead l s
  | .writeCmd v      => hostWrite .cmd (startCommand v) s
  | .writeInLen v    => hostWrite .inLen (fun s1 => .next (writeInLen v s1)) s
  | .writeIn i v     => hostWrite (.inp i) (fun s1 => .next (writeIn i v s1)) s
  | .writeFt sym v   => hostWrite (.ft sym) (fun s1 => .next (writeFt sym v s1)) s
  | .writeReadOnly l => hostWrite (.readOnly l) (fun s1 => .next s1) s
  | .reset           => .next (resetBlock s)

/-- The next move of the host and the state with the moves after it; `none` when the host has no move pending. -/
def nextMove (s : State) : Option (HostMove × State) :=
  match s.script with
  | []      => none
  | m :: ms => some (m, { s with script := ms })

/-- `s` with a write of the command word `w mod 2^nbits` to CMD as the host's next move, the block idle (BUSY 0,
which a CMD write needs to start a command, R11). -/
def withCommand (s : State) (nbits w : Nat) : State :=
  { s with
    status := setBusy false s.status,
    script := .writeCmd (BitVec.ofNat 8 (w % 2 ^ nbits)) :: s.script }

end Sys2Proof.Machine
end

