-- ==== Sys2Proof/Machine/Step.lean ====
section
/-! DEFINITION. One step of the machine: the host's next move, and within the same step the command it starts, from
the write of CMD to the fall of STATUS.BUSY (`00_scope.md` rule R5). With no host move pending the block is idle and
keeps all state (`60_exceptions.md` rule R211; `70_reset_and_hazards.md` rule R222). -/

namespace Sys2Proof.Machine

/-- One step (R5, R22, R50). -/
def step (s : State) : Host.Outcome State Fault Refusal :=
  match nextMove s with
  | none => .next s
  | some (m, s') => hostMove m s'

/-- `s` with the word `w` where the next step takes its command from: the host's next move is the write of it to
CMD. -/
def State.withFetchWord (s : State) (nbits w : Nat) : State := withCommand s nbits w

end Sys2Proof.Machine
end

