-- ==== Sys2Proof/Machine/HostScript.lean ====
section
/-! DEFINITION. The host script notation (`30_encoding.md` rules R81, R82): the pseudo-lines as the host moves they
expand to. `wr` and `rd` lines are single moves (`Machine/Moves.lean`). -/

namespace Sys2Proof.Machine

/-- `RUN <mnemonic>` (R82): the CMD write, then the read of STATUS that shows BUSY = 0; in the atomic reading the
first read does. -/
def lineRun (i : Instr) : List HostMove := [.writeCmd (encode i), .read (.readOnly .status)]

/-- `LOAD IN, b0 b1 ...` (R82). -/
def lineLoadIn (v : List Byte) : List HostMove :=
  v.zipIdx.map (fun e => HostMove.writeIn e.2 e.1) ++ [.writeInLen (BitVec.ofNat 32 v.length)]

/-- `LOADFT s0:c0, s1:c1, ...` (R82): 256 writes, 0 for every symbol not listed. -/
def lineLoadFt (pairs : List (Nat × Count)) : List HostMove :=
  (List.range Config.nSym).map (fun s => HostMove.writeFt s (ftGet pairs s))

/-- `COPY OUT, IN` (R82), as the moves the host makes when it finds `out` in OUT. -/
def lineCopyOutIn (out : List Byte) : List HostMove :=
  .read (.readOnly .outLen) ::
    (out.zipIdx.flatMap (fun e => [HostMove.read (.readOnly (.out e.2)), HostMove.writeIn e.2 e.1]) ++
      [.writeInLen (BitVec.ofNat 32 out.length)])

/-- The reads of `EXPECT <loc> = <value>` (R82); the check is the host's, on the value received. -/
def lineExpect (l : Loc) : List HostMove := [.read l]

/-- The reads of `EXPECT OUT = b0 b1 ...` (R82) for `n` bytes. -/
def lineExpectOut (n : Nat) : List HostMove :=
  .read (.readOnly .outLen) :: (List.range n).map (fun i => HostMove.read (.readOnly (.out i)))

/-- The result sequence `OUT[0..OUT_LEN)` (R15, R29), where every byte of it is specified. -/
def State.result (s : State) : Option (List Byte) := allWritten ((List.range s.outLen.toNat).map s.outAt)

end Sys2Proof.Machine
end

