-- ==== Sys2Proof/Machine/Values.lean ====
section
/-! DEFINITION. The data-model values a state stands for (`10_state.md` rules R20, R21, R29) and the value-level
readings the spec gives of its procedures: the tree build without an arena (`41_tree_builder.md` rule R110) and the
payload as one bit string (`30_encoding.md` rule R71, `43_bit_packer.md` rule R132). No meaning uses this file: it is
what statements about the meanings are written in. -/

namespace Sys2Proof.Machine

/-- A HuffmanNode value (R20): a Leaf with its symbol (none for the synthetic leaf), or an Internal node. -/
inductive HuffTree where
  | leaf (symbol : Option Byte) (frequency : Nat)
  | internal (frequency : Nat) (left right : HuffTree)
  deriving DecidableEq, Repr

/-- The frequency of a node. -/
def HuffTree.frequency : HuffTree → Nat
  | .leaf _ f => f
  | .internal f _ _ => f

/-- The depth of each leaf, the synthetic one included (R105). -/
def HuffTree.depths : HuffTree → List Nat
  | .leaf _ _ => [0]
  | .internal _ l r => (l.depths ++ r.depths).map (· + 1)

/-- The symbols of the leaves with their root-to-leaf paths, "left edge = bit 0, right edge = bit 1" (R77); the
synthetic leaf has none (R123). -/
def HuffTree.codes : HuffTree → List (Byte × Bits)
  | .leaf (some s) _ => [(s, [])]
  | .leaf none _ => []
  | .internal _ l r => l.codes.map (fun e => (e.1, false :: e.2)) ++ r.codes.map (fun e => (e.1, true :: e.2))

/-- `tree(k)` (R20). `fuel` bounds the depth; in an arena that meets R32, CODE_MAX levels are always enough. -/
def treeAt (node : List (Nat × Node)) : Nat → Nat → HuffTree
  | fuel, k =>
    match (nodeGet node k).kind with
    | .leaf => if k ≤ 255 then .leaf (some (BitVec.ofNat 8 k)) (nodeGet node k).freq.toNat else .leaf none 0
    | .internal =>
      match fuel with
      | 0 => .leaf none 0
      | f + 1 =>
        .internal (nodeGet node k).freq.toNat (treeAt node f (nodeGet node k).left.toNat)
          (treeAt node f (nodeGet node k).right.toNat)

/-- The HuffmanTree value of an arena and a root: "`tree(ROOT.IDX)` when ROOT.PRESENT = 1 and "absent" otherwise"
(R20, R29). -/
def treeValue (node : List (Nat × Node)) (root : BitVec 16) : Option HuffTree :=
  if rootPresent root then some (treeAt node Config.codeMax (rootIdx root).toNat) else none

/-- The FrequencyTable value `table(FT)` (R17, R29): the present symbols, ascending, with their counts. -/
def tableValue (ft : List (Nat × Count)) : List (Nat × Nat) :=
  (presentSymbols ft).map (fun s => (s, (ftGet ft s).toNat))

/-- The code of a symbol in the CodeTable value `codes(CT)` (R21, R29): none when the symbol is absent. -/
def codeOf (ct : List (Nat × CodeEntry)) (sym : Nat) : Option Bits :=
  if (ctGet ct sym).len = 0#8 then none else some (codeBits (ctGet ct sym))

/-- A symbol's term of the Kraft sum (R124 item 4), scaled by `2^255`: `2^(255 - LEN)` when it has a code. -/
def kraftTerm : Option Bits → Nat
  | some c => 2 ^ (Config.codeMax - c.length)
  | none   => 0

/-- The node reached from node `k` along a bit string (R77, R150). -/
def walkPath (node : List (Nat × Node)) (k : NodeIdx) (path : Bits) : NodeIdx := path.foldl (walkMove node) k

/-- The code bit string `B` of an input (R71): the concatenated codes of its bytes, in order. -/
def codeString (ct : List (Nat × CodeEntry)) (x : List Byte) : Bits := x.flatMap (fun v => codeBits (ctGet ct v.toNat))

/-- Every byte of `x` has a code (R133, R135). -/
abbrev AllCoded (ct : List (Nat × CodeEntry)) (x : List Byte) : Prop := ∀ v ∈ x, (ctGet ct v.toNat).len ≠ 0#8

/-- Every byte of `x` is present in the table (R155). -/
abbrev AllPresent (ft : List (Nat × Count)) (x : List Byte) : Prop := ∀ v ∈ x, ftGet ft v.toNat ≠ 0#32

/-- The padding count of `T` code bits (R71). -/
def padOf (t : Nat) : Nat := (8 - t % 8) % 8

/-- The bytes of a bit string whose length is a multiple of 8 (R71): `byte(B'[8j .. 8j+8))` for `j` = 0, 1, ... -/
def bytesOf (b : Bits) : List Byte :=
  (List.range (b.length / 8)).map (fun j => byteOf ((b.drop (8 * j)).take 8))

/-- The payload of a code bit string (R71). -/
def payload (b : Bits) : List Byte := bytesOf (b ++ zeros (padOf b.length))

/-- The trailer of a code bit string (R75). -/
def trailer (b : Bits) : Byte := BitVec.ofNat 8 (padOf b.length)

/-- `payload ++ [trailer]` of an input (R76): what PACK makes and UNPACK takes. -/
def packed (ct : List (Nat × CodeEntry)) (x : List Byte) : List Byte :=
  payload (codeString ct x) ++ [trailer (codeString ct x)]

/-- The code table of the tree of a table (R101, R121). -/
def tableCodes (ft : List (Nat × Count)) : List (Nat × CodeEntry) :=
  codesOf (buildArena ft).1 (rootOf (buildArena ft).2)

/-- The CompressedStream of an input under a table (R70): `header ++ payload ++ [trailer]`. -/
def stream (ft : List (Nat × Count)) (x : List Byte) : List Byte := header ft ++ packed (tableCodes ft) x

/-- A node value with its rank (R110). -/
structure Ranked where
  rank : Nat
  tree : HuffTree
  deriving DecidableEq, Repr

/-- The order of R110: by frequency, then by rank. -/
def rankedBefore (x y : Ranked) : Bool :=
  decide (x.tree.frequency < y.tree.frequency) ||
    (decide (x.tree.frequency = y.tree.frequency) && decide (x.rank < y.rank))

/-- The least of `x` and the elements of a list in the order of R110. -/
def leastRanked : Ranked → List Ranked → Ranked
  | x, [] => x
  | x, y :: ys => leastRanked (if rankedBefore y x then y else x) ys

/-- Remove the least node from a list of nodes (R110). -/
def extractRanked (q : List Ranked) : Option (Ranked × List Ranked) :=
  match q with
  | [] => none
  | x :: xs => some (leastRanked x xs, q.erase (leastRanked x xs))

/-- The loop of R110: "while the list has more than one node, remove the node `a` with the least (frequency, rank),
then the node `b`", "and add `Internal{a.frequency + b.frequency, left = b, right = a}` with the next rank". -/
def mergeValues : Nat → List Ranked → Nat → List Ranked
  | 0, q, _ => q
  | fuel + 1, q, next =>
    match extractRanked q with
    | none => q
    | some (a, q1) =>
      match extractRanked q1 with
      | none => q
      | some (b, q2) =>
        mergeValues fuel
          (q2 ++ [⟨next, .internal (a.tree.frequency + b.tree.frequency) b.tree a.tree⟩]) (next + 1)

/-- The leaves R110 starts from: one per entry, with the synthetic leaf beside a lone entry (R102). -/
def rankedLeaves (t : List (Nat × Nat)) : List Ranked :=
  match t with
  | [e] => [⟨e.1, .leaf (some (BitVec.ofNat 8 e.1)) e.2⟩, ⟨Config.synth, .leaf none 0⟩]
  | _   => t.map (fun e => ⟨e.1, .leaf (some (BitVec.ofNat 8 e.1)) e.2⟩)

/-- The value-level build (R110): the node left is the root; the empty table has no tree. -/
def buildValue (t : List (Nat × Nat)) : Option HuffTree :=
  match mergeValues (rankedLeaves t).length (rankedLeaves t) Config.intBase with
  | []     => none
  | r :: _ => some r.tree

end Sys2Proof.Machine
end

