-- ==== Sys2Proof/Safety.lean ====
section
/-! DEFINITION. What holds of every state a run reaches, in the terms the claims use: the canonical form of the
memories, the legal register values (`10_state.md` rules R12 to R18, R24), the arena invariant (R32) and the legal
code tables (R21, R124 item 2); and the two shapes in which a command ends (R130, R177, R200). -/

namespace Sys2Proof.Machine

/-- The memories are in canonical form (R23, R24, R17, R19, R21): indices strictly rising and inside the memory, no
table entry equal to what an unlisted one reads as. -/
structure State.Canonical (s : State) : Prop where
  inMem  : Memory.wf s.params.inCap.toNat s.inMem
  outMem : Memory.wf s.params.outCap.toNat s.outMem
  ft     : Table.wf Config.nSym 0#32 s.ft
  node   : Table.wf Config.nNode Node.unused s.node
  ct     : Table.wf Config.nSym CodeEntry.absent s.ct

/-- The registers hold legal values. -/
structure State.Legal (s : State) : Prop where
  /-- R5, R12: between steps no command is executing. -/
  idle           : s.busy = false
  /-- R12: STATUS bits 7:3 read 0. -/
  statusReserved : s.status.extractLsb' 3 5 = 0#5
  /-- R13: ERRCODE bits 7:3 read 0. -/
  errcodeReserved : s.errcode.extractLsb' 3 5 = 0#5
  /-- R13: ERRCODE is 0 when ERR = 0 and one of 1..7 when ERR = 1. -/
  errcodeOfErr   : errBit s.status = true ↔ s.errcode ≠ 0#8
  /-- R12: "ERR = 1 and EMPTY = 1 never hold together". -/
  errOrEmpty     : ¬ (errBit s.status = true ∧ emptyBit s.status = true)
  /-- R14: legal values of IN_LEN are 0..IN_CAP. -/
  inLen          : s.inLen.toNat ≤ s.params.inCap.toNat
  /-- R15: the range of OUT_LEN is 0..OUT_CAP. -/
  outLen         : s.outLen.toNat ≤ s.params.outCap.toNat
  /-- R24: every byte of `OUT[0..OUT_LEN)` is specified. -/
  outSpecified   : ∀ i < s.outLen.toNat, s.outAt i ≠ none
  /-- R16: PAD holds 0..7, bits 7:3 read 0. -/
  pad            : s.pad.toNat ≤ 7
  /-- R18: ROOT bits 15:10 read 0. -/
  rootReserved   : s.root.extractLsb' 10 6 = 0#6
  /-- R18: IDX is 0 when PRESENT = 0. -/
  rootAbsent     : rootPresent s.root = false → rootIdx s.root = 0#9

/-- The number of valid leaves of an arena (R32 item 2). -/
def leafTotal (node : List (Nat × Node)) : Nat :=
  ((List.range Config.intBase).filter (fun k => (nodeGet node k).valid)).length

/-- The arena invariant (R32), with the layout of R19. -/
structure ArenaInv (node : List (Nat × Node)) (root : BitVec 16) : Prop where
  /-- R19: an entry with VALID = 0 has every other field 0. -/
  unused    : ∀ k, (nodeGet node k).valid = false → nodeGet node k = Node.unused
  /-- R19: a valid entry 0..256 is a Leaf, with LEFT and RIGHT 0. -/
  leaves    : ∀ k, k < Config.intBase → (nodeGet node k).valid = true →
                nodeGet node k = leafNode (nodeGet node k).freq
  /-- R32 item 1. -/
  absent    : rootPresent root = false → ∀ k, (nodeGet node k).valid = false
  /-- R32 item 2: at least two leaves, and ROOT.IDX = 255 + L. -/
  twoLeaves : rootPresent root = true → 2 ≤ leafTotal node ∧ (rootIdx root).toNat = 255 + leafTotal node
  /-- R32 item 2: the valid internal entries are 257 .. 255 + L. -/
  internals : ∀ k, Config.intBase ≤ k → ((nodeGet node k).valid = true ↔ k ≤ 255 + leafTotal node ∧ rootPresent root = true)
  /-- R32 item 3. -/
  children  : ∀ k, Config.intBase ≤ k → (nodeGet node k).valid = true →
                (nodeGet node k).kind = .internal ∧
                (nodeGet node k).left.toNat < k ∧ (nodeGet node k).right.toNat < k ∧
                (nodeGet node k).left ≠ (nodeGet node k).right ∧
                (nodeGet node (nodeGet node k).left.toNat).valid = true ∧
                (nodeGet node (nodeGet node k).right.toNat).valid = true ∧
                (nodeGet node k).freq.toNat =
                  (nodeGet node (nodeGet node k).left.toNat).freq.toNat +
                  (nodeGet node (nodeGet node k).right.toNat).freq.toNat
  /-- R32 item 4. -/
  oneParent : ∀ k, (nodeGet node k).valid = true → k ≠ (rootIdx root).toNat →
                ∃ j, (Config.intBase ≤ j ∧ (nodeGet node j).valid = true ∧
                  ((nodeGet node j).left.toNat = k ∨ (nodeGet node j).right.toNat = k)) ∧
                  ∀ i, Config.intBase ≤ i → (nodeGet node i).valid = true →
                    ((nodeGet node i).left.toNat = k ∨ (nodeGet node i).right.toNat = k) → i = j
  /-- R32 item 5. -/
  synthetic : (nodeGet node Config.synth).valid = true ↔
                ((List.range Config.nSym).filter (fun k => (nodeGet node k).valid)).length = 1
  /-- R32 item 6. -/
  positive  : ∀ k, k < Config.nSym → (nodeGet node k).valid = true → 1 ≤ (nodeGet node k).freq.toNat
  /-- R32 item 6. -/
  synthZero : (nodeGet node Config.synth).freq = 0#40

/-- "No present code is a prefix of another present code, and no two are equal" (R124 item 2). -/
def PrefixFree (ct : List (Nat × CodeEntry)) : Prop :=
  ∀ a b p q, a ≠ b → codeOf ct a = some p → codeOf ct b = some q → ¬ p <+: q

/-- The code table is legal: bits at and above LEN are 0, an absent entry has BITS = 0 (R21), and the present codes
are prefix-free (R124 item 2). -/
structure CodesInv (ct : List (Nat × CodeEntry)) : Prop where
  highBits   : ∀ sym, (ctGet ct sym).bits.toNat < 2 ^ (ctGet ct sym).len.toNat
  prefixFree : PrefixFree ct

/-- The invariant of the machine. -/
structure State.Inv (s : State) : Prop where
  canonical : s.Canonical
  legal     : s.Legal
  arena     : ArenaInv s.node s.root
  codes     : CodesInv s.ct

/-- The state in which a command that makes a byte sequence ends well (R130, R145, R166, R172): the output and its
length, the padding count, STATUS 0x00, ERRCODE 0. -/
def State.succeeded (s : State) (out : List Byte) (p : Byte) : State :=
  { s with outMem := Memory.ofBytes out, outLen := BitVec.ofNat 32 out.length, pad := p, status := 0x00#8, errcode := 0#8 }

/-- The state in which a command fails with any kind but IllegalCommand (R200, R201): STATUS 0x02, ERRCODE the code,
OUT_LEN and PAD 0, no byte of OUT specified. -/
def State.failed (s : State) (k : FailKind) : State :=
  { s with outMem := [], outLen := 0#32, pad := 0#8, status := 0x02#8, errcode := k.code }

end Sys2Proof.Machine
end

