-- ==== Sys2Proof/Certificates/Slice0/Obligations.lean ====
section
/-! DEFINITION. The statements for the provers, each with the rule of the spec it formalises. Success is STATUS 0x00
(0x04 with the EmptyInput notice), failure STATUS 0x02 (`95_test_vectors.md`, R12). `x`, `y`, `pl` are byte
sequences; `s.input = x.map some` says that the operand `IN[0..IN_LEN)` is `x`, every byte of it written. -/

open Sys2Proof Sys2Proof.Machine

/-! ## Encoding -/

/-- R62: the opcode of each of the eight commands, its word written out bit by bit. -/
def Obligations.CommandWordsDecode : Prop :=
  decode 0b00000001#8 = .ok .fcount ∧ decode 0b00000010#8 = .ok .build ∧ decode 0b00000011#8 = .ok .derive ∧
  decode 0b00000100#8 = .ok .pack ∧ decode 0b00000101#8 = .ok .unpack ∧ decode 0b00000110#8 = .ok .compress ∧
  decode 0b00000111#8 = .ok .decompress ∧ decode 0b00001000#8 = .ok .clear

/-- R60, R61, R62: a word decodes to a command exactly when it is the command's word; every command is well-formed. -/
def Obligations.DecodeInvertsEncode : Prop :=
  ∀ (i : Instr) (v : Byte), i.wf = true ∧ (decode v = .ok i ↔ v = encode i)

/-- R63, R181: 0x00 and 0x09 .. 0xFF select no command; writing one to CMD reports IllegalCommand (STATUS 0x02,
ERRCODE 7, EMPTY 0) and changes nothing else. The other words select a command. -/
def Obligations.ReservedWordIsIllegalCommand : Prop :=
  ∀ v : Byte,
    ((v = 0x00#8 ∨ 0x09#8 ≤ v) →
      decode v = .error (.reservedOpcode v) ∧
      ∀ (s : State) (ms : List HostMove), s.script = .writeCmd v :: ms → s.busy = false →
        step s = .next { s with script := ms, status := 0x02#8, errcode := 7#8 }) ∧
    (¬ (v = 0x00#8 ∨ 0x09#8 ≤ v) → ∃ i, decode v = .ok i)

/-! ## The step and the host port -/

/-- R11, R177: the host's write of a command word to the idle block runs the command that word decodes to, in the
state with the host's later moves pending. -/
def Obligations.StepRunsDecodedCommand : Prop :=
  ∀ (s : State) (v : Byte) (ms : List HostMove) (i : Instr),
    s.script = .writeCmd v :: ms → s.busy = false → decode v = .ok i → step s = exec i { s with script := ms }

/-- R182: a write to CMD while STATUS.BUSY = 1 changes no state, whatever its value. -/
def Obligations.CommandWriteWhileBusyIsIgnored : Prop :=
  ∀ (s : State) (v : Byte) (ms : List HostMove),
    s.script = .writeCmd v :: ms → s.busy = true → step s = .next { s with script := ms }

/-- R52: while BUSY every other write to an existing location is ignored, a read of STATUS returns STATUS, and a read
of anything else has no meaning. -/
def Obligations.AccessWhileBusy : Prop :=
  ∀ (s : State) (ms : List HostMove), s.busy = true →
    (∀ v, s.script = .writeInLen v :: ms → step s = .next { s with script := ms }) ∧
    (∀ i v, i < s.params.inCap.toNat → s.script = .writeIn i v :: ms → step s = .next { s with script := ms }) ∧
    (∀ sym v, sym < 256 → s.script = .writeFt sym v :: ms → step s = .next { s with script := ms }) ∧
    (∀ l, l.inRange s.params = true → s.script = .writeReadOnly l :: ms → step s = .next { s with script := ms }) ∧
    (s.script = .read (.readOnly .status) :: ms →
      step s = .next { s with script := ms, reads := s.reads ++ [s.status.toNat] }) ∧
    (∀ l, l ≠ .readOnly .status → l.inRange s.params = true → s.script = .read l :: ms →
      step s = .refused .readWhileBusy)

/-- R222: with no host move pending the block starts nothing on its own and keeps all state. -/
def Obligations.IdleBlockKeepsAllState : Prop :=
  ∀ s : State, s.script = [] → step s = .next s

/-- R26, R50, R43: a read of a location of the idle block gives the host the location's value, whole, and changes
nothing else; `OUT[i]` at or above OUT_LEN, an unwritten `IN[i]` and CMD have no value to give (U1, U2, U6). -/
def Obligations.ReadReturnsTheWholeLocation : Prop :=
  ∀ (s : State) (ms : List HostMove) (l : Loc), s.script = .read l :: ms → s.busy = false →
    l.inRange s.params = true →
    (l = .readOnly .status → step s = .next { s with script := ms, reads := s.reads ++ [s.status.toNat] }) ∧
    (l = .readOnly .errcode → step s = .next { s with script := ms, reads := s.reads ++ [s.errcode.toNat] }) ∧
    (l = .inLen → step s = .next { s with script := ms, reads := s.reads ++ [s.inLen.toNat] }) ∧
    (l = .readOnly .outLen → step s = .next { s with script := ms, reads := s.reads ++ [s.outLen.toNat] }) ∧
    (l = .readOnly .pad → step s = .next { s with script := ms, reads := s.reads ++ [s.pad.toNat] }) ∧
    (l = .readOnly .root → step s = .next { s with script := ms, reads := s.reads ++ [s.root.toNat] }) ∧
    (∀ i v, l = .inp i → s.inAt i = some v → step s = .next { s with script := ms, reads := s.reads ++ [v.toNat] }) ∧
    (∀ i, l = .inp i → s.inAt i = none → step s = .refused .unwrittenInput) ∧
    (∀ i v, l = .readOnly (.out i) → i < s.outLen.toNat → s.outAt i = some v →
      step s = .next { s with script := ms, reads := s.reads ++ [v.toNat] }) ∧
    (∀ i, l = .readOnly (.out i) → s.outLen.toNat ≤ i → step s = .refused .unspecifiedOutput) ∧
    (∀ sym, l = .ft sym → step s = .next { s with script := ms, reads := s.reads ++ [(s.ftAt sym).toNat] }) ∧
    (∀ k, l = .readOnly (.node k) →
      step s = .next { s with script := ms, reads := s.reads ++ [(nodeWord (s.nodeAt k)).toNat] }) ∧
    (∀ sym, l = .readOnly (.ct sym) →
      step s = .next { s with script := ms, reads := s.reads ++ [(codeWord (s.ctAt sym)).toNat] }) ∧
    (l = .cmd → step s = .refused .readOfCmd)

/-- R78, R79: the packed words of a node and of a code, as numbers. -/
def Obligations.PackedWordLayout : Prop :=
  (∀ n : Node, (nodeWord n).toNat =
    2 ^ 59 * n.valid.toNat + 2 ^ 58 * (if n.kind = .internal then 1 else 0) + 2 ^ 18 * n.freq.toNat +
      2 ^ 9 * n.left.toNat + n.right.toNat) ∧
  (∀ e : CodeEntry, (codeWord e).toNat = 2 ^ 255 * e.len.toNat + e.bits.toNat)

/-- R50, R14, R26: the host's writes. IN_LEN takes a value up to IN_CAP and keeps its own on one above
(the model's choice between the two readings of U7, log entry 4); IN[i] and FT[s] take the value and every other entry
keeps its own; a write to a read-only location has no effect. -/
def Obligations.WriteReplacesTheWholeLocation : Prop :=
  ∀ (s : State) (ms : List HostMove), s.busy = false →
    (∀ v, s.script = .writeInLen v :: ms → v.toNat ≤ s.params.inCap.toNat →
      step s = .next { s with script := ms, inLen := v }) ∧
    (∀ v, s.script = .writeInLen v :: ms → s.params.inCap.toNat < v.toNat → step s = .next { s with script := ms }) ∧
    (∀ i v, s.script = .writeIn i v :: ms → i < s.params.inCap.toNat →
      ∃ m, step s = .next { s with script := ms, inMem := m } ∧
        ∀ j, Sparse.lookup m j = if j = i then some v else s.inAt j) ∧
    (∀ sym v, s.script = .writeFt sym v :: ms → sym < 256 →
      ∃ ft, step s = .next { s with script := ms, ft := ft } ∧ ∀ j, ftGet ft j = if j = sym then v else s.ftAt j) ∧
    (∀ l, s.script = .writeReadOnly l :: ms → l.inRange s.params = true → step s = .next { s with script := ms })

/-- R26, U10: an index outside its memory names no location and the access is refused. The bounds are IN_CAP, OUT_CAP,
256, 512. That it is refused also while BUSY = 1 is log entry 7. -/
def Obligations.IndexOutsideNamesNoLocation : Prop :=
  ∀ (s : State) (ms : List HostMove) (i : Nat),
    (s.params.inCap.toNat ≤ i → ∀ v,
      (s.script = .read (.inp i) :: ms ∨ s.script = .writeIn i v :: ms) → step s = .refused (.noSuchLocation (.inp i))) ∧
    (s.params.outCap.toNat ≤ i →
      (s.script = .read (.readOnly (.out i)) :: ms ∨ s.script = .writeReadOnly (.out i) :: ms) →
        step s = .refused (.noSuchLocation (.readOnly (.out i)))) ∧
    (256 ≤ i → ∀ v,
      (s.script = .read (.ft i) :: ms ∨ s.script = .writeFt i v :: ms) → step s = .refused (.noSuchLocation (.ft i))) ∧
    (256 ≤ i →
      (s.script = .read (.readOnly (.ct i)) :: ms ∨ s.script = .writeReadOnly (.ct i) :: ms) →
        step s = .refused (.noSuchLocation (.readOnly (.ct i)))) ∧
    (512 ≤ i →
      (s.script = .read (.readOnly (.node i)) :: ms ∨ s.script = .writeReadOnly (.node i) :: ms) →
        step s = .refused (.noSuchLocation (.readOnly (.node i))))

/-! ## Reset and CLEAR -/

/-- R30: the values of the reset state: every register 0, every table empty, no byte of IN or OUT specified. -/
def Obligations.ResetStateValues : Prop :=
  State.reset.status = 0#8 ∧ State.reset.errcode = 0#8 ∧ State.reset.inLen = 0#32 ∧ State.reset.outLen = 0#32 ∧
  State.reset.pad = 0#8 ∧ State.reset.root = 0#16 ∧ rootPresent State.reset.root = false ∧
  (∀ sym, State.reset.ftAt sym = 0#32) ∧ (∀ k, State.reset.nodeAt k = Node.unused) ∧
  (∀ sym, State.reset.ctAt sym = CodeEntry.absent) ∧ (∀ i, State.reset.inAt i = none) ∧ (∀ i, State.reset.outAt i = none)

/-- R220: reset, allowed at any time (BUSY too), gives the state of R30; the capacities are the hardware's, and the
moves pending and the values received are the host's, so these stay (the model's own fields, log entries 1 and 2). -/
def Obligations.ResetMoveGivesResetState : Prop :=
  ∀ (s : State) (ms : List HostMove), s.script = .reset :: ms →
    step s = .next { State.reset with params := s.params, script := ms, reads := s.reads }

/-- R180: CLEAR, on every state: IN_LEN, OUT_LEN, PAD, ROOT, FT, NODE, CT, STATUS and ERRCODE at their reset values,
the bytes of IN and OUT as they were. -/
def Obligations.ClearReturnsToReset : Prop :=
  ∀ s : State, exec .clear s =
    .next { s with
      status := 0x00#8, errcode := 0#8, inLen := 0#32, outLen := 0#32, pad := 0#8, root := 0#16, ft := [], node := [],
      ct := [] }

/-- R224: the reset state meets the arena invariant, and every command issued right after reset has a defined result,
with any capacities: the seven R224 lists, and CLEAR, which changes nothing (R180). An OUT too small for the one byte of
PACK (R49) or the four of COMPRESS (R168) gives IOFailure. -/
def Obligations.CommandsRightAfterReset : Prop :=
  ∀ (p : Params),
    let s : State := { State.reset with params := p }
    ArenaInv s.node s.root ∧
    exec .fcount s = .next { s with status := 0x04#8 } ∧
    exec .build s = .next s ∧
    exec .derive s = .next s ∧
    exec .pack s = .next (if 1 ≤ p.outCap.toNat then s.succeeded [0x00#8] 0#8 else s.failed .ioFailure) ∧
    exec .unpack s = .next (s.failed .truncatedStream) ∧
    exec .compress s =
      .next (if 4 ≤ p.outCap.toNat then
          { s.succeeded [0x01#8, 0x00#8, 0x00#8, 0x00#8] 0#8 with status := 0x04#8 }
        else s.failed .ioFailure) ∧
    exec .decompress s = .next (s.failed .malformedHeader) ∧
    exec .clear s = .next s

/-! ## FCOUNT -/

/-- R90, R92: FCOUNT makes `FT[s]` the number of occurrences of `s` in the operand, for every `s`, sets EMPTY exactly
when IN_LEN = 0, and writes nothing else. -/
def Obligations.FcountCountsEveryByte : Prop :=
  ∀ (s : State) (x : List Byte), s.input = x.map some →
    ∃ ft, exec .fcount s =
        .next { s with ft := ft, status := if s.inLen = 0#32 then 0x04#8 else 0x00#8, errcode := 0#8 } ∧
      ∀ sym, sym < 256 → (ftGet ft sym).toNat = x.count (BitVec.ofNat 8 sym)

/-- R91, R93: the counts sum to IN_LEN; a symbol is present exactly when it occurs; a second FCOUNT changes nothing;
at most `min(IN_LEN, 256)` entries are present. -/
def Obligations.FcountLaws : Prop :=
  ∀ (s t : State) (x : List Byte), s.input = x.map some → exec .fcount s = .next t →
    ((List.range 256).map (fun sym => (t.ftAt sym).toNat)).sum = s.inLen.toNat ∧
    (∀ sym, sym < 256 → (0 < (t.ftAt sym).toNat ↔ BitVec.ofNat 8 sym ∈ x)) ∧
    exec .fcount t = .next t ∧
    (presentSymbols t.ft).length ≤ min s.inLen.toNat 256

/-- R226 with U1: a command that would read an operand byte that was never written has no meaning. FCOUNT and COMPRESS
read the whole operand; PACK reads byte after byte while the codes before fit OUT; UNPACK reads the trailer, then the
payload along the walk, here past the codes of `x` and a part `q` of a code; DECOMPRESS reads the header as
`parse_header` does, here inside the count fields or in an entry after well-formed ones, then the rest as UNPACK. That a
failure met before the byte is read is reported is log entry 6. -/
def Obligations.UnwrittenOperandByteStops : Prop :=
  ∀ s : State,
    (none ∈ s.input →
      exec .fcount s = .refused .unwrittenInput ∧ exec .compress s = .refused .unwrittenInput) ∧
    (∀ (x : List Byte) (rest : List (Option Byte)), s.input = x.map some ++ none :: rest → AllCoded s.ct x →
      (codeString s.ct x).length / 8 ≤ s.params.outCap.toNat → exec .pack s = .refused .unwrittenInput) ∧
    (∀ pl, s.input = pl ++ [none] → exec .unpack s = .refused .unwrittenInput) ∧
    (∀ (w x : List Byte) (rest : List (Option Byte)) (p : Byte) (q : Bits),
      s.input = w.map some ++ none :: (rest ++ [some p]) → p.toNat ≤ 7 → AllPresent s.ft x →
      w.flatMap bits8 = codeString (tableCodes s.ft) x ++ q →
      (q = [] ∨ ∃ sym c, codeOf (tableCodes s.ft) sym = some c ∧ q <+: c ∧ q ≠ c) →
      x.length ≤ s.params.outCap.toNat → exec .unpack s = .refused .unwrittenInput) ∧
    (∀ y, s.input = none :: y → 3 ≤ s.input.length → exec .decompress s = .refused .unwrittenInput) ∧
    (∀ b y, s.input = some 0x01#8 :: none :: b :: y ∨ s.input = some 0x01#8 :: b :: none :: y →
      exec .decompress s = .refused .unwrittenInput) ∧
    (∀ (w : List Byte) (rest : List (Option Byte)), s.input = w.map some ++ none :: rest →
      let n := be16 (w.getD 1 0#8) (w.getD 2 0#8)
      3 ≤ w.length → w.getD 0 0#8 = 0x01#8 → n ≤ 256 → w.length < 3 + 5 * n → 3 + 5 * n ≤ s.input.length →
      (∀ j, 8 + 5 * j ≤ w.length →
        be32 (w.getD (4 + 5 * j) 0#8) (w.getD (5 + 5 * j) 0#8) (w.getD (6 + 5 * j) 0#8) (w.getD (7 + 5 * j) 0#8) ≠
          0#32) →
      (∀ j, 8 + 5 * (j + 1) ≤ w.length → w.getD (3 + 5 * j) 0#8 < w.getD (3 + 5 * (j + 1)) 0#8) →
      exec .decompress s = .refused .unwrittenInput) ∧
    (∀ (u : State) (ft : List (Nat × Count)) (y : List (Option Byte)) (r : Refusal), Table.wf 256 0#32 ft →
      s.input = (header ft).map some ++ y → u.ft = ft → u.input = y → u.params = s.params →
      exec .unpack u = .refused r → exec .decompress s = .refused r)

/-! ## BUILD -/

/-- R100, R19, R32: BUILD, on every state, writes NODE and ROOT and nothing else; the arena meets the invariant, and
its valid leaves are the present symbols with their counts. -/
def Obligations.BuildMakesTheArena : Prop :=
  ∀ s : State, ∃ node root,
    exec .build s = .next { s with node := node, root := root, status := 0x00#8, errcode := 0#8 } ∧
    ArenaInv node root ∧
    ∀ sym, sym < 256 →
      ((nodeGet node sym).valid = true ↔ s.ftAt sym ≠ 0#32) ∧
      (nodeGet node sym).freq.toNat = (s.ftAt sym).toNat

/-- R104, with the node order of R103: every internal node `k` of the tree BUILD makes merged the two least nodes: RIGHT
comes before LEFT, and LEFT before every other node made before `k` and not merged before `k`; the order is by FREQ, then
by index, unsigned. FREQ is the sum. -/
def Obligations.BuildMergesTheTwoLeast : Prop :=
  ∀ (s t : State) (k : Nat), exec .build s = .next t → 257 ≤ k → (t.nodeAt k).valid = true →
    let before (i j : Nat) : Prop :=
      (t.nodeAt i).freq.toNat < (t.nodeAt j).freq.toNat ∨ ((t.nodeAt i).freq.toNat = (t.nodeAt j).freq.toNat ∧ i < j)
    let a := (t.nodeAt k).right.toNat
    let b := (t.nodeAt k).left.toNat
    before a b ∧ (t.nodeAt k).freq.toNat = (t.nodeAt a).freq.toNat + (t.nodeAt b).freq.toNat ∧
    ∀ j, j < k → (t.nodeAt j).valid = true → j ≠ a → j ≠ b →
      (∀ i, 257 ≤ i → i < k → (t.nodeAt i).left.toNat ≠ j ∧ (t.nodeAt i).right.toNat ≠ j) → before b j

/-- R102: the empty table gives the absent tree and no codes; a table with exactly one entry gives three nodes, the real
symbol LEFT with the code `"0"` and the synthetic leaf RIGHT; with two entries or more there is no synthetic leaf. -/
def Obligations.BuildSpecialCases : Prop :=
  ∀ (s t : State), exec .build s = .next t →
    ((∀ sym, sym < 256 → s.ftAt sym = 0#32) →
      t.root = 0#16 ∧ t.node = [] ∧ exec .derive t = .next { t with ct := [] }) ∧
    (∀ sym, sym < 256 → s.ftAt sym ≠ 0#32 → (∀ b, b < 256 → b ≠ sym → s.ftAt b = 0#32) →
      t.root = rootWord true 257#9 ∧
      t.node = [(sym, leafNode ((s.ftAt sym).setWidth 40)), (256, leafNode 0#40),
        (257, internalNode ((s.ftAt sym).setWidth 40) sym 256)] ∧
      exec .derive t = .next { t with ct := [(sym, { len := 1#8, bits := 0#255 })] }) ∧
    (∀ a b, a < 256 → b < 256 → a ≠ b → s.ftAt a ≠ 0#32 → s.ftAt b ≠ 0#32 → t.nodeAt 256 = Node.unused)

/-- R105: with `L` leaves seeded, `L = 0` or `2 <= L <= 256`; the root is the internal node `255 + L <= 511`, the
internal nodes are `257 .. 255 + L`, the tree has `2L - 1` nodes, every leaf is at depth 1 to `L - 1 <= 255`, and so
every code has 1 to 255 bits. -/
def Obligations.BuildSizeAndDepth : Prop :=
  ∀ (s t : State), exec .build s = .next t →
    let n := (presentSymbols s.ft).length
    let l := if n = 1 then 2 else n
    (l = 0 ∨ (2 ≤ l ∧ l ≤ 256)) ∧
    (l ≠ 0 →
      rootPresent t.root = true ∧ (rootIdx t.root).toNat = 255 + l ∧
      (∀ k, 257 ≤ k → ((t.nodeAt k).valid = true ↔ k ≤ 255 + l)) ∧
      ((List.range 512).filter (fun k => (t.nodeAt k).valid)).length = 2 * l - 1 ∧
      ∃ tr, treeValue t.node t.root = some tr ∧ tr.depths.length = l ∧ (∀ d ∈ tr.depths, 1 ≤ d ∧ d ≤ l - 1) ∧
        ∀ e ∈ tr.codes, 1 ≤ e.2.length ∧ e.2.length ≤ 255)

/-- R107: a leaf's FREQ is its count, zero-extended; an internal node's FREQ is the sum of its children's with no wrap;
the root's FREQ is the sum of all counts in the table, at most `256 * (2^32 - 1) < 2^40`. -/
def Obligations.BuildFrequenciesNeverWrap : Prop :=
  ∀ (s t : State), exec .build s = .next t →
    (∀ sym, sym < 256 → (t.nodeAt sym).freq.toNat = (s.ftAt sym).toNat) ∧
    (∀ k, 257 ≤ k → (t.nodeAt k).valid = true →
      (t.nodeAt k).freq.toNat =
        (t.nodeAt (t.nodeAt k).left.toNat).freq.toNat + (t.nodeAt (t.nodeAt k).right.toNat).freq.toNat) ∧
    (rootPresent t.root = true →
      (t.nodeAt (rootIdx t.root).toNat).freq.toNat = ((List.range 256).map (fun sym => (s.ftAt sym).toNat)).sum ∧
      (t.nodeAt (rootIdx t.root).toNat).freq.toNat ≤ 256 * (2 ^ 32 - 1))

/-- R108: `build_tree` is a function of the table alone: two builds from equal tables give equal NODE and ROOT, entry
for entry, in BUILD and in UNPACK. -/
def Obligations.BuildDependsOnTheTableAlone : Prop :=
  ∀ (s s' t t' : State), (∀ sym, sym < 256 → s.ftAt sym = s'.ftAt sym) →
    (exec .build s = .next t ∨ exec .unpack s = .next t) → (exec .build s' = .next t' ∨ exec .unpack s' = .next t') →
    t.node = t'.node ∧ t.root = t'.root

/-- R110, R20: the tree value of the arena BUILD makes is the value-level build of the table value. -/
def Obligations.BuildRefinesTheValueLevelBuild : Prop :=
  ∀ (s t : State), exec .build s = .next t → treeValue t.node t.root = buildValue (tableValue s.ft)

/-! ## DERIVE -/

/-- R120, R121, R77: DERIVE writes CT and nothing else; the code of a symbol is the path from the root to its leaf,
left edge 0 and right edge 1, and a symbol that is no leaf has none. The premise is the arena invariant of R32. -/
def Obligations.DeriveRecordsTheLeafPaths : Prop :=
  ∀ s : State, ArenaInv s.node s.root →
    ∃ ct, exec .derive s = .next { s with ct := ct, status := 0x00#8, errcode := 0#8 } ∧
      ∀ sym c, sym < 256 →
        (codeOf ct sym = some c ↔
          ∃ tr, treeValue s.node s.root = some tr ∧ (BitVec.ofNat 8 sym, c) ∈ tr.codes)

/-- R123, R124 items 1 and 3: a symbol has a code exactly when its leaf is valid; a code has 1 to 255 bits; the
synthetic leaf has no entry (no symbol above 255 has one). -/
def Obligations.DeriveCodesTheValidLeaves : Prop :=
  ∀ (s t : State), ArenaInv s.node s.root → exec .derive s = .next t →
    (∀ sym, sym < 256 → (codeOf t.ct sym ≠ none ↔ (s.nodeAt sym).valid = true)) ∧
    (∀ sym c, codeOf t.ct sym = some c → sym < 256 ∧ 1 ≤ c.length ∧ c.length ≤ 255)

/-- R124 item 2: the codes DERIVE makes are prefix-free. -/
def Obligations.DerivedCodesArePrefixFree : Prop :=
  ∀ (s t : State), ArenaInv s.node s.root → exec .derive s = .next t → PrefixFree t.ct

/-- R124 item 4: the Kraft sum of the codes, scaled by `2^255`, is 1 without and 1/2 with the synthetic leaf. -/
def Obligations.DerivedCodesKraftSum : Prop :=
  ∀ (s t : State), ArenaInv s.node s.root → rootPresent s.root = true → exec .derive s = .next t →
    ((List.range 256).map (fun sym => kraftTerm (codeOf t.ct sym))).sum =
    if (s.nodeAt 256).valid = true then 2 ^ 254 else 2 ^ 255

/-- R124 item 5, R150: the walk along a symbol's code ends exactly at its leaf, and is at an internal node before. -/
def Obligations.CodeWalkEndsAtItsLeaf : Prop :=
  ∀ (s t : State) (sym : Nat) (c : Bits), ArenaInv s.node s.root → exec .derive s = .next t →
    codeOf t.ct sym = some c →
    (walkPath s.node (rootIdx s.root) c).toNat = sym ∧ (s.nodeAt sym).kind = .leaf ∧
    ∀ p, p <+: c → p ≠ c → (s.nodeAt (walkPath s.node (rootIdx s.root) p).toNat).kind = .internal

/-! ## PACK -/

/-- R130, R132, R134, R135: when every byte of the operand has a code and `ceil(T / 8) + 1 <= OUT_CAP`, PACK makes
`payload ++ [pad]` as R71 defines them, and writes nothing but OUT, OUT_LEN, PAD, STATUS and ERRCODE. -/
def Obligations.PackMakesPayloadAndTrailer : Prop :=
  ∀ (s : State) (x : List Byte), s.input = x.map some → AllCoded s.ct x →
    ((codeString s.ct x).length + 7) / 8 + 1 ≤ s.params.outCap.toNat →
    exec .pack s = .next (s.succeeded (packed s.ct x) (trailer (codeString s.ct x)))

/-- R133, R135: failures come in the order of the input: MissingCode at a byte without a code when the bytes packed
before it fit; IOFailure at the byte whose code bits overflow OUT, or at the tail. Nothing but OUT, OUT_LEN, PAD,
STATUS and ERRCODE changes. PACK succeeds iff every input byte has a code and `ceil(T / 8) + 1 <= OUT_CAP`. -/
def Obligations.PackFailsInInputOrder : Prop :=
  ∀ (s : State),
    (∀ (x : List Byte) (v : Byte) (rest : List (Option Byte)), s.input = x.map some ++ some v :: rest →
      AllCoded s.ct x → (ctGet s.ct v.toNat).len = 0#8 → (codeString s.ct x).length / 8 ≤ s.params.outCap.toNat →
      exec .pack s = .next (s.failed .missingCode)) ∧
    (∀ (x : List Byte) (rest : List (Option Byte)), s.input = x.map some ++ rest →
      AllCoded s.ct x → s.params.outCap.toNat < (codeString s.ct x).length / 8 →
      exec .pack s = .next (s.failed .ioFailure)) ∧
    (∀ (x : List Byte), s.input = x.map some → AllCoded s.ct x →
      s.params.outCap.toNat < ((codeString s.ct x).length + 7) / 8 + 1 →
      exec .pack s = .next (s.failed .ioFailure)) ∧
    (∀ (x : List Byte) (t : State), s.input = x.map some → exec .pack s = .next t →
      (errBit t.status = false ↔
        AllCoded s.ct x ∧ ((codeString s.ct x).length + 7) / 8 + 1 ≤ s.params.outCap.toNat))

/-- R137 items 1 and 2: after a successful PACK, `8 * (OUT_LEN - 1) = T + PAD` and `PAD <= 7`, with `T` the sum over the
symbols of their number of occurrences times the length of their code. -/
def Obligations.PackBitLengthLaw : Prop :=
  ∀ (s t : State) (x : List Byte), s.input = x.map some → exec .pack s = .next t → errBit t.status = false →
    1 ≤ t.outLen.toNat ∧ t.pad.toNat ≤ 7 ∧
    8 * (t.outLen.toNat - 1) =
      ((List.range 256).map (fun sym => x.count (BitVec.ofNat 8 sym) * (s.ctAt sym).len.toNat)).sum + t.pad.toNat

/-! ## UNPACK -/

/-- R145, R146, R149: when the bits left after the trailer's `p` are dropped are the codes of `x` under the table in
FT, UNPACK rebuilds the tree, gives `x` and PAD = `p`, and writes nothing else. The dropped bits are arbitrary. -/
def Obligations.UnpackDecodesTheCodes : Prop :=
  ∀ (s : State) (x pl : List Byte) (p : Byte), s.input = (pl ++ [p]).map some → p.toNat ≤ 7 →
    p.toNat ≤ 8 * pl.length → AllPresent s.ft x →
    (pl.flatMap bits8).take (8 * pl.length - p.toNat) = codeString (tableCodes s.ft) x →
    x.length ≤ s.params.outCap.toNat →
    exec .unpack s = .next ((buildTree s).succeeded x p)

/-- R147: with no byte for a trailer the decoder fails with TruncatedStream: UNPACK with IN_LEN = 0, DECOMPRESS of a
stream that ends with its header. The tables are rebuilt all the same (R201). -/
def Obligations.MissingTrailerIsTruncatedStream : Prop :=
  (∀ s : State, s.inLen = 0#32 → exec .unpack s = .next ((buildTree s).failed .truncatedStream)) ∧
  (∀ (s : State) (ft : List (Nat × Count)), Table.wf 256 0#32 ft → s.input = (header ft).map some →
    exec .decompress s = .next ((buildTree { s with ft := ft }).failed .truncatedStream))

/-- R148: a trailer above 7, or above the bits available, fails with InvalidPadding before any payload bit is read; with
no payload byte a trailer of 1 to 7 fails so and a trailer of 0 is the valid empty payload; on success PAD is the
trailer. -/
def Obligations.TrailerOutOfRangeIsInvalidPadding : Prop :=
  ∀ (s : State) (pl : List (Option Byte)) (p : Byte), s.input = pl ++ [some p] →
    ((7 < p.toNat ∨ 8 * pl.length < p.toNat) → exec .unpack s = .next ((buildTree s).failed .invalidPadding)) ∧
    (pl = [] → 1 ≤ p.toNat → exec .unpack s = .next ((buildTree s).failed .invalidPadding)) ∧
    (pl = [] → p = 0#8 → exec .unpack s = .next ((buildTree s).succeeded [] 0#8)) ∧
    (∀ t, exec .unpack s = .next t → errBit t.status = false → t.pad = p)

/-- R152: bits to decode with an absent tree, and a walk that reaches the synthetic leaf, fail with InvalidCode. `n` bits
0 of a one-entry table give `n` symbols, so they must fit OUT for the bit 1 to be met (R154). -/
def Obligations.UndecodableBitIsInvalidCode : Prop :=
  ∀ (s : State) (pl : List Byte) (p : Byte), s.input = (pl ++ [p]).map some → p.toNat ≤ 7 →
    p.toNat < 8 * pl.length →
    ((∀ sym, sym < 256 → s.ftAt sym = 0#32) → exec .unpack s = .next ((buildTree s).failed .invalidCode)) ∧
    (∀ (sym n : Nat) (rest : Bits), sym < 256 → s.ftAt sym ≠ 0#32 → (∀ b, b < 256 → b ≠ sym → s.ftAt b = 0#32) →
      (pl.flatMap bits8).take (8 * pl.length - p.toNat) = zeros n ++ true :: rest → n ≤ s.params.outCap.toNat →
      exec .unpack s = .next ((buildTree s).failed .invalidCode))

/-- R151: bits that end inside a code, that is after the codes of `x` come one or more bits of a code but not all of
it, fail with TruncatedStream. -/
def Obligations.BitsEndingMidPathAreTruncated : Prop :=
  ∀ (s : State) (x pl : List Byte) (p : Byte) (sym : Nat) (c q : Bits), s.input = (pl ++ [p]).map some →
    p.toNat ≤ 7 → p.toNat ≤ 8 * pl.length → AllPresent s.ft x → codeOf (tableCodes s.ft) sym = some c →
    q <+: c → q ≠ c → q ≠ [] →
    (pl.flatMap bits8).take (8 * pl.length - p.toNat) = codeString (tableCodes s.ft) x ++ q →
    x.length ≤ s.params.outCap.toNat →
    exec .unpack s = .next ((buildTree s).failed .truncatedStream)

/-- R153: a decoded sequence that does not fit OUT fails with IOFailure, whatever bits follow the symbol that does not
fit (R154). -/
def Obligations.DecodedSequenceTooLongIsIOFailure : Prop :=
  ∀ (s : State) (x pl : List Byte) (p : Byte) (rest : Bits), s.input = (pl ++ [p]).map some → p.toNat ≤ 7 →
    p.toNat ≤ 8 * pl.length → AllPresent s.ft x →
    (pl.flatMap bits8).take (8 * pl.length - p.toNat) = codeString (tableCodes s.ft) x ++ rest →
    s.params.outCap.toNat < x.length →
    exec .unpack s = .next ((buildTree s).failed .ioFailure)

/-- R149: the values of the dropped padding bits are not examined: two payloads that agree on the bits left have the
same outcome. -/
def Obligations.PaddingBitsAreNotExamined : Prop :=
  ∀ (s t : State) (m : List Host.Cell) (pl pl' : List Byte) (p : Byte), s.input = (pl ++ [p]).map some →
    ({ s with inMem := m } : State).input = (pl' ++ [p]).map some →
    (pl.flatMap bits8).take (8 * pl.length - p.toNat) = (pl'.flatMap bits8).take (8 * pl'.length - p.toNat) →
    exec .unpack s = .next t → exec .unpack { s with inMem := m } = .next { t with inMem := m }

/-- R155: UNPACK inverts PACK. `s.ct` holds the codes of the tree of `s.ft`, every symbol of `x` is in that table, and
`y` is the result of a successful PACK of `x`; then UNPACK of `y` with the same table gives `x` and the same PAD. -/
def Obligations.UnpackInvertsPack : Prop :=
  ∀ (s t u : State) (x y : List Byte), s.ct = tableCodes s.ft → AllPresent s.ft x → s.input = x.map some →
    exec .pack s = .next t → errBit t.status = false → t.outMem = Memory.ofBytes y →
    u.ft = s.ft → u.input = y.map some → x.length ≤ u.params.outCap.toNat →
    exec .unpack u = .next ((buildTree u).succeeded x t.pad)

/-! ## COMPRESS -/

/-- R165: COMPRESS of `x` makes `header(FT) ++ payload ++ [pad]`, with FT the counts of `x`, NODE and ROOT its tree and CT
its codes, whenever that fits OUT; its length is `3 + 5*N + ceil(T / 8) + 1` with `T = sum over s of FT[s] * CT[s].LEN`.
EMPTY is set exactly when IN_LEN = 0 (R168). Otherwise COMPRESS fails with IOFailure, and FT, NODE, ROOT and CT hold the
new tables of the input all the same. IN and IN_LEN are not written, and no old table is read. -/
def Obligations.CompressMakesTheStream : Prop :=
  ∀ (s : State) (x : List Byte), s.input = x.map some →
    ∃ ft, (∀ sym, sym < 256 → (ftGet ft sym).toNat = x.count (BitVec.ofNat 8 sym)) ∧
      (let n := (presentSymbols ft).length
       let t := ((List.range 256).map (fun sym => (ftGet ft sym).toNat * (ctGet (tableCodes ft) sym).len.toNat)).sum
       (stream ft x).length = 3 + 5 * n + (t + 7) / 8 + 1) ∧
      ((stream ft x).length ≤ s.params.outCap.toNat →
        exec .compress s =
          .next { (buildTree { s with ft := ft }).succeeded (stream ft x) (trailer (codeString (tableCodes ft) x)) with
            ct := tableCodes ft, status := if s.inLen = 0#32 then 0x04#8 else 0x00#8 }) ∧
      (s.params.outCap.toNat < (stream ft x).length →
        exec .compress s = .next { (buildTree { s with ft := ft }).failed .ioFailure with ct := tableCodes ft })

/-- R167: COMPRESS of a written operand fails with no kind but IOFailure: no byte of the operand lacks a code in the table
COMPRESS derives. -/
def Obligations.CompressFailsOnlyOnAFullOutput : Prop :=
  ∀ (s t : State) (x : List Byte), s.input = x.map some → exec .compress s = .next t →
    AllPresent t.ft x ∧ AllCoded t.ct x ∧ (errBit t.status = true → t.errcode = FailKind.ioFailure.code)

/-- R168: with IN_LEN = 0 COMPRESS succeeds with `OUT = 01 00 00 00`, empty tables and the notice EMPTY, and with
OUT_CAP < 4 it fails with IOFailure and EMPTY stays 0. -/
def Obligations.CompressOfEmptyInput : Prop :=
  ∀ s : State, s.inLen = 0#32 →
    (4 ≤ s.params.outCap.toNat →
      exec .compress s =
        .next { s.succeeded [0x01#8, 0x00#8, 0x00#8, 0x00#8] 0#8 with
          ft := [], node := [], root := 0#16, ct := [], status := 0x04#8 }) ∧
    (s.params.outCap.toNat < 4 →
      exec .compress s = .next { s.failed .ioFailure with ft := [], node := [], root := 0#16, ct := [] })

/-- R169: COMPRESS leaves the tables as the sequence FCOUNT, BUILD, DERIVE, PACK does; when it succeeds so does that
PACK, with the same PAD, and its OUT is `header(FT)` followed by the OUT of that PACK. -/
def Obligations.CompressIsTheSequenceOfPrimitives : Prop :=
  ∀ (s a b c d t : State), exec .fcount s = .next a → exec .build a = .next b → exec .derive b = .next c →
    exec .pack c = .next d → exec .compress s = .next t →
    t.ft = d.ft ∧ t.node = d.node ∧ t.root = d.root ∧ t.ct = d.ct ∧
    (errBit t.status = false →
      errBit d.status = false ∧ t.pad = d.pad ∧
      ∃ y, d.outMem = Memory.ofBytes y ∧ t.outMem = Memory.ofBytes (header d.ft ++ y))

/-- R28, R165, R171, R178 item 3: the composite commands take no retained table as input. COMPRESS on two states with
the same operand and capacity gives the same tables, output, padding count and report; so does DECOMPRESS when the
header is valid, but for CT, which it does not write. -/
def Obligations.CompositeCommandsIgnoreOldTables : Prop :=
  ∀ (s s' t t' : State), s.params = s'.params → s.inLen = s'.inLen → s.inMem = s'.inMem →
    (exec .compress s = .next t → exec .compress s' = .next t' →
      t.ft = t'.ft ∧ t.node = t'.node ∧ t.root = t'.root ∧ t.ct = t'.ct ∧ t.outMem = t'.outMem ∧ t.outLen = t'.outLen ∧
      t.pad = t'.pad ∧ t.status = t'.status ∧ t.errcode = t'.errcode) ∧
    (exec .decompress s = .next t → exec .decompress s' = .next t' →
      t.errcode = t'.errcode ∧ t.status = t'.status ∧ t.outMem = t'.outMem ∧ t.outLen = t'.outLen ∧ t.pad = t'.pad ∧
      (t.errcode ≠ 2#8 → t.ft = t'.ft ∧ t.node = t'.node ∧ t.root = t'.root))

/-! ## DECOMPRESS -/

/-- R73, R72, R74: `parse_header` accepts exactly the byte strings that begin with the header of a table, and gives back
that table and the header's length `3 + 5*N`; on any other byte string it gives Malformed. -/
def Obligations.HeaderParsesExactlyWhenSerialised : Prop :=
  ∀ x : List Byte,
    (∀ (ft : List (Nat × Count)) (h : Nat),
      parseHeader (x.map some) = .ok (ft, h) ↔
        Table.wf 256 0#32 ft ∧ h = 3 + 5 * (presentSymbols ft).length ∧ ∃ y, x = header ft ++ y) ∧
    ((¬ ∃ ft y, Table.wf 256 0#32 ft ∧ x = header ft ++ y) → parseHeader (x.map some) = .raise .malformedHeader)

/-- R73, R173, R192: each of the six tests makes DECOMPRESS fail with MalformedHeader, and FT, NODE, ROOT and CT keep
the values they had. -/
def Obligations.MalformedHeaderKeepsTheTables : Prop :=
  ∀ (s : State) (x : List Byte), s.input = x.map some →
    let n := be16 (x.getD 1 0#8) (x.getD 2 0#8)
    (x.length < 3 ∨ x.getD 0 0#8 ≠ 0x01#8 ∨ 256 < n ∨ x.length < 3 + 5 * n ∨
      (∃ j, j < n ∧
        be32 (x.getD (4 + 5 * j) 0#8) (x.getD (5 + 5 * j) 0#8) (x.getD (6 + 5 * j) 0#8) (x.getD (7 + 5 * j) 0#8) =
          0#32) ∨
      (∃ j, j + 1 < n ∧ x.getD (3 + 5 * (j + 1)) 0#8 ≤ x.getD (3 + 5 * j) 0#8)) →
    exec .decompress s = .next (s.failed .malformedHeader)

/-- R171, R172: DECOMPRESS of `header(ft) ++ pl ++ [p]` loads the table, rebuilds the tree and decodes the rest as
UNPACK does; CT, IN and IN_LEN are not written. -/
def Obligations.DecompressDecodesTheStream : Prop :=
  ∀ (s : State) (ft : List (Nat × Count)) (x pl : List Byte) (p : Byte), Table.wf 256 0#32 ft →
    s.input = (header ft ++ (pl ++ [p])).map some → p.toNat ≤ 7 → p.toNat ≤ 8 * pl.length → AllPresent ft x →
    (pl.flatMap bits8).take (8 * pl.length - p.toNat) = codeString (tableCodes ft) x →
    x.length ≤ s.params.outCap.toNat →
    exec .decompress s = .next ((buildTree { s with ft := ft }).succeeded x p)

/-- R175: with a valid header DECOMPRESS has the outcome of UNPACK on the rest of the stream with the header's table in
FT. -/
def Obligations.DecompressIsUnpackOfTheRest : Prop :=
  ∀ (s u t : State) (ft : List (Nat × Count)) (y : List (Option Byte)), Table.wf 256 0#32 ft →
    s.input = (header ft).map some ++ y → u.ft = ft → u.input = y → u.params = s.params →
    exec .decompress s = .next t →
    ∃ v, exec .unpack u = .next v ∧ t.ft = v.ft ∧ t.node = v.node ∧ t.root = v.root ∧ t.outMem = v.outMem ∧
      t.outLen = v.outLen ∧ t.pad = v.pad ∧ t.status = v.status ∧ t.errcode = v.errcode

/-- R178 item 1: the round trip. DECOMPRESS of the stream a successful COMPRESS of `x` made gives `x`, for every `x`
that fits, with the same PAD and the table and tree of `x`. -/
def Obligations.DecompressInvertsCompress : Prop :=
  ∀ (s t u : State) (x y : List Byte), s.input = x.map some → exec .compress s = .next t →
    errBit t.status = false → t.outMem = Memory.ofBytes y → u.input = y.map some →
    x.length ≤ u.params.outCap.toNat →
    exec .decompress u = .next { u.succeeded x t.pad with ft := t.ft, node := t.node, root := t.root }

/-! ## Every command -/

/-- R45 (what each command writes): IN, the capacities and the host's side are written by no command, IN_LEN by CLEAR
alone, and each register and table only by the commands the table names. -/
def Obligations.CommandsWriteOnlyTheirState : Prop :=
  ∀ (i : Instr) (s t : State), exec i s = .next t →
    t.params = s.params ∧ t.inMem = s.inMem ∧ t.script = s.script ∧ t.reads = s.reads ∧
    (i ≠ .clear → t.inLen = s.inLen) ∧
    (i = .fcount ∨ i = .build ∨ i = .derive → t.outMem = s.outMem ∧ t.outLen = s.outLen ∧ t.pad = s.pad) ∧
    (i = .clear → t.outMem = s.outMem) ∧
    (i = .build ∨ i = .derive ∨ i = .pack ∨ i = .unpack → t.ft = s.ft) ∧
    (i = .fcount ∨ i = .derive ∨ i = .pack → t.node = s.node ∧ t.root = s.root) ∧
    (i = .fcount ∨ i = .build ∨ i = .pack ∨ i = .unpack ∨ i = .decompress → t.ct = s.ct)

/-- R201: which command fails with which kind, and what a failure leaves: STATUS 0x02, OUT_LEN and PAD 0, no byte of OUT
specified, IN and IN_LEN unchanged; the tables as R201 lists them. FCOUNT, BUILD, DERIVE and CLEAR never fail. The last
row, a non-opcode, changes STATUS and ERRCODE only. -/
def Obligations.FailureLeavesTheStatedState : Prop :=
  (∀ (v : Byte) (s : State), (∀ i, decode v ≠ .ok i) →
    startCommand v s = .next { s with status := 0x02#8, errcode := 7#8 }) ∧
  ∀ (i : Instr) (s t : State), exec i s = .next t → errBit t.status = true →
    t.inMem = s.inMem ∧ t.inLen = s.inLen ∧ t.status = 0x02#8 ∧ t.outLen = 0#32 ∧ t.pad = 0#8 ∧ t.outMem = [] ∧
    (i = .pack ∨ i = .unpack ∨ i = .compress ∨ i = .decompress) ∧
    (i = .pack → (t.errcode = 5#8 ∨ t.errcode = 1#8) ∧
      t.ft = s.ft ∧ t.node = s.node ∧ t.root = s.root ∧ t.ct = s.ct) ∧
    (i = .unpack → (t.errcode = 3#8 ∨ t.errcode = 4#8 ∨ t.errcode = 6#8 ∨ t.errcode = 1#8) ∧
      t.ft = s.ft ∧ t.ct = s.ct ∧ t.node = (buildArena s.ft).1 ∧ t.root = rootOf (buildArena s.ft).2) ∧
    (i = .compress → t.errcode = 1#8 ∧
      ∃ x : List Byte, s.input = x.map some ∧ (∀ sym, sym < 256 → (t.ftAt sym).toNat = x.count (BitVec.ofNat 8 sym)) ∧
        t.node = (buildArena t.ft).1 ∧ t.root = rootOf (buildArena t.ft).2 ∧ t.ct = tableCodes t.ft) ∧
    (i = .decompress → t.ct = s.ct ∧
      ((t.errcode = 2#8 ∧ t.ft = s.ft ∧ t.node = s.node ∧ t.root = s.root) ∨
        ((t.errcode = 3#8 ∨ t.errcode = 4#8 ∨ t.errcode = 6#8 ∨ t.errcode = 1#8) ∧
          (∃ h, parseHeader s.input = .ok (t.ft, h)) ∧
          t.node = (buildArena t.ft).1 ∧ t.root = rootOf (buildArena t.ft).2)))

/-- R193: STATUS.EMPTY after a command is 1 exactly when an FCOUNT or COMPRESS with IN_LEN = 0 succeeded. -/
def Obligations.EmptyNoticeOnlyFromCountAndCompress : Prop :=
  ∀ (i : Instr) (s t : State), exec i s = .next t →
    (emptyBit t.status = true ↔ (i = .fcount ∨ i = .compress) ∧ s.inLen = 0#32 ∧ errBit t.status = false)

/-- R236, R212, R208: every command ends, on every state whose operand is written, with BUSY = 0; no command faults, and
one is refused only when some operand byte was never written (U1). -/
def Obligations.EveryCommandEndsIdle : Prop :=
  ∀ (i : Instr) (s : State),
    (∀ x : List Byte, s.input = x.map some → ∃ t, exec i s = .next t) ∧
    (∀ t, exec i s = .next t → t.busy = false) ∧
    (∀ r, exec i s ≠ .fault r) ∧
    (∀ r, exec i s = .refused r → r = .unwrittenInput ∧ none ∈ s.input ∧
      (i = .fcount ∨ i = .pack ∨ i = .unpack ∨ i = .compress ∨ i = .decompress))

/-! ## Invariants -/

/-- R224, R32: the reset state meets the invariant. -/
def Obligations.ResetMeetsTheInvariant : Prop := State.reset.Inv

/-- Every step keeps the memories and tables in canonical form (the form is the model's own). -/
def Obligations.StepKeepsCanonicalMemories : Prop :=
  ∀ s t : State, s.Canonical → step s = .next t → t.Canonical

/-- R12 to R16, R18, R24: every step keeps the registers legal: BUSY 0, reserved bits 0, ERRCODE as ERR says, ERR and
EMPTY not together, the lengths within the capacities, every byte below OUT_LEN specified, PAD at most 7. -/
def Obligations.StepKeepsRegistersLegal : Prop :=
  ∀ s t : State, s.Legal → step s = .next t → t.Legal

/-- R32: every step, a command or any other host move, keeps the arena invariant. -/
def Obligations.StepKeepsTheArenaInvariant : Prop :=
  ∀ s t : State, ArenaInv s.node s.root → step s = .next t → ArenaInv t.node t.root

/-- R21, R124 item 2: every step keeps the code table legal and prefix-free. -/
def Obligations.StepKeepsTheCodesPrefixFree : Prop :=
  ∀ s t : State, ArenaInv s.node s.root → CodesInv s.ct → step s = .next t → CodesInv t.ct
end

