-- ==== Sys2Proof/Laws/Bits.lean ====
section
/-! SUPPORT. The laws of the bit strings and of the byte orders (rules R7, R41, R21): a byte is determined by its bit
string and the other way round, a count by its four bytes, a code by its table entry. -/

namespace Sys2Proof.Machine

theorem val_foldl (b : Bits) (n : Nat) : b.foldl (fun n x => 2 * n + x.toNat) n = n * 2 ^ b.length + val b := by
  induction b generalizing n with
  | nil => simp [val]
  | cons x b ih =>
    simp only [List.foldl_cons, List.length_cons, val]
    rw [ih, ih (2 * 0 + x.toNat)]
    ring

@[simp] theorem val_nil : val [] = 0 := rfl

theorem val_cons (x : Bool) (b : Bits) : val (x :: b) = x.toNat * 2 ^ b.length + val b := by
  simp only [val, List.foldl_cons]
  rw [val_foldl]
  simp [val]

theorem val_append (a b : Bits) : val (a ++ b) = val a * 2 ^ b.length + val b := by
  simp only [val, List.foldl_append]
  exact val_foldl b _

/-- `val(b)` has `|b|` binary digits. -/
theorem val_lt (b : Bits) : val b < 2 ^ b.length := by
  induction b with
  | nil => simp
  | cons x b ih =>
    rw [val_cons, List.length_cons, pow_succ]
    cases x <;> simp <;> omega

/-- Bit `|b| - 1 - i` of `val(b)` is the bit at position `i` of `b` (R7, R21). -/
theorem testBit_val (b : Bits) {i : Nat} (h : i < b.length) : (val b).testBit (b.length - 1 - i) = b[i] := by
  induction b generalizing i with
  | nil => simp at h
  | cons x b ih =>
    rw [val_cons]
    cases i with
    | zero =>
      have hv := val_lt b
      simp only [List.length_cons, Nat.add_sub_cancel, Nat.sub_zero, List.getElem_cons_zero]
      cases x
      · simp [Nat.testBit_eq_false_of_lt hv]
      · simp only [Bool.toNat_true, one_mul]
        rw [Nat.testBit_two_pow_add_eq, Nat.testBit_eq_false_of_lt hv]; rfl
    | succ i =>
      have hi : i < b.length := by simpa using h
      have e : (x :: b).length - 1 - (i + 1) = b.length - 1 - i := by simp; omega
      rw [e, List.getElem_cons_succ, ← ih hi]
      cases x
      · simp
      · simp only [Bool.toNat_true, one_mul]
        rw [Nat.testBit_two_pow_add_gt (by omega)]

@[simp] theorem bits8_length (v : Byte) : (bits8 v).length = 8 := rfl

theorem bits8_getElem (v : Byte) {i : Nat} (h : i < (bits8 v).length) : (bits8 v)[i] = v.getLsbD (7 - i) := by
  have : i < 8 := h
  interval_cases i <;> rfl

/-- A byte is the value of its bit string (R7). -/
theorem byteOf_bits8 (v : Byte) : byteOf (bits8 v) = v := by
  apply BitVec.eq_of_getLsbD_eq
  intro i hi
  have h7 : 7 - i < (bits8 v).length := by simp; omega
  have := testBit_val (bits8 v) h7
  rw [bits8_getElem, bits8_length, show 8 - 1 - (7 - i) = i by omega] at this
  rw [byteOf, BitVec.getLsbD_ofNat, this]
  simp [hi]

/-- An 8-bit string is the bit string of its byte (R7). -/
theorem bits8_byteOf {b : Bits} (h : b.length = 8) : bits8 (byteOf b) = b := by
  apply List.ext_getElem
  · simp [h]
  · intro i h1 h2
    have hi : i < 8 := h1
    rw [bits8_getElem]
    have := testBit_val b h2
    rw [h, show 8 - 1 - i = 7 - i by omega] at this
    rw [byteOf, BitVec.getLsbD_ofNat, this]
    simp; omega

@[simp] theorem zeros_length (n : Nat) : (zeros n).length = n := by simp [zeros]

@[simp] theorem be32Bytes_length (c : Count) : (be32Bytes c).length = 4 := rfl

/-- A count is determined by its four big-endian bytes (R7, R41 item 3). -/
theorem be32_be32Bytes (c : Count) :
    be32 (c.extractLsb' 24 8) (c.extractLsb' 16 8) (c.extractLsb' 8 8) (c.extractLsb' 0 8) = c := by
  apply BitVec.eq_of_toNat_eq
  have hc := c.isLt
  simp only [be32, BitVec.toNat_ofNat, BitVec.extractLsb'_toNat, Nat.shiftRight_eq_div_pow]
  omega

@[simp] theorem codeBits_length (e : CodeEntry) : (codeBits e).length = e.len.toNat := by simp [codeBits]

/-- A code of at most CODE_MAX bits is held whole by its table entry (R21). -/
theorem codeBits_codeEntry {c : Bits} (h : c.length ≤ Config.codeMax) : codeBits (codeEntry c) = c := by
  have hm : c.length ≤ 255 := h
  have hl : (codeEntry c).len.toNat = c.length := by simp [codeEntry]; omega
  apply List.ext_getElem
  · simp [hl]
  · intro i h1 h2
    have := testBit_val c h2
    simp [codeBits, codeEntry, BitVec.getLsbD_ofNat, Nat.mod_eq_of_lt (show c.length < 256 by omega),
      show c.length - 1 - i < 255 by omega, this]

theorem codeEntry_len {c : Bits} (h : c.length ≤ Config.codeMax) : (codeEntry c).len.toNat = c.length := by
  have hm : c.length ≤ 255 := h
  simp [codeEntry]; omega

@[simp] theorem expandBytes_nil : expandBytes [] = [] := rfl

theorem expandBytes_some (v : List Byte) : expandBytes (v.map some) = (v.flatMap bits8).map some := by
  simp [expandBytes, List.flatMap_map, List.map_flatMap, expandByte]

/-- The code string grows byte by byte, in order (R71). -/
theorem codeString_append (ct : List (Nat × CodeEntry)) (x y : List Byte) :
    codeString ct (x ++ y) = codeString ct x ++ codeString ct y := by
  simp [codeString]

@[simp] theorem codeString_nil (ct : List (Nat × CodeEntry)) : codeString ct [] = [] := rfl

theorem codeString_cons (ct : List (Nat × CodeEntry)) (v : Byte) (x : List Byte) :
    codeString ct (v :: x) = codeBits (ctGet ct v.toNat) ++ codeString ct x := by
  simp [codeString]

theorem padOf_le (t : Nat) : padOf t ≤ 7 := by unfold padOf; omega

theorem padOf_dvd (t : Nat) : 8 ∣ t + padOf t := by unfold padOf; omega

end Sys2Proof.Machine
end

