-- ==== Sys2Proof/Laws/Flags.lean ====
section
/-! SUPPORT. The fields of a STATUS word and of a ROOT word read back as written, and the reserved bits are 0. -/

namespace Sys2Proof.Machine

@[simp] theorem busyBit_statusWord (b e m : Bool) : busyBit (statusWord b e m) = b := by
  cases b <;> cases e <;> cases m <;> rfl

@[simp] theorem errBit_statusWord (b e m : Bool) : errBit (statusWord b e m) = e := by
  cases b <;> cases e <;> cases m <;> rfl

@[simp] theorem emptyBit_statusWord (b e m : Bool) : emptyBit (statusWord b e m) = m := by
  cases b <;> cases e <;> cases m <;> rfl

@[simp] theorem statusWord_reserved (b e m : Bool) : (statusWord b e m).extractLsb' 3 5 = 0#5 := by
  cases b <;> cases e <;> cases m <;> rfl

@[simp] theorem setBusy_statusWord (c b e m : Bool) : setBusy c (statusWord b e m) = statusWord c e m := by
  simp [setBusy]

@[simp] theorem setErr_statusWord (c b e m : Bool) : setErr c (statusWord b e m) = statusWord b c m := by
  simp [setErr]

@[simp] theorem setEmpty_statusWord (c b e m : Bool) : setEmpty c (statusWord b e m) = statusWord b e c := by
  simp [setEmpty]

/-- The STATUS value of a success: 0x00 (R12). -/
theorem statusWord_success : statusWord false false false = 0x00#8 := rfl
/-- The STATUS value of a failure: 0x02 (R12, R201). -/
theorem statusWord_failure : statusWord false true false = 0x02#8 := rfl
/-- The STATUS value of a success with the EmptyInput notice: 0x04 (R12, R193). -/
theorem statusWord_notice : statusWord false false true = 0x04#8 := rfl

/-- The bits of a ROOT word (R18): IDX below bit 9, PRESENT at bit 9, zero above. -/
theorem rootWord_getLsbD (p : Bool) (i : NodeIdx) (j : Nat) :
    (rootWord p i).getLsbD j = if j < 9 then i.getLsbD j else decide (j = 9) && p := by
  have h : (rootWord p i).getLsbD j =
      if j < 9 then i.getLsbD j else (0#6 ++ BitVec.ofBool p : BitVec (6 + 1)).getLsbD (j - 9) :=
    BitVec.getLsbD_append
  rw [h, BitVec.getLsbD_append]
  split
  · rfl
  · by_cases h9 : j = 9
    · subst h9; simp
    · simp [h9, show ¬ (j - 9 < 1) by omega]

@[simp] theorem rootIdx_rootWord (p : Bool) (i : NodeIdx) : rootIdx (rootWord p i) = i := by
  ext j hj
  simp [rootIdx, BitVec.getElem_extractLsb', rootWord_getLsbD, hj]

@[simp] theorem rootPresent_rootWord (p : Bool) (i : NodeIdx) : rootPresent (rootWord p i) = p := by
  rw [rootPresent, rootWord_getLsbD]; simp

@[simp] theorem rootWord_reserved (p : Bool) (i : NodeIdx) : (rootWord p i).extractLsb' 10 6 = 0#6 := by
  ext j hj
  simp [BitVec.getElem_extractLsb', rootWord_getLsbD, show ¬ (10 + j < 9) by omega]
  omega

/-- Every failure kind has its own code, 1 to 7 (R190). -/
theorem FailKind.code_bounds (k : FailKind) : 1 ≤ k.code.toNat ∧ k.code.toNat ≤ 7 := by
  cases k <;> decide

theorem FailKind.code_injective (j k : FailKind) (h : j.code = k.code) : j = k := by
  cases j <;> cases k <;> first | rfl | exact absurd h (by decide)

end Sys2Proof.Machine
end

