-- ==== Sys2Proof/Laws/State.lean ====
section
/-! SUPPORT. One lemma per field per update of the state, true by rfl, so that no later proof unfolds an update. -/

namespace Sys2Proof.Machine

@[simp] theorem beginCommand_params (s : State) : (beginCommand s).params = s.params := rfl
@[simp] theorem beginCommand_status (s : State) : (beginCommand s).status = statusWord true false false := rfl
@[simp] theorem beginCommand_errcode (s : State) : (beginCommand s).errcode = 0#8 := rfl
@[simp] theorem beginCommand_inLen (s : State) : (beginCommand s).inLen = s.inLen := rfl
@[simp] theorem beginCommand_outLen (s : State) : (beginCommand s).outLen = s.outLen := rfl
@[simp] theorem beginCommand_pad (s : State) : (beginCommand s).pad = s.pad := rfl
@[simp] theorem beginCommand_root (s : State) : (beginCommand s).root = s.root := rfl
@[simp] theorem beginCommand_inMem (s : State) : (beginCommand s).inMem = s.inMem := rfl
@[simp] theorem beginCommand_outMem (s : State) : (beginCommand s).outMem = s.outMem := rfl
@[simp] theorem beginCommand_ft (s : State) : (beginCommand s).ft = s.ft := rfl
@[simp] theorem beginCommand_node (s : State) : (beginCommand s).node = s.node := rfl
@[simp] theorem beginCommand_ct (s : State) : (beginCommand s).ct = s.ct := rfl
@[simp] theorem beginCommand_script (s : State) : (beginCommand s).script = s.script := rfl
@[simp] theorem beginCommand_reads (s : State) : (beginCommand s).reads = s.reads := rfl

@[simp] theorem endCommand_params (s : State) : (endCommand s).params = s.params := rfl
@[simp] theorem endCommand_status (s : State) : (endCommand s).status = setBusy false s.status := rfl
@[simp] theorem endCommand_errcode (s : State) : (endCommand s).errcode = s.errcode := rfl
@[simp] theorem endCommand_inLen (s : State) : (endCommand s).inLen = s.inLen := rfl
@[simp] theorem endCommand_outLen (s : State) : (endCommand s).outLen = s.outLen := rfl
@[simp] theorem endCommand_pad (s : State) : (endCommand s).pad = s.pad := rfl
@[simp] theorem endCommand_root (s : State) : (endCommand s).root = s.root := rfl
@[simp] theorem endCommand_inMem (s : State) : (endCommand s).inMem = s.inMem := rfl
@[simp] theorem endCommand_outMem (s : State) : (endCommand s).outMem = s.outMem := rfl
@[simp] theorem endCommand_ft (s : State) : (endCommand s).ft = s.ft := rfl
@[simp] theorem endCommand_node (s : State) : (endCommand s).node = s.node := rfl
@[simp] theorem endCommand_ct (s : State) : (endCommand s).ct = s.ct := rfl
@[simp] theorem endCommand_script (s : State) : (endCommand s).script = s.script := rfl
@[simp] theorem endCommand_reads (s : State) : (endCommand s).reads = s.reads := rfl

@[simp] theorem setResult_params (out : List Byte) (p : Byte) (s : State) : (setResult out p s).params = s.params := rfl
@[simp] theorem setResult_status (out : List Byte) (p : Byte) (s : State) : (setResult out p s).status = s.status := rfl
@[simp] theorem setResult_errcode (out : List Byte) (p : Byte) (s : State) : (setResult out p s).errcode = s.errcode := rfl
@[simp] theorem setResult_inLen (out : List Byte) (p : Byte) (s : State) : (setResult out p s).inLen = s.inLen := rfl
@[simp] theorem setResult_outLen (out : List Byte) (p : Byte) (s : State) : (setResult out p s).outLen = BitVec.ofNat 32 out.length := rfl
@[simp] theorem setResult_pad (out : List Byte) (p : Byte) (s : State) : (setResult out p s).pad = p := rfl
@[simp] theorem setResult_root (out : List Byte) (p : Byte) (s : State) : (setResult out p s).root = s.root := rfl
@[simp] theorem setResult_inMem (out : List Byte) (p : Byte) (s : State) : (setResult out p s).inMem = s.inMem := rfl
@[simp] theorem setResult_outMem (out : List Byte) (p : Byte) (s : State) : (setResult out p s).outMem = Memory.ofBytes out := rfl
@[simp] theorem setResult_ft (out : List Byte) (p : Byte) (s : State) : (setResult out p s).ft = s.ft := rfl
@[simp] theorem setResult_node (out : List Byte) (p : Byte) (s : State) : (setResult out p s).node = s.node := rfl
@[simp] theorem setResult_ct (out : List Byte) (p : Byte) (s : State) : (setResult out p s).ct = s.ct := rfl
@[simp] theorem setResult_script (out : List Byte) (p : Byte) (s : State) : (setResult out p s).script = s.script := rfl
@[simp] theorem setResult_reads (out : List Byte) (p : Byte) (s : State) : (setResult out p s).reads = s.reads := rfl

@[simp] theorem buildTree_params (s : State) : (buildTree s).params = s.params := rfl
@[simp] theorem buildTree_status (s : State) : (buildTree s).status = s.status := rfl
@[simp] theorem buildTree_errcode (s : State) : (buildTree s).errcode = s.errcode := rfl
@[simp] theorem buildTree_inLen (s : State) : (buildTree s).inLen = s.inLen := rfl
@[simp] theorem buildTree_outLen (s : State) : (buildTree s).outLen = s.outLen := rfl
@[simp] theorem buildTree_pad (s : State) : (buildTree s).pad = s.pad := rfl
@[simp] theorem buildTree_root (s : State) : (buildTree s).root = rootOf (buildArena s.ft).2 := rfl
@[simp] theorem buildTree_inMem (s : State) : (buildTree s).inMem = s.inMem := rfl
@[simp] theorem buildTree_outMem (s : State) : (buildTree s).outMem = s.outMem := rfl
@[simp] theorem buildTree_ft (s : State) : (buildTree s).ft = s.ft := rfl
@[simp] theorem buildTree_node (s : State) : (buildTree s).node = (buildArena s.ft).1 := rfl
@[simp] theorem buildTree_ct (s : State) : (buildTree s).ct = s.ct := rfl
@[simp] theorem buildTree_script (s : State) : (buildTree s).script = s.script := rfl
@[simp] theorem buildTree_reads (s : State) : (buildTree s).reads = s.reads := rfl

@[simp] theorem deriveCodes_params (s : State) : (deriveCodes s).params = s.params := rfl
@[simp] theorem deriveCodes_status (s : State) : (deriveCodes s).status = s.status := rfl
@[simp] theorem deriveCodes_errcode (s : State) : (deriveCodes s).errcode = s.errcode := rfl
@[simp] theorem deriveCodes_inLen (s : State) : (deriveCodes s).inLen = s.inLen := rfl
@[simp] theorem deriveCodes_outLen (s : State) : (deriveCodes s).outLen = s.outLen := rfl
@[simp] theorem deriveCodes_pad (s : State) : (deriveCodes s).pad = s.pad := rfl
@[simp] theorem deriveCodes_root (s : State) : (deriveCodes s).root = s.root := rfl
@[simp] theorem deriveCodes_inMem (s : State) : (deriveCodes s).inMem = s.inMem := rfl
@[simp] theorem deriveCodes_outMem (s : State) : (deriveCodes s).outMem = s.outMem := rfl
@[simp] theorem deriveCodes_ft (s : State) : (deriveCodes s).ft = s.ft := rfl
@[simp] theorem deriveCodes_node (s : State) : (deriveCodes s).node = s.node := rfl
@[simp] theorem deriveCodes_ct (s : State) : (deriveCodes s).ct = codesOf s.node s.root := rfl
@[simp] theorem deriveCodes_script (s : State) : (deriveCodes s).script = s.script := rfl
@[simp] theorem deriveCodes_reads (s : State) : (deriveCodes s).reads = s.reads := rfl

@[simp] theorem buildTables_params (s : State) : (buildTables s).params = s.params := rfl
@[simp] theorem buildTables_status (s : State) : (buildTables s).status = s.status := rfl
@[simp] theorem buildTables_errcode (s : State) : (buildTables s).errcode = s.errcode := rfl
@[simp] theorem buildTables_inLen (s : State) : (buildTables s).inLen = s.inLen := rfl
@[simp] theorem buildTables_outLen (s : State) : (buildTables s).outLen = s.outLen := rfl
@[simp] theorem buildTables_pad (s : State) : (buildTables s).pad = s.pad := rfl
@[simp] theorem buildTables_root (s : State) : (buildTables s).root = rootOf (buildArena s.ft).2 := rfl
@[simp] theorem buildTables_inMem (s : State) : (buildTables s).inMem = s.inMem := rfl
@[simp] theorem buildTables_outMem (s : State) : (buildTables s).outMem = s.outMem := rfl
@[simp] theorem buildTables_ft (s : State) : (buildTables s).ft = s.ft := rfl
@[simp] theorem buildTables_node (s : State) : (buildTables s).node = (buildArena s.ft).1 := rfl
@[simp] theorem buildTables_ct (s : State) : (buildTables s).ct = codesOf (buildArena s.ft).1 (rootOf (buildArena s.ft).2) := rfl
@[simp] theorem buildTables_script (s : State) : (buildTables s).script = s.script := rfl
@[simp] theorem buildTables_reads (s : State) : (buildTables s).reads = s.reads := rfl

@[simp] theorem clearBody_params (s : State) : (clearBody s).params = s.params := rfl
@[simp] theorem clearBody_status (s : State) : (clearBody s).status = s.status := rfl
@[simp] theorem clearBody_errcode (s : State) : (clearBody s).errcode = s.errcode := rfl
@[simp] theorem clearBody_inLen (s : State) : (clearBody s).inLen = 0#32 := rfl
@[simp] theorem clearBody_outLen (s : State) : (clearBody s).outLen = 0#32 := rfl
@[simp] theorem clearBody_pad (s : State) : (clearBody s).pad = 0#8 := rfl
@[simp] theorem clearBody_root (s : State) : (clearBody s).root = 0#16 := rfl
@[simp] theorem clearBody_inMem (s : State) : (clearBody s).inMem = s.inMem := rfl
@[simp] theorem clearBody_outMem (s : State) : (clearBody s).outMem = s.outMem := rfl
@[simp] theorem clearBody_ft (s : State) : (clearBody s).ft = [] := rfl
@[simp] theorem clearBody_node (s : State) : (clearBody s).node = [] := rfl
@[simp] theorem clearBody_ct (s : State) : (clearBody s).ct = [] := rfl
@[simp] theorem clearBody_script (s : State) : (clearBody s).script = s.script := rfl
@[simp] theorem clearBody_reads (s : State) : (clearBody s).reads = s.reads := rfl

@[simp] theorem resetBlock_params (s : State) : (resetBlock s).params = s.params := rfl
@[simp] theorem resetBlock_status (s : State) : (resetBlock s).status = 0#8 := rfl
@[simp] theorem resetBlock_errcode (s : State) : (resetBlock s).errcode = 0#8 := rfl
@[simp] theorem resetBlock_inLen (s : State) : (resetBlock s).inLen = 0#32 := rfl
@[simp] theorem resetBlock_outLen (s : State) : (resetBlock s).outLen = 0#32 := rfl
@[simp] theorem resetBlock_pad (s : State) : (resetBlock s).pad = 0#8 := rfl
@[simp] theorem resetBlock_root (s : State) : (resetBlock s).root = 0#16 := rfl
@[simp] theorem resetBlock_inMem (s : State) : (resetBlock s).inMem = [] := rfl
@[simp] theorem resetBlock_outMem (s : State) : (resetBlock s).outMem = [] := rfl
@[simp] theorem resetBlock_ft (s : State) : (resetBlock s).ft = [] := rfl
@[simp] theorem resetBlock_node (s : State) : (resetBlock s).node = [] := rfl
@[simp] theorem resetBlock_ct (s : State) : (resetBlock s).ct = [] := rfl
@[simp] theorem resetBlock_script (s : State) : (resetBlock s).script = s.script := rfl
@[simp] theorem resetBlock_reads (s : State) : (resetBlock s).reads = s.reads := rfl

@[simp] theorem giveHost_params (v : Nat) (s : State) : (giveHost v s).params = s.params := rfl
@[simp] theorem giveHost_status (v : Nat) (s : State) : (giveHost v s).status = s.status := rfl
@[simp] theorem giveHost_errcode (v : Nat) (s : State) : (giveHost v s).errcode = s.errcode := rfl
@[simp] theorem giveHost_inLen (v : Nat) (s : State) : (giveHost v s).inLen = s.inLen := rfl
@[simp] theorem giveHost_outLen (v : Nat) (s : State) : (giveHost v s).outLen = s.outLen := rfl
@[simp] theorem giveHost_pad (v : Nat) (s : State) : (giveHost v s).pad = s.pad := rfl
@[simp] theorem giveHost_root (v : Nat) (s : State) : (giveHost v s).root = s.root := rfl
@[simp] theorem giveHost_inMem (v : Nat) (s : State) : (giveHost v s).inMem = s.inMem := rfl
@[simp] theorem giveHost_outMem (v : Nat) (s : State) : (giveHost v s).outMem = s.outMem := rfl
@[simp] theorem giveHost_ft (v : Nat) (s : State) : (giveHost v s).ft = s.ft := rfl
@[simp] theorem giveHost_node (v : Nat) (s : State) : (giveHost v s).node = s.node := rfl
@[simp] theorem giveHost_ct (v : Nat) (s : State) : (giveHost v s).ct = s.ct := rfl
@[simp] theorem giveHost_script (v : Nat) (s : State) : (giveHost v s).script = s.script := rfl
@[simp] theorem giveHost_reads (v : Nat) (s : State) : (giveHost v s).reads = s.reads ++ [v] := rfl

@[simp] theorem writeIn_params (i : Nat) (v : Byte) (s : State) : (writeIn i v s).params = s.params := rfl
@[simp] theorem writeIn_status (i : Nat) (v : Byte) (s : State) : (writeIn i v s).status = s.status := rfl
@[simp] theorem writeIn_errcode (i : Nat) (v : Byte) (s : State) : (writeIn i v s).errcode = s.errcode := rfl
@[simp] theorem writeIn_inLen (i : Nat) (v : Byte) (s : State) : (writeIn i v s).inLen = s.inLen := rfl
@[simp] theorem writeIn_outLen (i : Nat) (v : Byte) (s : State) : (writeIn i v s).outLen = s.outLen := rfl
@[simp] theorem writeIn_pad (i : Nat) (v : Byte) (s : State) : (writeIn i v s).pad = s.pad := rfl
@[simp] theorem writeIn_root (i : Nat) (v : Byte) (s : State) : (writeIn i v s).root = s.root := rfl
@[simp] theorem writeIn_inMem (i : Nat) (v : Byte) (s : State) : (writeIn i v s).inMem = Sparse.insert s.inMem i v := rfl
@[simp] theorem writeIn_outMem (i : Nat) (v : Byte) (s : State) : (writeIn i v s).outMem = s.outMem := rfl
@[simp] theorem writeIn_ft (i : Nat) (v : Byte) (s : State) : (writeIn i v s).ft = s.ft := rfl
@[simp] theorem writeIn_node (i : Nat) (v : Byte) (s : State) : (writeIn i v s).node = s.node := rfl
@[simp] theorem writeIn_ct (i : Nat) (v : Byte) (s : State) : (writeIn i v s).ct = s.ct := rfl
@[simp] theorem writeIn_script (i : Nat) (v : Byte) (s : State) : (writeIn i v s).script = s.script := rfl
@[simp] theorem writeIn_reads (i : Nat) (v : Byte) (s : State) : (writeIn i v s).reads = s.reads := rfl

@[simp] theorem writeFt_params (sym : Nat) (v : Count) (s : State) : (writeFt sym v s).params = s.params := rfl
@[simp] theorem writeFt_status (sym : Nat) (v : Count) (s : State) : (writeFt sym v s).status = s.status := rfl
@[simp] theorem writeFt_errcode (sym : Nat) (v : Count) (s : State) : (writeFt sym v s).errcode = s.errcode := rfl
@[simp] theorem writeFt_inLen (sym : Nat) (v : Count) (s : State) : (writeFt sym v s).inLen = s.inLen := rfl
@[simp] theorem writeFt_outLen (sym : Nat) (v : Count) (s : State) : (writeFt sym v s).outLen = s.outLen := rfl
@[simp] theorem writeFt_pad (sym : Nat) (v : Count) (s : State) : (writeFt sym v s).pad = s.pad := rfl
@[simp] theorem writeFt_root (sym : Nat) (v : Count) (s : State) : (writeFt sym v s).root = s.root := rfl
@[simp] theorem writeFt_inMem (sym : Nat) (v : Count) (s : State) : (writeFt sym v s).inMem = s.inMem := rfl
@[simp] theorem writeFt_outMem (sym : Nat) (v : Count) (s : State) : (writeFt sym v s).outMem = s.outMem := rfl
@[simp] theorem writeFt_ft (sym : Nat) (v : Count) (s : State) : (writeFt sym v s).ft = ftPut s.ft sym v := rfl
@[simp] theorem writeFt_node (sym : Nat) (v : Count) (s : State) : (writeFt sym v s).node = s.node := rfl
@[simp] theorem writeFt_ct (sym : Nat) (v : Count) (s : State) : (writeFt sym v s).ct = s.ct := rfl
@[simp] theorem writeFt_script (sym : Nat) (v : Count) (s : State) : (writeFt sym v s).script = s.script := rfl
@[simp] theorem writeFt_reads (sym : Nat) (v : Count) (s : State) : (writeFt sym v s).reads = s.reads := rfl

@[simp] theorem withCommand_params (s : State) (nbits w : Nat) : (withCommand s nbits w).params = s.params := rfl
@[simp] theorem withCommand_status (s : State) (nbits w : Nat) : (withCommand s nbits w).status = setBusy false s.status := rfl
@[simp] theorem withCommand_errcode (s : State) (nbits w : Nat) : (withCommand s nbits w).errcode = s.errcode := rfl
@[simp] theorem withCommand_inLen (s : State) (nbits w : Nat) : (withCommand s nbits w).inLen = s.inLen := rfl
@[simp] theorem withCommand_outLen (s : State) (nbits w : Nat) : (withCommand s nbits w).outLen = s.outLen := rfl
@[simp] theorem withCommand_pad (s : State) (nbits w : Nat) : (withCommand s nbits w).pad = s.pad := rfl
@[simp] theorem withCommand_root (s : State) (nbits w : Nat) : (withCommand s nbits w).root = s.root := rfl
@[simp] theorem withCommand_inMem (s : State) (nbits w : Nat) : (withCommand s nbits w).inMem = s.inMem := rfl
@[simp] theorem withCommand_outMem (s : State) (nbits w : Nat) : (withCommand s nbits w).outMem = s.outMem := rfl
@[simp] theorem withCommand_ft (s : State) (nbits w : Nat) : (withCommand s nbits w).ft = s.ft := rfl
@[simp] theorem withCommand_node (s : State) (nbits w : Nat) : (withCommand s nbits w).node = s.node := rfl
@[simp] theorem withCommand_ct (s : State) (nbits w : Nat) : (withCommand s nbits w).ct = s.ct := rfl
@[simp] theorem withCommand_script (s : State) (nbits w : Nat) : (withCommand s nbits w).script = .writeCmd (BitVec.ofNat 8 (w % 2 ^ nbits)) :: s.script := rfl
@[simp] theorem withCommand_reads (s : State) (nbits w : Nat) : (withCommand s nbits w).reads = s.reads := rfl

@[simp] theorem takeFailure_illegal (s : State) :
    takeFailure .illegalCommand s = { s with status := setErr true s.status, errcode := 7#8 } := rfl

/-- Taking any failure but IllegalCommand (R200), whole. -/
theorem takeFailure_of_ne {k : FailKind} (h : k ≠ .illegalCommand) (s : State) :
    takeFailure k s =
      { s with outLen := 0#32, pad := 0#8, outMem := [], status := setErr true s.status, errcode := k.code } := by
  cases k <;> first | rfl | exact absurd rfl h

@[simp] theorem takeFailure_status (k : FailKind) (s : State) : (takeFailure k s).status = setErr true s.status := by cases k <;> rfl
@[simp] theorem takeFailure_errcode (k : FailKind) (s : State) : (takeFailure k s).errcode = k.code := by cases k <;> rfl
@[simp] theorem takeFailure_params (k : FailKind) (s : State) : (takeFailure k s).params = s.params := by cases k <;> rfl
@[simp] theorem takeFailure_inLen (k : FailKind) (s : State) : (takeFailure k s).inLen = s.inLen := by cases k <;> rfl
@[simp] theorem takeFailure_root (k : FailKind) (s : State) : (takeFailure k s).root = s.root := by cases k <;> rfl
@[simp] theorem takeFailure_inMem (k : FailKind) (s : State) : (takeFailure k s).inMem = s.inMem := by cases k <;> rfl
@[simp] theorem takeFailure_ft (k : FailKind) (s : State) : (takeFailure k s).ft = s.ft := by cases k <;> rfl
@[simp] theorem takeFailure_node (k : FailKind) (s : State) : (takeFailure k s).node = s.node := by cases k <;> rfl
@[simp] theorem takeFailure_ct (k : FailKind) (s : State) : (takeFailure k s).ct = s.ct := by cases k <;> rfl
@[simp] theorem takeFailure_script (k : FailKind) (s : State) : (takeFailure k s).script = s.script := by cases k <;> rfl
@[simp] theorem takeFailure_reads (k : FailKind) (s : State) : (takeFailure k s).reads = s.reads := by cases k <;> rfl

@[simp] theorem noticeEmpty_params (s : State) : (noticeEmpty s).params = s.params := by unfold noticeEmpty; split <;> rfl
@[simp] theorem noticeEmpty_errcode (s : State) : (noticeEmpty s).errcode = s.errcode := by unfold noticeEmpty; split <;> rfl
@[simp] theorem noticeEmpty_inLen (s : State) : (noticeEmpty s).inLen = s.inLen := by unfold noticeEmpty; split <;> rfl
@[simp] theorem noticeEmpty_outLen (s : State) : (noticeEmpty s).outLen = s.outLen := by unfold noticeEmpty; split <;> rfl
@[simp] theorem noticeEmpty_pad (s : State) : (noticeEmpty s).pad = s.pad := by unfold noticeEmpty; split <;> rfl
@[simp] theorem noticeEmpty_root (s : State) : (noticeEmpty s).root = s.root := by unfold noticeEmpty; split <;> rfl
@[simp] theorem noticeEmpty_inMem (s : State) : (noticeEmpty s).inMem = s.inMem := by unfold noticeEmpty; split <;> rfl
@[simp] theorem noticeEmpty_outMem (s : State) : (noticeEmpty s).outMem = s.outMem := by unfold noticeEmpty; split <;> rfl
@[simp] theorem noticeEmpty_ft (s : State) : (noticeEmpty s).ft = s.ft := by unfold noticeEmpty; split <;> rfl
@[simp] theorem noticeEmpty_node (s : State) : (noticeEmpty s).node = s.node := by unfold noticeEmpty; split <;> rfl
@[simp] theorem noticeEmpty_ct (s : State) : (noticeEmpty s).ct = s.ct := by unfold noticeEmpty; split <;> rfl
@[simp] theorem noticeEmpty_script (s : State) : (noticeEmpty s).script = s.script := by unfold noticeEmpty; split <;> rfl
@[simp] theorem noticeEmpty_reads (s : State) : (noticeEmpty s).reads = s.reads := by unfold noticeEmpty; split <;> rfl

theorem noticeEmpty_status (s : State) :
    (noticeEmpty s).status = if s.inLen = 0#32 then setEmpty true s.status else s.status := by
  unfold noticeEmpty; split <;> rfl

@[simp] theorem writeInLen_params (v : Len) (s : State) : (writeInLen v s).params = s.params := by unfold writeInLen; split <;> rfl
@[simp] theorem writeInLen_status (v : Len) (s : State) : (writeInLen v s).status = s.status := by unfold writeInLen; split <;> rfl
@[simp] theorem writeInLen_errcode (v : Len) (s : State) : (writeInLen v s).errcode = s.errcode := by unfold writeInLen; split <;> rfl
@[simp] theorem writeInLen_outLen (v : Len) (s : State) : (writeInLen v s).outLen = s.outLen := by unfold writeInLen; split <;> rfl
@[simp] theorem writeInLen_pad (v : Len) (s : State) : (writeInLen v s).pad = s.pad := by unfold writeInLen; split <;> rfl
@[simp] theorem writeInLen_root (v : Len) (s : State) : (writeInLen v s).root = s.root := by unfold writeInLen; split <;> rfl
@[simp] theorem writeInLen_inMem (v : Len) (s : State) : (writeInLen v s).inMem = s.inMem := by unfold writeInLen; split <;> rfl
@[simp] theorem writeInLen_outMem (v : Len) (s : State) : (writeInLen v s).outMem = s.outMem := by unfold writeInLen; split <;> rfl
@[simp] theorem writeInLen_ft (v : Len) (s : State) : (writeInLen v s).ft = s.ft := by unfold writeInLen; split <;> rfl
@[simp] theorem writeInLen_node (v : Len) (s : State) : (writeInLen v s).node = s.node := by unfold writeInLen; split <;> rfl
@[simp] theorem writeInLen_ct (v : Len) (s : State) : (writeInLen v s).ct = s.ct := by unfold writeInLen; split <;> rfl
@[simp] theorem writeInLen_script (v : Len) (s : State) : (writeInLen v s).script = s.script := by unfold writeInLen; split <;> rfl
@[simp] theorem writeInLen_reads (v : Len) (s : State) : (writeInLen v s).reads = s.reads := by unfold writeInLen; split <;> rfl

theorem writeInLen_inLen (v : Len) (s : State) :
    (writeInLen v s).inLen = if v.toNat ≤ s.params.inCap.toNat then v else s.inLen := by
  unfold writeInLen; split <;> rfl

/-- The operand of a command depends on IN_LEN and IN alone (R14, R23). -/
theorem input_congr {s t : State} (hl : s.inLen = t.inLen) (hm : s.inMem = t.inMem) : s.input = t.input := by
  unfold State.input State.inAt; rw [hl, hm]

@[simp] theorem beginCommand_input (s : State) : (beginCommand s).input = s.input := rfl
@[simp] theorem buildTree_input (s : State) : (buildTree s).input = s.input := rfl
@[simp] theorem buildTables_input (s : State) : (buildTables s).input = s.input := rfl

@[simp] theorem beginCommand_ftAt (s : State) (a : Nat) : (beginCommand s).ftAt a = s.ftAt a := rfl
@[simp] theorem beginCommand_nodeAt (s : State) (a : Nat) : (beginCommand s).nodeAt a = s.nodeAt a := rfl
@[simp] theorem beginCommand_ctAt (s : State) (a : Nat) : (beginCommand s).ctAt a = s.ctAt a := rfl

end Sys2Proof.Machine
end

