-- ==== Sys2Proof/Laws/Ops.lean ====
section
/-! SUPPORT. One lemma per shared operation that says once what it can do: the outcome of a procedure, the append to
OUT, the command frame, the operand. Later proofs cite these and unfold none of them. -/

namespace Sys2Proof.Machine

@[simp] theorem Res.bind_ok {α β : Type} (a : α) (f : α → Res β) : (Res.ok a).bind f = f a := rfl
@[simp] theorem Res.bind_raise {α β : Type} (k : FailKind) (f : α → Res β) : (Res.raise k : Res α).bind f = .raise k := rfl
@[simp] theorem Res.bind_refuse {α β : Type} (r : Refusal) (f : α → Res β) :
    (Res.refuse r : Res α).bind f = .refuse r := rfl

/-- A sequence of two procedures gives a value exactly when both do. -/
theorem Res.bind_eq_ok_iff {α β : Type} {x : Res α} {f : α → Res β} {b : β} :
    x.bind f = .ok b ↔ ∃ a, x = .ok a ∧ f a = .ok b := by
  cases x <;> simp [Res.bind]

/-- A sequence of two procedures raises a failure when the first does, or the first gives a value and the second
does. -/
theorem Res.bind_eq_raise_iff {α β : Type} {x : Res α} {f : α → Res β} {k : FailKind} :
    x.bind f = .raise k ↔ x = .raise k ∨ ∃ a, x = .ok a ∧ f a = .raise k := by
  cases x <;> simp [Res.bind]

theorem Res.bind_eq_refuse_iff {α β : Type} {x : Res α} {f : α → Res β} {r : Refusal} :
    x.bind f = .refuse r ↔ x = .refuse r ∨ ∃ a, x = .ok a ∧ f a = .refuse r := by
  cases x <;> simp [Res.bind]

theorem Res.bind_assoc {α β γ : Type} (x : Res α) (f : α → Res β) (g : β → Res γ) :
    (x.bind f).bind g = x.bind fun a => (f a).bind g := by
  cases x <;> rfl

@[simp] theorem readByte_some (v : Byte) : readByte (some v) = .ok v := rfl
@[simp] theorem readByte_none : readByte none = .refuse .unwrittenInput := rfl

/-- `emit` below the capacity appends the byte (R49). -/
theorem emit_of_lt {cap : Nat} {out : List Byte} (h : out.length < cap) (v : Byte) : emit cap out v = .ok (out ++ [v]) := by
  unfold emit; rw [if_neg (by omega)]

/-- `emit` on a full buffer raises IOFailure (R49). -/
@[simp] theorem emit_of_full (out : List Byte) (v : Byte) : emit out.length out v = .raise .ioFailure := by
  simp [emit]

/-- Everything `emit` can do when it gives a value. -/
theorem emit_eq_ok_iff {cap : Nat} {out out' : List Byte} {v : Byte} :
    emit cap out v = .ok out' ↔ out.length ≠ cap ∧ out' = out ++ [v] := by
  unfold emit; split <;> simp_all [eq_comm]

theorem emit_ne_refuse {cap : Nat} {out : List Byte} {v : Byte} {r : Refusal} : emit cap out v ≠ .refuse r := by
  unfold emit; split <;> simp

theorem emit_eq_raise_iff {cap : Nat} {out : List Byte} {v : Byte} {k : FailKind} :
    emit cap out v = .raise k ↔ out.length = cap ∧ k = .ioFailure := by
  unfold emit; split <;> simp_all [eq_comm]

@[simp] theorem emitAll_nil (cap : Nat) (out : List Byte) : emitAll cap out [] = .ok out := rfl

theorem emitAll_cons (cap : Nat) (out : List Byte) (v : Byte) (vs : List Byte) :
    emitAll cap out (v :: vs) = (emit cap out v).bind fun out' => emitAll cap out' vs := rfl

/-- Emitting a sequence that fits appends it (R49). -/
theorem emitAll_of_le {cap : Nat} (vs : List Byte) {out : List Byte} (h : out.length + vs.length ≤ cap) :
    emitAll cap out vs = .ok (out ++ vs) := by
  induction vs generalizing out with
  | nil => simp
  | cons v vs ih =>
    simp only [List.length_cons] at h
    rw [emitAll_cons, emit_of_lt (by omega), Res.bind_ok, ih (by simp; omega)]
    simp

/-- Emitting a sequence that does not fit raises IOFailure (R49: "The check is made at the byte that does not fit"). -/
theorem emitAll_of_lt {cap : Nat} (vs : List Byte) {out : List Byte} (h : out.length ≤ cap)
    (hlt : cap < out.length + vs.length) : emitAll cap out vs = .raise .ioFailure := by
  induction vs generalizing out with
  | nil => simp at hlt; omega
  | cons v vs ih =>
    simp only [List.length_cons] at hlt
    rw [emitAll_cons]
    by_cases hf : out.length = cap
    · subst hf; simp
    · rw [emit_of_lt (by omega), Res.bind_ok, ih (by simp; omega) (by simp; omega)]

@[simp] theorem Body.ofRes_ok {α : Type} (s : State) (a : α) (w : α → State) : Body.ofRes s (.ok a) w = .done (w a) := rfl
@[simp] theorem Body.ofRes_raise {α : Type} (s : State) (k : FailKind) (w : α → State) :
    Body.ofRes s (.raise k) w = .raise k s := rfl
@[simp] theorem Body.ofRes_refuse {α : Type} (s : State) (r : Refusal) (w : α → State) :
    Body.ofRes s (.refuse r) w = .refuse r := rfl

/-- The frame around a body that ends normally (R177). -/
theorem runFrame_of_done {body : State → Body} {s t : State} (h : body (beginCommand s) = .done t) :
    runFrame body s = .next (endCommand t) := by
  simp [runFrame, h]

/-- The frame around a body that ends in a `raise` (R177, R200). -/
theorem runFrame_of_raise {body : State → Body} {s t : State} {k : FailKind} (h : body (beginCommand s) = .raise k t) :
    runFrame body s = .next (endCommand (takeFailure k t)) := by
  simp [runFrame, h]

theorem runFrame_of_refuse {body : State → Body} {s : State} {r : Refusal} (h : body (beginCommand s) = .refuse r) :
    runFrame body s = .refused r := by
  simp [runFrame, h]

/-- Everything the frame can do when it answers a next state. -/
theorem runFrame_next_cases {body : State → Body} {s t : State} (h : runFrame body s = .next t) :
    (∃ u, body (beginCommand s) = .done u ∧ t = endCommand u) ∨
      ∃ k u, body (beginCommand s) = .raise k u ∧ t = endCommand (takeFailure k u) := by
  unfold runFrame at h
  split at h
  · next u hb => exact .inl ⟨u, hb, by simpa using h.symm⟩
  · next k u hb => exact .inr ⟨k, u, hb, by simpa using h.symm⟩
  · simp at h

/-- No frame faults: a failure is a next state (R208). -/
theorem runFrame_ne_fault {body : State → Body} {s : State} {r : Fault} : runFrame body s ≠ .fault r := by
  unfold runFrame; split <;> simp

/-- The illegal-command response, whole (R181). -/
theorem illegalCommand_eq (s : State) : illegalCommand s = .next { s with status := 0x02#8, errcode := 7#8 } := by
  simp [illegalCommand, runFrame, endCommand, beginCommand, statusWord_failure]

/-- A failure other than IllegalCommand taken inside the frame, in the terms the claims use (R200, R201). -/
theorem endCommand_takeFailure {k : FailKind} (hk : k ≠ .illegalCommand) {s : State}
    (hs : s.status = statusWord true false false) : endCommand (takeFailure k s) = s.failed k := by
  rw [takeFailure_of_ne hk]
  simp [endCommand, State.failed, hs, statusWord_failure]

/-- The normal end of a command that made a byte sequence, in the terms the claims use (R130, R145). -/
theorem endCommand_setResult {s : State} (hs : s.status = statusWord true false false) (he : s.errcode = 0#8)
    (out : List Byte) (p : Byte) : endCommand (setResult out p s) = s.succeeded out p := by
  simp [endCommand, setResult, State.succeeded, hs, he, statusWord_success]

/-- An operand read whole: every byte of it was written (R226). -/
theorem allWritten_eq_some_iff {x : List (Option Byte)} {v : List Byte} : allWritten x = some v ↔ x = v.map some := by
  induction x generalizing v with
  | nil => cases v <;> simp [allWritten]
  | cons b x ih =>
    cases b with
    | none => cases v <;> simp [allWritten]
    | some b =>
      simp only [allWritten]
      cases hx : allWritten x with
      | none =>
        simp only [false_iff, reduceCtorEq]
        intro h
        cases v with
        | nil => simp at h
        | cons c v =>
          simp only [List.map_cons, List.cons.injEq] at h
          rw [ih.2 h.2] at hx
          simp at hx
      | some w =>
        have := ih.1 hx
        subst this
        cases v with
        | nil => simp
        | cons c v => simp [List.map_inj_right (f := (some : Byte → Option Byte)) (fun _ _ h => Option.some.inj h)]

/-- Some byte of the operand was never written (U1). -/
theorem allWritten_eq_none_iff {x : List (Option Byte)} : allWritten x = none ↔ none ∈ x := by
  induction x with
  | nil => simp [allWritten]
  | cons b x ih =>
    cases b with
    | none => simp [allWritten]
    | some b =>
      simp only [allWritten, List.mem_cons, reduceCtorEq, false_or]
      rw [← ih]
      cases allWritten x <;> simp

@[simp] theorem input_length (s : State) : s.input.length = s.inLen.toNat := by
  simp [State.input]

/-- The reset memories are in canonical form: nothing is listed (R30). -/
theorem reset_memories_wf :
    Memory.wf State.reset.params.inCap.toNat State.reset.inMem ∧
      Memory.wf State.reset.params.outCap.toNat State.reset.outMem := by
  decide

end Sys2Proof.Machine
end

