-- ==== Sys2Proof/Laws/PerInstr.lean ====
section
/-! SUPPORT. A statement about every instruction, one lemma per constructor. -/

namespace Sys2Proof.Laws.EncodingLegal

/-- The instruction is well-formed, its command word is a legal one, and it decodes back to it (R60, R62). -/
def Statement (i : Instr) : Prop := i.wf = true ∧ wordWf (encode i) = true ∧ decode (encode i) = .ok i

theorem fcount : Statement .fcount := ⟨rfl, by decide, rfl⟩
theorem build : Statement .build := ⟨rfl, by decide, rfl⟩
theorem derive : Statement .derive := ⟨rfl, by decide, rfl⟩
theorem pack : Statement .pack := ⟨rfl, by decide, rfl⟩
theorem unpack : Statement .unpack := ⟨rfl, by decide, rfl⟩
theorem compress : Statement .compress := ⟨rfl, by decide, rfl⟩
theorem decompress : Statement .decompress := ⟨rfl, by decide, rfl⟩
theorem clear : Statement .clear := ⟨rfl, by decide, rfl⟩

end Sys2Proof.Laws.EncodingLegal
end

