-- ==== Sys2Proof/Laws/Sparse.lean ====
section
/-! SUPPORT. The laws of the indexed memories: a read after a write to the same index gives the value written, a
write leaves every other index alone, every operation keeps the canonical form, and two tables in canonical form with
the same reads are the same list. -/

namespace Sys2Proof.Machine

namespace Sparse

variable {α : Type}

@[simp] theorem lookup_nil (a : Nat) : lookup ([] : List (Nat × α)) a = none := rfl

theorem lookup_cons (k : Nat) (v : α) (t : List (Nat × α)) (a : Nat) :
    lookup ((k, v) :: t) a = if a = k then some v else lookup t a := rfl

theorem lookup_insert (t : List (Nat × α)) (a b : Nat) (v : α) :
    lookup (insert t a v) b = if b = a then some v else lookup t b := by
  induction t with
  | nil => simp [insert, lookup]
  | cons e t ih =>
    obtain ⟨k, w⟩ := e
    simp only [insert]
    split
    · simp [lookup_cons]
    · split
      · subst_vars; simp only [lookup_cons]; split <;> rfl
      · simp only [lookup_cons, ih]; split <;> split <;> first | rfl | omega

@[simp] theorem lookup_insert_self (t : List (Nat × α)) (a : Nat) (v : α) : lookup (insert t a v) a = some v := by
  simp [lookup_insert]

theorem lookup_insert_ne (t : List (Nat × α)) {a b : Nat} (v : α) (h : b ≠ a) :
    lookup (insert t a v) b = lookup t b := by
  simp [lookup_insert, h]

theorem lookup_erase (t : List (Nat × α)) (a b : Nat) :
    lookup (erase t a) b = if b = a then none else lookup t b := by
  induction t with
  | nil => simp [erase]
  | cons e t ih =>
    obtain ⟨k, w⟩ := e
    simp only [erase] at ih ⊢
    by_cases hk : k = a
    · subst hk
      simp only [ne_eq, decide_not, List.filter_cons, decide_true, Bool.not_true, Bool.false_eq_true, if_false]
      simp only [ne_eq, decide_not] at ih
      rw [ih, lookup_cons]
      split <;> rfl
    · simp only [ne_eq, decide_not, List.filter_cons, hk, decide_false, Bool.not_false, if_true, lookup_cons]
      simp only [ne_eq, decide_not] at ih
      rw [ih]
      split <;> split <;> first | rfl | omega

@[simp] theorem get_nil (d : α) (a : Nat) : get d [] a = d := rfl

theorem get_put [DecidableEq α] (d : α) (t : List (Nat × α)) (a b : Nat) (v : α) :
    get d (put d t a v) b = if b = a then v else get d t b := by
  unfold put get
  split
  · subst_vars; rw [lookup_erase]; split <;> simp
  · rw [lookup_insert]; split <;> simp

@[simp] theorem get_put_self [DecidableEq α] (d : α) (t : List (Nat × α)) (a : Nat) (v : α) :
    get d (put d t a v) a = v := by
  simp [get_put]

theorem get_put_ne [DecidableEq α] (d : α) (t : List (Nat × α)) {a b : Nat} (v : α) (h : b ≠ a) :
    get d (put d t a v) b = get d t b := by
  simp [get_put, h]

theorem mem_insert {t : List (Nat × α)} {a : Nat} {v : α} {e : Nat × α} (h : e ∈ insert t a v) :
    e = (a, v) ∨ e ∈ t := by
  induction t with
  | nil => simpa [insert] using h
  | cons x t ih =>
    obtain ⟨k, w⟩ := x
    simp only [insert] at h
    split at h
    · simpa using h
    · split at h
      · rcases List.mem_cons.1 h with h | h
        · exact .inl h
        · exact .inr (List.mem_cons_of_mem _ h)
      · rcases List.mem_cons.1 h with h | h
        · exact .inr (by simp [h])
        · exact (ih h).imp id (List.mem_cons_of_mem _)

theorem sorted_insert {t : List (Nat × α)} (h : Sorted t) (a : Nat) (v : α) : Sorted (insert t a v) := by
  induction t with
  | nil => simp [insert, Sorted]
  | cons x t ih =>
    obtain ⟨k, w⟩ := x
    obtain ⟨hx, ht⟩ := List.pairwise_cons.1 h
    simp only [insert]
    split
    · next hak =>
      refine List.pairwise_cons.2 ⟨fun y hy => ?_, h⟩
      rcases List.mem_cons.1 hy with rfl | hy
      · exact hak
      · exact Nat.lt_trans hak (hx y hy)
    · split
      · subst_vars; exact List.pairwise_cons.2 ⟨hx, ht⟩
      · next h1 h2 =>
        refine List.pairwise_cons.2 ⟨fun y hy => ?_, ih ht⟩
        rcases mem_insert hy with rfl | hy
        · show k < a; omega
        · exact hx y hy

theorem sorted_erase {t : List (Nat × α)} (h : Sorted t) (a : Nat) : Sorted (erase t a) :=
  List.Pairwise.filter _ h

theorem sorted_put [DecidableEq α] {d : α} {t : List (Nat × α)} (h : Sorted t) (a : Nat) (v : α) :
    Sorted (put d t a v) := by
  unfold put
  split
  · exact sorted_erase h a
  · exact sorted_insert h a v

theorem below_insert {n : Nat} {t : List (Nat × α)} (h : Below n t) {a : Nat} (ha : a < n) (v : α) :
    Below n (insert t a v) := by
  intro e he
  rcases mem_insert he with rfl | he
  · exact ha
  · exact h e he

theorem below_put [DecidableEq α] {d : α} {n : Nat} {t : List (Nat × α)} (h : Below n t) {a : Nat} (ha : a < n)
    (v : α) : Below n (put d t a v) := by
  unfold put
  split
  · exact fun e he => h e (List.mem_filter.1 he).1
  · exact below_insert h ha v

theorem noDefault_put [DecidableEq α] {d : α} {t : List (Nat × α)} (h : NoDefault d t) (a : Nat) (v : α) :
    NoDefault d (put d t a v) := by
  unfold put
  split
  · exact fun e he => h e (List.mem_filter.1 he).1
  · next hv =>
    intro e he
    rcases mem_insert he with rfl | he
    · exact hv
    · exact h e he

theorem lookup_eq_none_of_lt {t : List (Nat × α)} {a : Nat} (h : ∀ e ∈ t, a < e.1) : lookup t a = none := by
  induction t with
  | nil => rfl
  | cons x t ih =>
    obtain ⟨k, w⟩ := x
    have hk : a < k := h (k, w) (List.mem_cons_self)
    rw [lookup_cons, if_neg (by omega)]
    exact ih fun e he => h e (List.mem_cons_of_mem _ he)

theorem lookup_eq_none_of_below {n : Nat} {t : List (Nat × α)} (h : Below n t) {a : Nat} (ha : n ≤ a) :
    lookup t a = none := by
  induction t with
  | nil => rfl
  | cons x t ih =>
    obtain ⟨k, w⟩ := x
    have hk : k < n := h (k, w) (List.mem_cons_self)
    rw [lookup_cons, if_neg (by omega)]
    exact ih fun e he => h e (List.mem_cons_of_mem _ he)

theorem get_eq_default_of_below {d : α} {n : Nat} {t : List (Nat × α)} (h : Below n t) {a : Nat} (ha : n ≤ a) :
    get d t a = d := by
  simp [get, lookup_eq_none_of_below h ha]

/-- In a sorted list the lookup finds exactly the listed entries. -/
theorem lookup_eq_some_iff {t : List (Nat × α)} (h : Sorted t) (a : Nat) (v : α) :
    lookup t a = some v ↔ (a, v) ∈ t := by
  induction t with
  | nil => simp
  | cons x t ih =>
    obtain ⟨k, w⟩ := x
    obtain ⟨hx, ht⟩ := List.pairwise_cons.1 h
    rw [lookup_cons, List.mem_cons, Prod.mk.injEq]
    split
    · next hak =>
      subst hak
      constructor
      · intro hv; exact .inl ⟨rfl, (Option.some.inj hv).symm⟩
      · rintro (⟨-, rfl⟩ | hm)
        · rfl
        · exact absurd (hx _ hm) (Nat.lt_irrefl _)
    · next hak =>
      rw [ih ht]
      exact ⟨.inr, fun hm => hm.resolve_left fun hm => hak hm.1⟩

/-- Equal reads, equal lists: a sorted list is determined by its lookups. -/
theorem ext_of_sorted {s t : List (Nat × α)} (hs : Sorted s) (ht : Sorted t) (h : ∀ a, lookup s a = lookup t a) :
    s = t := by
  induction s generalizing t with
  | nil =>
    cases t with
    | nil => rfl
    | cons y t =>
      obtain ⟨k, w⟩ := y
      have := h k
      rw [lookup_nil, lookup_cons, if_pos rfl] at this
      exact absurd this (by simp)
  | cons x s ih =>
    obtain ⟨k, v⟩ := x
    obtain ⟨hxs, hss⟩ := List.pairwise_cons.1 hs
    cases t with
    | nil =>
      have := h k
      rw [lookup_nil, lookup_cons, if_pos rfl] at this
      exact absurd this (by simp)
    | cons y t =>
      obtain ⟨j, w⟩ := y
      obtain ⟨hyt, htt⟩ := List.pairwise_cons.1 ht
      have hk := h k
      have hj := h j
      rw [lookup_cons, if_pos rfl, lookup_cons] at hk
      rw [lookup_cons, lookup_cons, if_pos rfl] at hj
      have hkj : k = j := by
        by_contra hne
        rw [if_neg hne] at hk
        rw [if_neg (Ne.symm hne)] at hj
        have h1 := hyt _ ((lookup_eq_some_iff htt k v).1 hk.symm)
        have h2 := hxs _ ((lookup_eq_some_iff hss j w).1 hj)
        simp only at h1 h2
        omega
      subst hkj
      rw [if_pos rfl] at hk
      obtain rfl := Option.some.inj hk
      congr 1
      refine ih hss htt fun a => ?_
      by_cases ha : a = k
      · subst ha
        rw [lookup_eq_none_of_lt hxs, lookup_eq_none_of_lt hyt]
      · have := h a
        rwa [lookup_cons, lookup_cons, if_neg ha, if_neg ha] at this

end Sparse

/-- Writing a byte inside a buffer memory keeps its canonical form. -/
theorem Memory.wf_insert {n : Nat} {m : List Host.Cell} (h : Memory.wf n m) {i : Nat} (hi : i < n) (v : Byte) :
    Memory.wf n (Sparse.insert m i v) :=
  ⟨Sparse.sorted_insert h.1 i v, Sparse.below_insert h.2 hi v⟩

/-- Writing an entry inside a table keeps its canonical form. -/
theorem Table.wf_put {α : Type} [DecidableEq α] {n : Nat} {d : α} {t : List (Nat × α)} (h : Table.wf n d t) {a : Nat}
    (ha : a < n) (v : α) : Table.wf n d (Sparse.put d t a v) :=
  ⟨Sparse.sorted_put h.1 a v, Sparse.below_put h.2.1 ha v, Sparse.noDefault_put h.2.2 a v⟩

theorem Memory.wf_nil (n : Nat) : Memory.wf n [] := by simp [Memory.wf, Sparse.Sorted, Sparse.Below]

theorem Table.wf_nil {α : Type} [DecidableEq α] (n : Nat) (d : α) : Table.wf n d [] := by
  simp [Table.wf, Sparse.Sorted, Sparse.Below, Sparse.NoDefault]

/-- Two tables in canonical form with the same entries are the same list. -/
theorem Table.ext {α : Type} [DecidableEq α] {n : Nat} {d : α} {s t : List (Nat × α)} (hs : Table.wf n d s)
    (ht : Table.wf n d t) (h : ∀ a, Sparse.get d s a = Sparse.get d t a) : s = t := by
  have key : ∀ (u w : List (Nat × α)), Table.wf n d u → Table.wf n d w →
      (∀ a, Sparse.get d u a = Sparse.get d w a) → ∀ a v, Sparse.lookup u a = some v → Sparse.lookup w a = some v := by
    intro u w hu hw huw a v hv
    have hne : v ≠ d := hu.2.2 (a, v) ((Sparse.lookup_eq_some_iff hu.1 a v).1 hv)
    have h1 := huw a
    simp only [Sparse.get, hv, Option.getD_some] at h1
    cases hl : Sparse.lookup w a with
    | none => rw [hl] at h1; exact absurd h1 hne
    | some x => rw [hl] at h1; simp only [Option.getD_some] at h1; rw [h1]
  refine Sparse.ext_of_sorted hs.1 ht.1 fun a => ?_
  cases hv : Sparse.lookup s a with
  | some v => exact (key s t hs ht h a v hv).symm
  | none =>
    cases hw : Sparse.lookup t a with
    | none => rfl
    | some w => rw [key t s ht hs (fun b => (h b).symm) a w hw] at hv; exact absurd hv (by simp)

/-- The memory that holds a byte sequence reads back as the sequence. -/
theorem Memory.lookup_ofBytes (v : List Byte) (i : Nat) : Sparse.lookup (Memory.ofBytes v) i = v[i]? := by
  have aux : ∀ (v : List Byte) (n i : Nat),
      Sparse.lookup ((v.zipIdx n).map (fun e => (e.2, e.1))) i = if i < n then none else v[i - n]? := by
    intro v
    induction v with
    | nil => intro n i; simp
    | cons b v ih =>
      intro n i
      simp only [List.zipIdx_cons, List.map_cons, Sparse.lookup_cons, ih]
      rcases Nat.lt_trichotomy i n with h | h | h
      · rw [if_neg (by omega), if_pos (by omega), if_pos h]
      · subst h; simp
      · rw [if_neg (by omega), if_neg (by omega), if_neg (by omega)]
        obtain ⟨m, rfl⟩ : ∃ m, i = n + 1 + m := ⟨i - (n + 1), by omega⟩
        rw [show n + 1 + m - (n + 1) = m by omega, show n + 1 + m - n = m + 1 by omega, List.getElem?_cons_succ]
  have := aux v 0 i
  simpa [Memory.ofBytes] using this

/-- The memory that holds a byte sequence is in canonical form. -/
theorem Memory.wf_ofBytes {n : Nat} {v : List Byte} (h : v.length ≤ n) : Memory.wf n (Memory.ofBytes v) := by
  have aux : ∀ (v : List Byte) (m : Nat), Sparse.Sorted ((v.zipIdx m).map (fun e => (e.2, e.1))) ∧
      ∀ e ∈ (v.zipIdx m).map (fun e => (e.2, e.1)), m ≤ e.1 ∧ e.1 < m + v.length := by
    intro v
    induction v with
    | nil => intro m; simp [Sparse.Sorted]
    | cons b v ih =>
      intro m
      obtain ⟨hs, hb⟩ := ih (m + 1)
      refine ⟨List.pairwise_cons.2 ⟨fun e he => ?_, hs⟩, fun e he => ?_⟩
      · have := (hb e he).1; show m < e.1; omega
      · rcases List.mem_cons.1 he with rfl | he
        · simp
        · have := hb e he; simp only [List.length_cons]; omega
  obtain ⟨hs, hb⟩ := aux v 0
  exact ⟨hs, fun e he => by have := (hb e he).2; omega⟩

@[simp] theorem ftGet_nil (s : Nat) : ftGet [] s = 0#32 := rfl
@[simp] theorem nodeGet_nil (k : Nat) : nodeGet [] k = Node.unused := rfl
@[simp] theorem ctGet_nil (s : Nat) : ctGet [] s = CodeEntry.absent := rfl

theorem ftGet_ftPut (ft : List (Nat × Count)) (a b : Nat) (c : Count) :
    ftGet (ftPut ft a c) b = if b = a then c else ftGet ft b := Sparse.get_put _ _ _ _ _

theorem nodeGet_nodePut (node : List (Nat × Node)) (a b : Nat) (n : Node) :
    nodeGet (nodePut node a n) b = if b = a then n else nodeGet node b := Sparse.get_put _ _ _ _ _

theorem ctGet_ctPut (ct : List (Nat × CodeEntry)) (a b : Nat) (e : CodeEntry) :
    ctGet (ctPut ct a e) b = if b = a then e else ctGet ct b := Sparse.get_put _ _ _ _ _

end Sys2Proof.Machine
end

