-- ==== Sys2Proof/Laws/Procedures.lean ====
section
/-! SUPPORT. One lemma per procedure the commands share, that says once what it does: the present symbols of a table,
the count, the choice of the least node, the drain of the bit buffer, the serialised header. -/

namespace Sys2Proof.Machine

/-! ## The frequency table -/

/-- A symbol is present when its count is above 0 (R17). -/
theorem mem_presentSymbols {ft : List (Nat × Count)} {s : Nat} :
    s ∈ presentSymbols ft ↔ s < 256 ∧ ftGet ft s ≠ 0#32 := by
  simp [presentSymbols, Config.nSym]

/-- The present symbols are in strictly ascending order (R72). -/
theorem presentSymbols_sorted (ft : List (Nat × Count)) : (presentSymbols ft).Pairwise (· < ·) :=
  List.Pairwise.filter _ List.pairwise_lt_range

theorem presentSymbols_nodup (ft : List (Nat × Count)) : (presentSymbols ft).Nodup :=
  (presentSymbols_sorted ft).imp Nat.ne_of_lt

/-- At most 256 symbols are present (R72, R93). -/
theorem presentSymbols_length_le (ft : List (Nat × Count)) : (presentSymbols ft).length ≤ 256 :=
  (List.length_filter_le _ _).trans (by simp [Config.nSym])

/-- The present symbols depend on the counts alone (R108). -/
theorem presentSymbols_congr {ft ft' : List (Nat × Count)} (h : ∀ s, s < 256 → ftGet ft s = ftGet ft' s) :
    presentSymbols ft = presentSymbols ft' := by
  refine List.filter_congr fun s hs => ?_
  have hs : s < 256 := by simpa [Config.nSym] using hs
  rw [h s hs]

@[simp] theorem presentSymbols_nil : presentSymbols [] = [] := by
  simp [presentSymbols]

/-- Everything the count does (R90): each symbol's count is its number of occurrences, as a 32-bit number. -/
theorem ftGet_countBytes (x : List Byte) (v : Byte) : ftGet (countBytes x) v.toNat = BitVec.ofNat 32 (x.count v) := by
  have aux : ∀ (x : List Byte) (ft : List (Nat × Count)),
      ftGet (x.foldl (fun ft v => ftPut ft v.toNat (ftGet ft v.toNat + 1#32)) ft) v.toNat =
        ftGet ft v.toNat + BitVec.ofNat 32 (x.count v) := by
    intro x
    induction x with
    | nil => intro ft; simp
    | cons w x ih =>
      intro ft
      rw [List.foldl_cons, ih, ftGet_ftPut, List.count_cons]
      by_cases h : w = v
      · subst h
        simp only [if_true, beq_self_eq_true]
        rw [← BitVec.ofNat_add_ofNat, BitVec.add_comm (BitVec.ofNat 32 _), BitVec.add_assoc]
      · have hn : v.toNat ≠ w.toNat := fun e => h (BitVec.eq_of_toNat_eq e.symm)
        simp [hn, h]
  simpa [countBytes] using aux x []

/-- The count never wraps when the operand is shorter than `2^32` (R91). -/
theorem toNat_ftGet_countBytes {x : List Byte} (h : x.length < 2 ^ 32) (v : Byte) :
    (ftGet (countBytes x) v.toNat).toNat = x.count v := by
  rw [ftGet_countBytes, BitVec.toNat_ofNat, Nat.mod_eq_of_lt (Nat.lt_of_le_of_lt List.count_le_length h)]

/-- The count gives a table in canonical form (R17). -/
theorem countBytes_wf (x : List Byte) : Table.wf 256 0#32 (countBytes x) := by
  have aux : ∀ (x : List Byte) (ft : List (Nat × Count)), Table.wf 256 0#32 ft →
      Table.wf 256 0#32 (x.foldl (fun ft v => ftPut ft v.toNat (ftGet ft v.toNat + 1#32)) ft) := by
    intro x
    induction x with
    | nil => intro ft h; exact h
    | cons w x ih => intro ft h; exact ih _ (Table.wf_put h w.isLt _)
  exact aux x [] (Table.wf_nil _ _)

@[simp] theorem countBytes_nil : countBytes [] = [] := rfl

/-- Everything the FCOUNT body can do (R90, U1). -/
theorem fcountBody_eq (s : State) :
    (∃ x : List Byte, s.input = x.map some ∧ fcountBody s = .ok { s with ft := countBytes x }) ∨
      (none ∈ s.input ∧ fcountBody s = .refuse .unwrittenInput) := by
  unfold fcountBody
  cases h : allWritten s.input with
  | none => exact .inr ⟨allWritten_eq_none_iff.1 h, rfl⟩
  | some x => exact .inl ⟨x, allWritten_eq_some_iff.1 h, rfl⟩

theorem fcountBody_of_written {s : State} {x : List Byte} (h : s.input = x.map some) :
    fcountBody s = .ok { s with ft := countBytes x } := by
  simp [fcountBody, allWritten_eq_some_iff.2 h]

/-! ## The node order -/

theorem nodeBefore_iff {node : List (Nat × Node)} {j k : Nat} :
    nodeBefore node j k = true ↔
      (nodeGet node j).freq.toNat < (nodeGet node k).freq.toNat ∨
        ((nodeGet node j).freq.toNat = (nodeGet node k).freq.toNat ∧ j < k) := by
  simp [nodeBefore, BitVec.lt_def, BitVec.toNat_eq]

/-- The node order is irreflexive, transitive and total on distinct indices (R103). -/
theorem nodeBefore_irrefl (node : List (Nat × Node)) (j : Nat) : nodeBefore node j j = false := by
  rw [Bool.eq_false_iff, Ne, nodeBefore_iff]; omega

theorem nodeBefore_trans {node : List (Nat × Node)} {i j k : Nat} (h : nodeBefore node i j = true)
    (h' : nodeBefore node j k = true) : nodeBefore node i k = true := by
  rw [nodeBefore_iff] at *; omega

theorem nodeBefore_total {node : List (Nat × Node)} {j k : Nat} (h : j ≠ k) :
    nodeBefore node j k = true ∨ nodeBefore node k j = true := by
  simp only [nodeBefore_iff]; omega

/-- The least element of a list (R103): an element of it, with no element before it. -/
theorem leastOf_spec (node : List (Nat × Node)) (x : Nat) (xs : List Nat) :
    leastOf node x xs ∈ x :: xs ∧ ∀ y ∈ x :: xs, nodeBefore node y (leastOf node x xs) = false := by
  induction xs generalizing x with
  | nil => simp [leastOf, nodeBefore_irrefl]
  | cons z xs ih =>
    simp only [leastOf]
    obtain ⟨hm, hl⟩ := ih (if nodeBefore node z x then z else x)
    set m := leastOf node (if nodeBefore node z x then z else x) xs
    refine ⟨?_, fun y hy => ?_⟩
    · rcases List.mem_cons.1 hm with h | h
      · rw [h]; split <;> simp
      · exact List.mem_cons_of_mem _ (List.mem_cons_of_mem _ h)
    · have hb := hl _ List.mem_cons_self
      rcases List.mem_cons.1 hy with rfl | hy
      · split at hb
        · next hzx =>
          rw [nodeBefore_iff] at hzx
          rw [Bool.eq_false_iff, Ne, nodeBefore_iff] at hb ⊢
          omega
        · exact hb
      · rcases List.mem_cons.1 hy with rfl | hy
        · split at hb
          · exact hb
          · next hzx =>
            rw [nodeBefore_iff] at hzx
            rw [Bool.eq_false_iff, Ne, nodeBefore_iff] at hb ⊢
            omega
        · exact hl y (List.mem_cons_of_mem _ hy)

/-- Everything an extraction can do (R101): `Q` is empty, or its least element comes off. -/
theorem extractLeast_cases (node : List (Nat × Node)) (q : List Nat) :
    (q = [] ∧ extractLeast node q = none) ∨
      ∃ a, a ∈ q ∧ (∀ y ∈ q, nodeBefore node y a = false) ∧ extractLeast node q = some (a, q.erase a) := by
  cases q with
  | nil => exact .inl ⟨rfl, rfl⟩
  | cons x xs =>
    obtain ⟨hm, hl⟩ := leastOf_spec node x xs
    exact .inr ⟨_, hm, hl, rfl⟩

/-- One merge of `build_tree` (R101, R104) when `Q` has two elements or more. -/
theorem mergeLoop_succ {fuel : Nat} {node : List (Nat × Node)} {q q1 q2 : List Nat} {a b next : Nat}
    (ha : extractLeast node q = some (a, q1)) (hb : extractLeast node q1 = some (b, q2)) :
    mergeLoop (fuel + 1) node q next =
      mergeLoop fuel (nodePut node next (internalNode ((nodeGet node a).freq + (nodeGet node b).freq) b a))
        (q2 ++ [next]) (next + 1) := by
  simp [mergeLoop, ha, hb]

/-- The loop is over when `Q` has at most one element (R101). -/
theorem mergeLoop_of_le_one {fuel : Nat} {node : List (Nat × Node)} {q : List Nat} {next : Nat} (h : q.length ≤ 1) :
    mergeLoop fuel node q next = (node, q) := by
  cases fuel with
  | zero => rfl
  | succ fuel =>
    rcases q with _ | ⟨x, _ | ⟨y, q⟩⟩
    · rfl
    · simp [mergeLoop, extractLeast, leastOf]
    · simp at h

/-- The seed before any merge (R101): the Leaf of each present symbol, and nothing else. -/
theorem nodeGet_seedLeaves (ft : List (Nat × Count)) (k : Nat) :
    nodeGet (seedLeaves ft) k =
      if k ∈ presentSymbols ft then leafNode ((ftGet ft k).setWidth 40) else Node.unused := by
  have aux : ∀ l : List Nat,
      nodeGet (l.map fun s => (s, leafNode ((ftGet ft s).setWidth 40))) k =
        if k ∈ l then leafNode ((ftGet ft k).setWidth 40) else Node.unused := by
    intro l
    induction l with
    | nil => simp
    | cons s l ih =>
      simp only [nodeGet, Sparse.get, List.map_cons, Sparse.lookup_cons] at ih ⊢
      by_cases h : k = s
      · subst h; simp
      · rw [if_neg h, ih]; simp [h]
  exact aux _

/-! ## The bit buffer -/

theorem bytesOf_nil : bytesOf [] = [] := rfl

/-- The first byte of a bit string of 8 bits or more (R71). -/
theorem bytesOf_of_le {b : Bits} (h : 8 ≤ b.length) : bytesOf b = byteOf (b.take 8) :: bytesOf (b.drop 8) := by
  unfold bytesOf
  have hn : b.length / 8 = (b.length - 8) / 8 + 1 := by omega
  rw [List.length_drop, hn, List.range_succ_eq_map, List.map_cons, List.map_map]
  simp only [Nat.mul_zero, List.drop_zero, List.drop_drop, List.cons.injEq, true_and]
  refine List.map_congr_left fun j _ => ?_
  simp only [Function.comp_apply]
  rw [show 8 * (j + 1) = 8 + 8 * j by omega]

theorem bytesOf_of_lt {b : Bits} (h : b.length < 8) : bytesOf b = [] := by
  simp [bytesOf, Nat.div_eq_of_lt h]

theorem bytesOf_length (b : Bits) : (bytesOf b).length = b.length / 8 := by simp [bytesOf]

/-- Everything the drain does (R131): it emits the whole bytes of the buffer, in order, and keeps the last bits. -/
theorem drain_eq (cap : Nat) (fuel : Nat) (buf : Bits) (out : List Byte) (h : buf.length ≤ fuel) :
    drain cap fuel buf out =
      (emitAll cap out (bytesOf buf)).bind fun o => .ok (buf.drop (8 * (buf.length / 8)), o) := by
  induction fuel generalizing buf out with
  | zero =>
    obtain rfl : buf = [] := List.length_eq_zero_iff.1 (by omega)
    simp [drain, bytesOf_nil]
  | succ fuel ih =>
    unfold drain
    split
    · next h8 =>
      rw [bytesOf_of_le h8, emitAll_cons, Res.bind_assoc]
      congr 1
      funext o
      rw [ih _ _ (by simp; omega), List.drop_drop, List.length_drop,
        show 8 + 8 * ((buf.length - 8) / 8) = 8 * (buf.length / 8) by omega]
    · next h8 =>
      rw [bytesOf_of_lt (by omega), Nat.div_eq_of_lt (by omega)]
      simp

/-! ## The header -/

@[simp] theorem headerEntry_length (ft : List (Nat × Count)) (s : Nat) : (headerEntry ft s).length = 5 := rfl

/-- The header has `3 + 5*N` bytes (R72). -/
theorem header_length (ft : List (Nat × Count)) : (header ft).length = 3 + 5 * (presentSymbols ft).length := by
  simp [header, List.length_flatMap, Nat.mul_comm]; omega

/-- The header depends on the counts alone (R74). -/
theorem header_congr {ft ft' : List (Nat × Count)} (h : ∀ s, s < 256 → ftGet ft s = ftGet ft' s) :
    header ft = header ft' := by
  unfold header
  rw [presentSymbols_congr h]
  congr 1
  refine List.flatMap_congr fun s hs => ?_
  rw [headerEntry, headerEntry, h s (mem_presentSymbols.1 hs).1]

/-! ## The code table -/

/-- Recording a code (R121) sets that symbol's entry and no other. -/
theorem ctGet_setCode (ct : List (Nat × CodeEntry)) (a b : Nat) (c : Bits) :
    ctGet (setCode ct a c) b = if b = a then codeEntry c else ctGet ct b := ctGet_ctPut _ _ _ _

/-- A recorded code reads back (R121, R21). -/
theorem codeOf_setCode {ct : List (Nat × CodeEntry)} {a : Nat} {c : Bits} (h1 : 1 ≤ c.length)
    (h : c.length ≤ Config.codeMax) (b : Nat) : codeOf (setCode ct a c) b = if b = a then some c else codeOf ct b := by
  have hl := codeEntry_len h
  have hne : (codeEntry c).len ≠ 0#8 := fun e => by rw [e] at hl; simp at hl; omega
  unfold codeOf
  rw [ctGet_setCode]
  by_cases hb : b = a
  · rw [if_pos hb, if_pos hb, if_neg hne, codeBits_codeEntry h]
  · rw [if_neg hb, if_neg hb]

end Sys2Proof.Machine
end

