-- ==== Sys2Proof/Laws/Step.lean ====
section
/-! SUPPORT. What a step and a host move do, once: the cases of a step, and what each kind of move answers. -/

namespace Sys2Proof.Machine

/-- Everything a step can be: idle, or the next move of the host made in the state with the moves after it. -/
theorem step_cases (s : State) :
    (s.script = [] ∧ step s = .next s) ∨
      ∃ m ms, s.script = m :: ms ∧ step s = hostMove m { s with script := ms } := by
  unfold step nextMove
  cases h : s.script with
  | nil => exact .inl ⟨rfl, rfl⟩
  | cons m ms => exact .inr ⟨m, ms, rfl, rfl⟩

theorem step_of_script_cons {s : State} {m : HostMove} {ms : List HostMove} (h : s.script = m :: ms) :
    step s = hostMove m { s with script := ms } := by
  unfold step nextMove; simp [h]

/-- Everything a write can be (R26, R52): no such location, ignored while BUSY, or its effect. -/
theorem hostWrite_cases (l : Loc) (w : State → Host.Outcome State Fault Refusal) (s : State) :
    (l.inRange s.params = false ∧ hostWrite l w s = .refused (.noSuchLocation l)) ∨
      (l.inRange s.params = true ∧ s.busy = true ∧ hostWrite l w s = .next s) ∨
      (l.inRange s.params = true ∧ s.busy = false ∧ hostWrite l w s = w s) := by
  unfold hostWrite
  cases l.inRange s.params <;> cases s.busy <;> simp

theorem hostWrite_of_idle {l : Loc} {s : State} (hl : l.inRange s.params = true) (hb : s.busy = false)
    (w : State → Host.Outcome State Fault Refusal) : hostWrite l w s = w s := by
  simp [hostWrite, hl, hb]

/-- A read or write of an index outside its memory has no meaning (R26, U10). -/
theorem hostRead_of_outside {l : Loc} {s : State} (hl : l.inRange s.params = false) :
    hostRead l s = .refused (.noSuchLocation l) := by
  simp [hostRead, hl]

theorem hostWrite_of_outside {l : Loc} {s : State} (hl : l.inRange s.params = false)
    (w : State → Host.Outcome State Fault Refusal) : hostWrite l w s = .refused (.noSuchLocation l) := by
  simp [hostWrite, hl]

/-- A read changes nothing but the host's record of the values it received (R43: no read has a side effect). -/
theorem hostRead_next_cases {l : Loc} {s t : State} (h : hostRead l s = .next t) : ∃ v, t = giveHost v s := by
  unfold hostRead at h
  split at h
  · simp at h
  · split at h
    · simp at h
    · unfold readIdle at h
      split at h
      · simp at h
      · exact ⟨_, by simpa using h.symm⟩
      · unfold readSpecified at h; split at h
        · exact ⟨_, by simpa using h.symm⟩
        · simp at h
      · exact ⟨_, by simpa using h.symm⟩
      · unfold readRo at h
        split at h
        · exact ⟨_, by simpa using h.symm⟩
        · exact ⟨_, by simpa using h.symm⟩
        · exact ⟨_, by simpa using h.symm⟩
        · exact ⟨_, by simpa using h.symm⟩
        · exact ⟨_, by simpa using h.symm⟩
        · split at h
          · unfold readSpecified at h; split at h
            · exact ⟨_, by simpa using h.symm⟩
            · simp at h
          · simp at h
        · exact ⟨_, by simpa using h.symm⟩
        · exact ⟨_, by simpa using h.symm⟩

/-- The word placed for the next step is the one it takes. -/
theorem step_withFetchWord (s : State) (nbits w : Nat) :
    step (s.withFetchWord nbits w) =
      startCommand (BitVec.ofNat 8 (w % 2 ^ nbits)) { s with status := setBusy false s.status } := by
  unfold step nextMove State.withFetchWord withCommand hostMove
  simp only
  rw [hostWrite_of_idle rfl]
  simp [State.busy, setBusy]

end Sys2Proof.Machine
end

