-- ==== Sys2Proof/Tests/Slice0.lean ====
section
/-! SUPPORT. The model's own tests: the checks of WellFormed on ill-formed terms, the decoding of every command from
its word written out, one-step tests with the values of `95_test_vectors.md` and of the rules' worked examples, and
for every statement with hypotheses a concrete state that meets them. -/

open Sys2Proof Sys2Proof.Machine

namespace Sys2Proof.Tests

/-- The field of the next state, if there is one. -/
def after {α : Type} (o : Host.Outcome State Fault Refusal) (f : State → α) : Option α :=
  match o with
  | .next t    => some (f t)
  | .fault _   => none
  | .refused _ => none

/-- A check of the next state, if there is one. -/
def holds (o : Host.Outcome State Fault Refusal) (p : State → Bool) : Bool := after o p == some true

theorem exists_of_holds {o : Host.Outcome State Fault Refusal} {p : State → Bool} (h : holds o p = true) :
    ∃ t, o = .next t ∧ p t = true := by
  unfold holds after at h
  cases o with
  | next t => exact ⟨t, rfl, by simpa using h⟩
  | fault r => simp at h
  | refused r => simp at h

theorem exists_next {o : Host.Outcome State Fault Refusal} (h : holds o (fun _ => true) = true) : ∃ t, o = .next t :=
  (exists_of_holds h).imp fun _ ht => ht.1

/-- The reset state with the input bytes `x` loaded, the table `ft`, the codes `ct` and `OUT_CAP = cap`. -/
def st (x : List Byte) (ft : List (Nat × Count)) (ct : List (Nat × CodeEntry)) (cap : Nat) : State :=
  { State.reset with
    params := { inCap := 64#32, outCap := BitVec.ofNat 32 cap }, inMem := Memory.ofBytes x,
    inLen := BitVec.ofNat 32 x.length, ft := ft, ct := ct }

/-- The table `a:2, b:1, c:1` of the source's second example. -/
def abc : List (Nat × Count) := [(0x61, 2#32), (0x62, 1#32), (0x63, 1#32)]

/-- Its codes (R126): `"1"`, `"01"`, `"00"`. -/
def abcCodes : List (Nat × CodeEntry) :=
  [(0x61, codeEntry [true]), (0x62, codeEntry [false, true]), (0x63, codeEntry [false, false])]

/-- The one-entry table of the source's first example. -/
def lone : List (Nat × Count) := [(0x41, 3#32)]

/-- The arena of the one-entry table (R111). -/
def loneNodes : List (Nat × Node) := [(65, leafNode 3#40), (256, leafNode 0#40), (257, internalNode 3#40 65 256)]

/-- A state with the one-entry arena. -/
def loneState : State := { st [] lone [(65, codeEntry [false])] 64 with node := loneNodes, root := rootWord true 257#9 }

/-- A state with two specified bytes of OUT and one written byte of IN. -/
def readState : State :=
  { loneState with inMem := [(63, 5#8)], outMem := [(0, 7#8), (1, 8#8)], outLen := 2#32 }

/-- The input 61 61 62 63. -/
def aabc : List Byte := [0x61#8, 0x61#8, 0x62#8, 0x63#8]

/-- An input of nine codes of two bits. -/
def nineC : List Byte := List.replicate 9 0x63#8

/-- The entry count a header claims. -/
def claimed (x : List Byte) : Nat := be16 (x.getD 1 0#8) (x.getD 2 0#8)

/-- `s` with one host move pending. -/
def pend (m : HostMove) (s : State) : State := { s with script := [m] }

/-- A state in which a command is executing; only the claims about BUSY are about such states. -/
def busyState : State := { st [] [] [] 64 with status := 1#8 }

/-! ## WellFormed refuses each kind of ill-formed term -/

theorem test_wf_instructions :
    ∀ i ∈ [Instr.fcount, .build, .derive, .pack, .unpack, .compress, .decompress, .clear], i.wf = true := by decide
theorem test_wf_word_zero : wordWf 0x00#8 = false := by decide
theorem test_wf_word_nine : wordWf 0x09#8 = false := by decide
theorem test_wf_word_legal : wordWf 0x01#8 = true ∧ wordWf 0x08#8 = true := by decide
theorem test_wf_read_cmd : (HostMove.read .cmd).wf ⟨64#32, 64#32⟩ = false := by decide
theorem test_wf_read_in : (HostMove.read (.inp 64)).wf ⟨64#32, 64#32⟩ = false := by decide
theorem test_wf_read_out : (HostMove.read (.readOnly (.out 64))).wf ⟨64#32, 64#32⟩ = false := by decide
theorem test_wf_read_node : (HostMove.read (.readOnly (.node 512))).wf ⟨64#32, 64#32⟩ = false := by decide
theorem test_wf_read_ct : (HostMove.read (.readOnly (.ct 256))).wf ⟨64#32, 64#32⟩ = false := by decide
theorem test_wf_write_cmd : (HostMove.writeCmd 0xFF#8).wf ⟨64#32, 64#32⟩ = false := by decide
theorem test_wf_write_in : (HostMove.writeIn 64 0#8).wf ⟨64#32, 64#32⟩ = false := by decide
theorem test_wf_write_ft : (HostMove.writeFt 256 0#32).wf ⟨64#32, 64#32⟩ = false := by decide
theorem test_wf_write_inLen : (HostMove.writeInLen 65#32).wf ⟨64#32, 64#32⟩ = false := by decide
theorem test_wf_write_readOnly : (HostMove.writeReadOnly (.node 512)).wf ⟨64#32, 64#32⟩ = false := by decide
theorem test_wf_last_indices :
    (HostMove.read (.inp 63)).wf ⟨64#32, 64#32⟩ = true ∧ (HostMove.writeInLen 64#32).wf ⟨64#32, 64#32⟩ = true ∧
    (HostMove.read (.readOnly (.node 511))).wf ⟨64#32, 64#32⟩ = true := by decide

/-! ## Decoding: the words of R62 -/

theorem test_decode_fcount : decode 0b00000001#8 = .ok .fcount := by rfl
theorem test_decode_build : decode 0b00000010#8 = .ok .build := by rfl
theorem test_decode_derive : decode 0b00000011#8 = .ok .derive := by rfl
theorem test_decode_pack : decode 0b00000100#8 = .ok .pack := by rfl
theorem test_decode_unpack : decode 0b00000101#8 = .ok .unpack := by rfl
theorem test_decode_compress : decode 0b00000110#8 = .ok .compress := by rfl
theorem test_decode_decompress : decode 0b00000111#8 = .ok .decompress := by rfl
theorem test_decode_clear : decode 0b00001000#8 = .ok .clear := by rfl
theorem test_decode_reserved : decode 0b00001001#8 = .error (.reservedOpcode 0x09#8) := by rfl
theorem test_decode_table_word : decodeTableWord 8 6 = some .compress ∧ decodeTableWord 8 9 = none := by decide
theorem test_opcode_rows_disjoint :
    opcodeTable.Pairwise (fun a b => a.value &&& (a.mask &&& b.mask) ≠ b.value &&& (a.mask &&& b.mask)) := by decide

/-! ## One step of each instruction -/

/-- R90's example. -/
theorem test_fcount_counts : after (exec .fcount (st aabc [(9, 7#32)] [] 64)) State.ft = some abc := by decide
/-- R92. -/
theorem test_fcount_empty : after (exec .fcount (st [] abc [] 64)) (fun t => (t.ft, t.status)) = some ([], 0x04#8) := by
  decide
/-- R111, second table. -/
theorem test_build_abc :
    after (exec .build (st [] abc [] 64)) (fun t => (t.node, t.root)) =
      some ([(0x61, leafNode 2#40), (0x62, leafNode 1#40), (0x63, leafNode 1#40), (257, internalNode 2#40 0x63 0x62),
        (258, internalNode 4#40 257 0x61)], 0x0302#16) := by decide
/-- R111, first table. -/
theorem test_build_one_entry :
    after (exec .build (st [] lone [] 64)) (fun t => (t.node, t.root)) = some (loneNodes, 0x0301#16) := by decide
/-- R126, the third row. -/
theorem test_derive_abc :
    after (exec .derive { st [] [] [] 64 with
      node := [(0x61, leafNode 2#40), (0x62, leafNode 1#40), (0x63, leafNode 1#40), (257, internalNode 2#40 0x63 0x62),
        (258, internalNode 4#40 257 0x61)], root := 0x0302#16 }) State.ct =
      some [(0x61, ⟨1#8, 1#255⟩), (0x62, ⟨2#8, 1#255⟩), (0x63, ⟨2#8, 0#255⟩)] := by decide
/-- R126, the second row: no entry for the synthetic leaf. -/
theorem test_derive_one_entry : after (exec .derive loneState) State.ct = some [(0x41, ⟨1#8, 0#255⟩)] := by decide
/-- R139, the second row. -/
theorem test_pack_abc :
    after (exec .pack (st aabc [] abcCodes 64)) (fun t => (t.outMem, t.outLen, t.pad)) =
      some (Memory.ofBytes [0xD0#8, 0x02#8], 2#32, 2#8) := by decide
/-- R138: a byte without a code. -/
theorem test_pack_missing_code :
    after (exec .pack (st [0x61#8, 0x64#8] [] abcCodes 64)) (fun t => (t.status, t.errcode, t.outLen)) =
      some (0x02#8, 5#8, 0#32) := by decide
/-- R158: `D0 02`. -/
theorem test_unpack_abc :
    after (exec .unpack (st [0xD0#8, 0x02#8] abc [] 64)) (fun t => (t.outMem, t.outLen, t.pad)) =
      some (Memory.ofBytes aabc, 4#32, 2#8) := by decide
/-- R158: `20 05` reaches the synthetic leaf at bit 2. -/
theorem test_unpack_synthetic :
    after (exec .unpack (st [0x20#8, 0x05#8] lone [] 64)) (fun t => (t.errcode, t.node)) = some (6#8, loneNodes) := by
  decide
/-- R170, the first row. -/
theorem test_compress_lone :
    after (exec .compress (st [0x41#8, 0x41#8, 0x41#8] [] [] 64)) (fun t => (t.outMem, t.outLen, t.pad, t.status)) =
      some (Memory.ofBytes [0x01#8, 0x00#8, 0x01#8, 0x41#8, 0x00#8, 0x00#8, 0x00#8, 0x03#8, 0x00#8, 0x05#8], 10#32, 5#8,
        0x00#8) := by decide
/-- R168. -/
theorem test_compress_empty :
    after (exec .compress (st [] abc abcCodes 64)) (fun t => (t.outMem, t.status, t.ct)) =
      some (Memory.ofBytes [0x01#8, 0x00#8, 0x00#8, 0x00#8], 0x04#8, []) := by decide
/-- R176, the first row. -/
theorem test_decompress_lone :
    after (exec .decompress (st [0x01#8, 0x00#8, 0x01#8, 0x41#8, 0x00#8, 0x00#8, 0x00#8, 0x03#8, 0x00#8, 0x05#8] abc [] 64))
      (fun t => ((t.outMem, t.outLen, t.pad), t.ft, t.root)) =
      some ((Memory.ofBytes [0x41#8, 0x41#8, 0x41#8], 3#32, 5#8), lone, 0x0301#16) := by decide
/-- R176: `01 01 01 00`, N = 257; the tables stay. -/
theorem test_decompress_too_many_entries :
    after (exec .decompress (st [0x01#8, 0x01#8, 0x01#8, 0x00#8] abc [] 64)) (fun t => (t.errcode, t.ft)) =
      some (2#8, abc) := by decide
/-- R180. -/
theorem test_clear :
    after (exec .clear { loneState with inMem := [(0, 7#8)], status := 2#8, errcode := 5#8, pad := 3#8 })
      (fun t => (t.node, t.root, t.status, t.inMem)) = some ([], 0#16, 0#8, [(0, 7#8)]) := by decide
/-- R181's example, with a table that stays. -/
theorem test_illegal_command :
    after (step (pend (.writeCmd 0x00#8) loneState)) (fun t => (t.status, t.errcode, t.node)) =
      some (0x02#8, 7#8, loneNodes) := by decide
/-- R26: the first index outside NODE names no location. -/
theorem test_read_outside :
    step (pend (.read (.readOnly (.node 512))) loneState) = .refused (.noSuchLocation (.readOnly (.node 512))) := by rfl
/-- R78's example. -/
theorem test_read_node :
    after (step (pend (.read (.readOnly (.node 257))) loneState)) State.reads = some [0xC000000000C8300] := by decide
/-- The word placed for the next step is the one that runs. -/
theorem test_withFetchWord :
    after (step (State.reset.withFetchWord 8 6)) (fun t => (t.outMem, t.status)) =
      some (Memory.ofBytes [0x01#8, 0x00#8, 0x00#8, 0x00#8], 0x04#8) := by decide

/-! ## The script notation of R81, R82 -/

/-- `RUN FCOUNT` after reset: the command, then the poll reads STATUS 0x04. -/
theorem test_script_run :
    after (Host.Core.run core 2 { State.reset with script := lineRun .fcount }) (fun t => (t.reads, t.script)) =
      some ([4], []) := by decide
/-- `LOAD IN, 41 42` and `LOAD IN,` with no bytes. -/
theorem test_script_loadIn :
    lineLoadIn [0x41#8, 0x42#8] = [.writeIn 0 0x41#8, .writeIn 1 0x42#8, .writeInLen 2#32] ∧
      lineLoadIn [] = [.writeInLen 0#32] := by decide
/-- `LOADFT 0x41:3`: 256 writes. -/
theorem test_script_loadFt :
    (lineLoadFt lone).length = 256 ∧ (lineLoadFt lone)[0x41]? = some (.writeFt 0x41 3#32) ∧
      (lineLoadFt lone)[0]? = some (.writeFt 0 0#32) := by decide +kernel
/-- `COPY OUT, IN` when OUT holds one byte 41, and `EXPECT OUT` of one byte. -/
theorem test_script_copy :
    lineCopyOutIn [0x41#8] =
        [.read (.readOnly .outLen), .read (.readOnly (.out 0)), .writeIn 0 0x41#8, .writeInLen 1#32] ∧
      lineExpectOut 1 = [.read (.readOnly .outLen), .read (.readOnly (.out 0))] := by decide
/-- The result sequence of R29. -/
theorem test_result : readState.result = some [7#8, 8#8] ∧ State.reset.result = some [] := by decide

/-! ## Witnesses: concrete states that meet the hypotheses of the statements -/

/-- ReservedWordIsIllegalCommand: the first and last word of each reserved range, and of the legal one. -/
theorem test_witness_ReservedWordIsIllegalCommand :
    (∀ v ∈ [0x00#8, 0x09#8, 0xFF#8], (v = 0x00#8 ∨ 0x09#8 ≤ v) ∧
      (pend (.writeCmd v) State.reset).script = [.writeCmd v] ∧ (pend (.writeCmd v) State.reset).busy = false) ∧
    (∀ v ∈ [0x01#8, 0x08#8], ¬ (v = 0x00#8 ∨ 0x09#8 ≤ v)) := by decide

theorem test_witness_StepRunsDecodedCommand :
    (pend (.writeCmd 0x08#8) State.reset).script = [.writeCmd 0x08#8] ∧
    (pend (.writeCmd 0x08#8) State.reset).busy = false ∧ decode 0x08#8 = .ok .clear := ⟨rfl, rfl, rfl⟩

theorem test_witness_CommandWriteWhileBusyIsIgnored :
    (pend (.writeCmd 0x01#8) busyState).script = [.writeCmd 0x01#8] ∧ (pend (.writeCmd 0x01#8) busyState).busy = true := by
  decide

/-- AccessWhileBusy: each clause, at the last index of its memory. -/
theorem test_witness_AccessWhileBusy :
    busyState.busy = true ∧
    (pend (.writeInLen 64#32) busyState).script = [.writeInLen 64#32] ∧
    63 < busyState.params.inCap.toNat ∧ (pend (.writeIn 63 0#8) busyState).script = [.writeIn 63 0#8] ∧
    (pend (.writeFt 255 1#32) busyState).script = [.writeFt 255 1#32] ∧
    RoLoc.inRange busyState.params (.node 511) = true ∧
    (pend (.writeReadOnly (.node 511)) busyState).script = [.writeReadOnly (.node 511)] ∧
    (pend (.read (.readOnly .status)) busyState).script = [.read (.readOnly .status)] ∧
    Loc.ft 255 ≠ .readOnly .status ∧ Loc.inRange busyState.params (.ft 255) = true ∧
    (pend (.read (.ft 255)) busyState).script = [.read (.ft 255)] := by decide

theorem test_witness_IdleBlockKeepsAllState : loneState.script = [] := rfl

/-- ReadReturnsTheWholeLocation: each clause, at the boundary indices. -/
theorem test_witness_ReadReturnsTheWholeLocation :
    readState.busy = false ∧
    (∀ l ∈ [Loc.cmd, .inLen, .inp 63, .inp 0, .ft 255, .readOnly .status, .readOnly .errcode, .readOnly .outLen,
        .readOnly .pad, .readOnly .root, .readOnly (.out 1), .readOnly (.out 2), .readOnly (.node 511),
        .readOnly (.ct 255)],
      (pend (.read l) readState).script = [.read l] ∧ l.inRange readState.params = true) ∧
    readState.inAt 63 = some 5#8 ∧ readState.inAt 0 = none ∧ 1 < readState.outLen.toNat ∧
    readState.outAt 1 = some 8#8 ∧ readState.outLen.toNat ≤ 2 := by decide

/-- WriteReplacesTheWholeLocation: each clause, at the boundary values. -/
theorem test_witness_WriteReplacesTheWholeLocation :
    loneState.busy = false ∧
    (64#32).toNat ≤ loneState.params.inCap.toNat ∧
    (pend (.writeInLen 64#32) loneState).script = [.writeInLen 64#32] ∧
    loneState.params.inCap.toNat < (65#32).toNat ∧
    (pend (.writeInLen 65#32) loneState).script = [.writeInLen 65#32] ∧
    63 < loneState.params.inCap.toNat ∧ (pend (.writeIn 63 1#8) loneState).script = [.writeIn 63 1#8] ∧
    (pend (.writeFt 255 0#32) loneState).script = [.writeFt 255 0#32] ∧
    (pend (.writeReadOnly .status) loneState).script = [.writeReadOnly .status] ∧
    RoLoc.inRange loneState.params .status = true := by decide

/-- IndexOutsideNamesNoLocation: the first index outside each memory. -/
theorem test_witness_IndexOutsideNamesNoLocation :
    loneState.params.inCap.toNat ≤ 64 ∧ (pend (.read (.inp 64)) loneState).script = [.read (.inp 64)] ∧
    loneState.params.outCap.toNat ≤ 64 ∧
    (pend (.writeReadOnly (.out 64)) loneState).script = [.writeReadOnly (.out 64)] ∧
    (pend (.writeFt 256 1#32) loneState).script = [.writeFt 256 1#32] ∧
    (pend (.read (.readOnly (.ct 256))) loneState).script = [.read (.readOnly (.ct 256))] ∧
    (pend (.read (.readOnly (.node 512))) loneState).script = [.read (.readOnly (.node 512))] := by decide

theorem test_witness_ResetMoveGivesResetState :
    (pend .reset busyState).script = [.reset] ∧ (pend .reset busyState).busy = true := by decide

theorem test_witness_FcountCountsEveryByte :
    (st aabc abc [] 64).input = aabc.map some ∧ (st [] abc [] 64).input = ([] : List Byte).map some := by decide

theorem test_witness_FcountLaws :
    (st aabc [] [] 64).input = aabc.map some ∧ ∃ t, exec .fcount (st aabc [] [] 64) = .next t :=
  ⟨by decide, exists_next (by decide)⟩

/-- `s` with the operand `x`, an element `none` for a byte that was never written. -/
def gaps (x : List (Option Byte)) (s : State) : State :=
  { s with
    inMem := x.zipIdx.filterMap (fun e => e.1.map fun v => (e.2, v)), inLen := BitVec.ofNat 32 x.length }

/-- UnwrittenOperandByteStops, the clauses of FCOUNT, COMPRESS, PACK and UNPACK: an unwritten byte after the bytes whose
codes fill OUT exactly; an unwritten trailer; an unwritten payload byte at the walk's start and inside a code. -/
theorem test_witness_UnwrittenOperandByteStops :
    (none ∈ (gaps (nineC.map some ++ [none]) (st [] [] abcCodes 2)).input ∧
      (gaps (nineC.map some ++ [none]) (st [] [] abcCodes 2)).input = nineC.map some ++ none :: [] ∧
      AllCoded abcCodes nineC ∧ (codeString abcCodes nineC).length / 8 ≤ (st [] [] abcCodes 2).params.outCap.toNat) ∧
    (gaps [some 0xD0#8, none] (st [] abc [] 64)).input = [some 0xD0#8] ++ [none] ∧
    ((gaps [none, some 0x07#8] (st [] abc [] 0)).input = ([] : List Byte).map some ++ none :: ([] ++ [some 0x07#8]) ∧
      ([] : List Byte).flatMap bits8 = codeString (tableCodes abc) [] ++ []) ∧
    ((gaps [some 0xD2#8, none, some 0x00#8] (st [] abc [] 5)).input = [0xD2#8].map some ++ none :: ([] ++ [some 0x00#8]) ∧
      AllPresent abc [0x61#8, 0x61#8, 0x62#8, 0x63#8, 0x61#8] ∧
      [0xD2#8].flatMap bits8 = codeString (tableCodes abc) [0x61#8, 0x61#8, 0x62#8, 0x63#8, 0x61#8] ++ [false] ∧
      codeOf (tableCodes abc) 0x62 = some [false, true] ∧ [false] <+: [false, true] ∧ [false] ≠ [false, true] ∧
      [0x61#8, 0x61#8, 0x62#8, 0x63#8, 0x61#8].length ≤ (st [] abc [] 5).params.outCap.toNat) := by decide

/-- A header of two entries whose second entry lacks its last byte. -/
def cutHeader : List Byte :=
  [0x01#8, 0x00#8, 0x02#8, 0x41#8, 0x00#8, 0x00#8, 0x00#8, 0x01#8, 0x42#8, 0x00#8, 0x00#8, 0x00#8]

/-- UnwrittenOperandByteStops, the clauses of DECOMPRESS: an unwritten version byte, count byte and last byte of the last
entry; an unwritten trailer after the header. -/
theorem test_witness_UnwrittenOperandByteStops_decompress :
    ((gaps [none, some 0#8, none] State.reset).input = none :: [some 0#8, none] ∧
      3 ≤ (gaps [none, some 0#8, none] State.reset).input.length) ∧
    (gaps [some 0x01#8, none, some 0#8] State.reset).input = some 0x01#8 :: none :: some 0#8 :: [] ∧
    (gaps [some 0x01#8, some 0#8, none] State.reset).input = some 0x01#8 :: some 0#8 :: none :: [] ∧
    ((gaps (cutHeader.map some ++ [none]) State.reset).input = cutHeader.map some ++ none :: [] ∧
      3 ≤ cutHeader.length ∧ cutHeader.getD 0 0#8 = 0x01#8 ∧ claimed cutHeader ≤ 256 ∧
      cutHeader.length < 3 + 5 * claimed cutHeader ∧
      3 + 5 * claimed cutHeader ≤ (gaps (cutHeader.map some ++ [none]) State.reset).input.length ∧
      be32 (cutHeader.getD 4 0#8) (cutHeader.getD 5 0#8) (cutHeader.getD 6 0#8) (cutHeader.getD 7 0#8) ≠ 0#32 ∧
      cutHeader.length < 8 + 5 * 1) ∧
    (Table.wf 256 0#32 lone ∧
      (gaps ((header lone).map some ++ [none]) (st [] [] [] 4)).input = (header lone).map some ++ [none] ∧
      (gaps [none] (st [] lone [] 4)).ft = lone ∧ (gaps [none] (st [] lone [] 4)).input = [none] ∧
      (gaps [none] (st [] lone [] 4)).params = (gaps ((header lone).map some ++ [none]) (st [] [] [] 4)).params) ∧
    exec .unpack (gaps [none] (st [] lone [] 4)) = .refused .unwrittenInput :=
  ⟨by decide, by decide, by decide, by decide, by decide, rfl⟩

/-- BuildMergesTheTwoLeast: the first merge of the table `a:2, b:1, c:1`, with `a` left for the second. -/
theorem test_witness_BuildMergesTheTwoLeast :
    ∃ t, exec .build (st [] abc [] 64) = .next t ∧
      decide ((t.nodeAt 257).valid = true ∧ (t.nodeAt 0x61).valid = true ∧ 0x61 ≠ (t.nodeAt 257).left.toNat ∧
        0x61 ≠ (t.nodeAt 257).right.toNat) = true :=
  exists_of_holds (by decide)

/-- BuildSpecialCases: the empty table, a table with one entry, a table with two. -/
theorem test_witness_BuildSpecialCases :
    (∃ t, exec .build (st [] [] [] 64) = .next t) ∧ (∀ sym, sym < 256 → (st [] [] [] 64).ftAt sym = 0#32) ∧
    (∃ t, exec .build (st [] lone [] 64) = .next t) ∧ (st [] lone [] 64).ftAt 0x41 ≠ 0#32 ∧
    (∀ b, b < 256 → b ≠ 0x41 → (st [] lone [] 64).ftAt b = 0#32) ∧
    (∃ t, exec .build (st [] abc [] 64) = .next t) ∧ (st [] abc [] 64).ftAt 0x61 ≠ 0#32 ∧
    (st [] abc [] 64).ftAt 0x62 ≠ 0#32 :=
  ⟨exists_next (by decide), fun _ _ => rfl, exists_next (by decide), by decide, by decide +kernel,
    exists_next (by decide), by decide, by decide⟩

/-- BuildSizeAndDepth, BuildFrequenciesNeverWrap, BuildRefinesTheValueLevelBuild: a build of a table with entries. -/
theorem test_witness_BuildSizeAndDepth :
    (presentSymbols (st [] abc [] 64).ft).length = 3 ∧
    ∃ t, exec .build (st [] abc [] 64) = .next t ∧ decide (rootPresent t.root = true ∧ (t.nodeAt 258).valid = true) = true :=
  ⟨by decide, exists_of_holds (by decide)⟩

theorem test_witness_BuildFrequenciesNeverWrap :
    ∃ t, exec .build (st [] [(0, 0xFFFFFFFF#32), (1, 0xFFFFFFFF#32)] [] 64) = .next t ∧
      decide ((t.nodeAt 257).valid = true ∧ rootPresent t.root = true) = true :=
  exists_of_holds (by decide)

theorem test_witness_BuildRefinesTheValueLevelBuild : ∃ t, exec .build (st [] lone [] 64) = .next t :=
  exists_next (by decide)

/-- BuildDependsOnTheTableAlone: a BUILD and an UNPACK, from tables with the same counts. -/
theorem test_witness_BuildDependsOnTheTableAlone :
    (∀ sym, sym < 256 → (st [] abc [] 64).ftAt sym = (st [0xD0#8, 0x02#8] abc abcCodes 4).ftAt sym) ∧
    (∃ t, exec .build (st [] abc [] 64) = .next t) ∧ ∃ t, exec .unpack (st [0xD0#8, 0x02#8] abc abcCodes 4) = .next t :=
  ⟨fun _ _ => rfl, exists_next (by decide), exists_next (by decide)⟩

theorem loneNodes_below : ∀ k, k < 258 →
    ((nodeGet loneNodes k).valid = false → nodeGet loneNodes k = Node.unused) ∧
    ((nodeGet loneNodes k).valid = true → k ≠ 257 → k = 65 ∨ k = 256) := by decide +kernel

theorem loneNodes_above {k : Nat} (h : 258 ≤ k) : nodeGet loneNodes k = Node.unused := by
  refine Sparse.get_eq_default_of_below (n := 258) ?_ h
  decide

/-- The one-entry arena meets R32: the premise of the statements about DERIVE. -/
theorem test_witness_ArenaInv : ArenaInv loneState.node loneState.root where
  unused k hk := by
    rcases Nat.lt_or_ge k 258 with h | h
    · exact (loneNodes_below k h).1 hk
    · exact loneNodes_above h
  leaves := by decide +kernel
  absent h := absurd h (by decide)
  twoLeaves _ := by decide
  internals k hk := by
    rcases Nat.lt_or_ge k 258 with h | h
    · obtain rfl : k = 257 := by simp only [Config.intBase] at hk; omega
      decide
    · constructor
      · intro hv
        have : (nodeGet loneNodes k).valid = true := hv
        rw [loneNodes_above h] at this; cases this
      · rintro ⟨hv, -⟩
        rw [show leafTotal loneState.node = 2 by decide] at hv; omega
  children k hk hv := by
    rcases Nat.lt_or_ge k 258 with h | h
    · obtain rfl : k = 257 := by simp only [Config.intBase] at hk; omega
      decide
    · have : (nodeGet loneNodes k).valid = true := hv
      rw [loneNodes_above h] at this; cases this
  oneParent k hv hr := by
    have only : ∀ i, Config.intBase ≤ i → (nodeGet loneNodes i).valid = true → i = 257 := by
      intro i hi hiv
      rcases Nat.lt_or_ge i 258 with h | h
      · simp only [Config.intBase] at hi; omega
      · rw [loneNodes_above h] at hiv; cases hiv
    refine ⟨257, ⟨by decide, by decide, ?_⟩, fun i hi hiv _ => only i hi hiv⟩
    rcases Nat.lt_or_ge k 258 with h | h
    · rcases (loneNodes_below k h).2 hv hr with rfl | rfl
      · exact .inl rfl
      · exact .inr rfl
    · have : (nodeGet loneNodes k).valid = true := hv
      rw [loneNodes_above h] at this; cases this
  synthetic := by decide
  positive := by decide +kernel
  synthZero := by decide

/-- DeriveCodesTheValidLeaves, DerivedCodesArePrefixFree, DerivedCodesKraftSum, CodeWalkEndsAtItsLeaf: a DERIVE with a
tree, and a symbol it gives a code. -/
theorem test_witness_DerivedCodes :
    rootPresent loneState.root = true ∧
    ∃ t, exec .derive loneState = .next t ∧ decide (codeOf t.ct 0x41 = some [false]) = true :=
  ⟨by decide, exists_of_holds (by decide)⟩

/-- PackMakesPayloadAndTrailer: a result that fills OUT exactly. -/
theorem test_witness_PackMakesPayloadAndTrailer :
    (st aabc [] abcCodes 2).input = aabc.map some ∧ AllCoded (st aabc [] abcCodes 2).ct aabc ∧
    ((codeString (st aabc [] abcCodes 2).ct aabc).length + 7) / 8 + 1 ≤ (st aabc [] abcCodes 2).params.outCap.toNat := by
  decide

/-- PackFailsInInputOrder: a byte without a code after the bytes that fill OUT exactly; a code that overflows OUT; a
tail that does not fit. -/
theorem test_witness_PackFailsInInputOrder :
    ((st (nineC ++ [0x64#8]) [] abcCodes 2).input = nineC.map some ++ some 0x64#8 :: [] ∧
      AllCoded abcCodes nineC ∧ (ctGet abcCodes (0x64#8 : Byte).toNat).len = 0#8 ∧
      (codeString abcCodes nineC).length / 8 ≤ (st (nineC ++ [0x64#8]) [] abcCodes 2).params.outCap.toNat) ∧
    ((st (nineC ++ [0x64#8]) [] abcCodes 1).input = nineC.map some ++ [some 0x64#8] ∧
      (st (nineC ++ [0x64#8]) [] abcCodes 1).params.outCap.toNat < (codeString abcCodes nineC).length / 8) ∧
    ((st aabc [] abcCodes 1).input = aabc.map some ∧ AllCoded abcCodes aabc ∧
      (st aabc [] abcCodes 1).params.outCap.toNat < ((codeString abcCodes aabc).length + 7) / 8 + 1) := by decide

theorem test_witness_PackBitLengthLaw :
    (st aabc [] abcCodes 2).input = aabc.map some ∧
    ∃ t, exec .pack (st aabc [] abcCodes 2) = .next t ∧ decide (errBit t.status = false) = true :=
  ⟨by decide, exists_of_holds (by decide)⟩

/-- UnpackDecodesTheCodes: `D0 02` with the result filling OUT exactly; padding bits that are not zero; no payload. -/
theorem test_witness_UnpackDecodesTheCodes :
    ((st [0xD3#8, 0x02#8] abc [] 4).input = ([0xD3#8] ++ [0x02#8]).map some ∧ (2#8).toNat ≤ 7 ∧
      (2#8).toNat ≤ 8 * [0xD3#8].length ∧ AllPresent abc aabc ∧
      ([0xD3#8].flatMap bits8).take (8 * [0xD3#8].length - (2#8).toNat) = codeString (tableCodes abc) aabc ∧
      aabc.length ≤ (st [0xD3#8, 0x02#8] abc [] 4).params.outCap.toNat) ∧
    ((st [0x00#8] abc [] 0).input = (([] : List Byte) ++ [0x00#8]).map some ∧
      (([] : List Byte).flatMap bits8).take (8 * 0 - (0#8).toNat) = codeString (tableCodes abc) []) := by decide

/-- MissingTrailerIsTruncatedStream: UNPACK with IN_LEN = 0, DECOMPRESS of a header alone. -/
theorem test_witness_MissingTrailerIsTruncatedStream :
    (st [] abc [] 4).inLen = 0#32 ∧ Table.wf 256 0#32 lone ∧ (st (header lone) [] [] 4).input = (header lone).map some := by
  decide

/-- TrailerOutOfRangeIsInvalidPadding: a trailer of 8, a trailer of 1 and of 0 with no payload, and a
success. -/
theorem test_witness_TrailerOutOfRangeIsInvalidPadding :
    ((st [0x00#8, 0x08#8] lone [] 4).input = [some 0x00#8] ++ [some 0x08#8] ∧ 7 < (0x08#8).toNat) ∧
    ((st [0x01#8] lone [] 4).input = [] ++ [some 0x01#8] ∧ 8 * ([] : List (Option Byte)).length < (0x01#8).toNat) ∧
    (st [0x00#8] lone [] 4).input = [] ++ [some 0x00#8] ∧
    ∃ t, exec .unpack (st [0x00#8, 0x05#8] lone [] 4) = .next t ∧ decide (errBit t.status = false) = true :=
  ⟨by decide, by decide, by decide, exists_of_holds (by decide)⟩

/-- UndecodableBitIsInvalidCode: a bit with the empty table; the bit 1 after two bits 0 that fill OUT exactly. -/
theorem test_witness_UndecodableBitIsInvalidCode :
    ((st [0x00#8, 0x07#8] [] [] 2).input = ([0x00#8] ++ [0x07#8]).map some ∧ (7#8).toNat < 8 * [0x00#8].length ∧
      ∀ sym, sym < 256 → (st [0x00#8, 0x07#8] [] [] 2).ftAt sym = 0#32) ∧
    ((st [0x20#8, 0x05#8] lone [] 2).input = ([0x20#8] ++ [0x05#8]).map some ∧
      (st [0x20#8, 0x05#8] lone [] 2).ftAt 0x41 ≠ 0#32 ∧
      (∀ b, b < 256 → b ≠ 0x41 → (st [0x20#8, 0x05#8] lone [] 2).ftAt b = 0#32) ∧
      ([0x20#8].flatMap bits8).take (8 * [0x20#8].length - (5#8).toNat) = zeros 2 ++ true :: [] ∧
      2 ≤ (st [0x20#8, 0x05#8] lone [] 2).params.outCap.toNat) := by decide +kernel

/-- BitsEndingMidPathAreTruncated: `D0 01` of R158, the last bit 0 inside the codes of `b` and `c`. -/
theorem test_witness_BitsEndingMidPathAreTruncated :
    (st [0xD0#8, 0x01#8] abc [] 4).input = ([0xD0#8] ++ [0x01#8]).map some ∧ (1#8).toNat ≤ 8 * [0xD0#8].length ∧
    AllPresent abc aabc ∧ codeOf (tableCodes abc) 0x62 = some [false, true] ∧ [false] <+: [false, true] ∧
    ([0xD0#8].flatMap bits8).take (8 * [0xD0#8].length - (1#8).toNat) = codeString (tableCodes abc) aabc ++ [false] ∧
    aabc.length ≤ (st [0xD0#8, 0x01#8] abc [] 4).params.outCap.toNat := by decide

/-- DecodedSequenceTooLongIsIOFailure: one byte too many for OUT. -/
theorem test_witness_DecodedSequenceTooLongIsIOFailure :
    (st [0xD0#8, 0x02#8] abc [] 3).input = ([0xD0#8] ++ [0x02#8]).map some ∧ (2#8).toNat ≤ 8 * [0xD0#8].length ∧
    AllPresent abc aabc ∧
    ([0xD0#8].flatMap bits8).take (8 * [0xD0#8].length - (2#8).toNat) = codeString (tableCodes abc) aabc ++ [] ∧
    (st [0xD0#8, 0x02#8] abc [] 3).params.outCap.toNat < aabc.length := by decide

/-- PaddingBitsAreNotExamined: `00 05` and `1F 05` of R158. -/
theorem test_witness_PaddingBitsAreNotExamined :
    (st [0x00#8, 0x05#8] lone [] 4).input = ([0x00#8] ++ [0x05#8]).map some ∧
    State.input { st [0x00#8, 0x05#8] lone [] 4 with inMem := Memory.ofBytes [0x1F#8, 0x05#8] } =
      ([0x1F#8] ++ [0x05#8]).map some ∧
    ([0x00#8].flatMap bits8).take (8 * [0x00#8].length - (5#8).toNat) =
      ([0x1F#8].flatMap bits8).take (8 * [0x1F#8].length - (5#8).toNat) ∧
    ∃ t, exec .unpack (st [0x00#8, 0x05#8] lone [] 4) = .next t :=
  ⟨by decide, by decide, by decide, exists_next (by decide)⟩

theorem test_witness_UnpackInvertsPack :
    (st aabc abc abcCodes 4).ct = tableCodes (st aabc abc abcCodes 4).ft ∧ AllPresent abc aabc ∧
    (st aabc abc abcCodes 4).input = aabc.map some ∧
    (∃ t, exec .pack (st aabc abc abcCodes 4) = .next t ∧
      decide (errBit t.status = false ∧ t.outMem = Memory.ofBytes [0xD0#8, 0x02#8]) = true) ∧
    (st [0xD0#8, 0x02#8] abc [] 4).ft = (st aabc abc abcCodes 4).ft ∧
    (st [0xD0#8, 0x02#8] abc [] 4).input = [0xD0#8, 0x02#8].map some ∧
    aabc.length ≤ (st [0xD0#8, 0x02#8] abc [] 4).params.outCap.toNat :=
  ⟨by decide, by decide, by decide, exists_of_holds (by decide), rfl, by decide, by decide⟩

/-- CompressMakesTheStream: a stream of `3 + 5*1 + 1 + 1` bytes that fills OUT exactly. -/
theorem test_witness_CompressMakesTheStream :
    (st [0x41#8, 0x41#8, 0x41#8] [] [] 10).input = [0x41#8, 0x41#8, 0x41#8].map some ∧
    (stream lone [0x41#8, 0x41#8, 0x41#8]).length ≤
      (st [0x41#8, 0x41#8, 0x41#8] [] [] 10).params.outCap.toNat := by decide

/-- CompressMakesTheStream, CompressFailsOnlyOnAFullOutput: the same input with one byte less of OUT, which fails. -/
theorem test_witness_CompressFailsOnlyOnAFullOutput :
    (st [0x41#8, 0x41#8, 0x41#8] [] [] 9).params.outCap.toNat < (stream lone [0x41#8, 0x41#8, 0x41#8]).length ∧
    (st [0x41#8, 0x41#8, 0x41#8] [] [] 9).input = [0x41#8, 0x41#8, 0x41#8].map some ∧
    ∃ t, exec .compress (st [0x41#8, 0x41#8, 0x41#8] [] [] 9) = .next t ∧ decide (errBit t.status = true) = true :=
  ⟨by decide, by decide, exists_of_holds (by decide)⟩

/-- CompressOfEmptyInput: `OUT_CAP` 4 and 3. -/
theorem test_witness_CompressOfEmptyInput :
    (st [] abc [] 4).inLen = 0#32 ∧ 4 ≤ (st [] abc [] 4).params.outCap.toNat ∧
    (st [] abc [] 3).inLen = 0#32 ∧ (st [] abc [] 3).params.outCap.toNat < 4 := by decide

/-- The sequence FCOUNT, BUILD, DERIVE, PACK on one state, and COMPRESS on the same state. -/
theorem test_witness_CompressIsTheSequenceOfPrimitives :
    ∃ a b c d t, exec .fcount (st aabc [] [] 64) = .next a ∧ exec .build a = .next b ∧ exec .derive b = .next c ∧
      exec .pack c = .next d ∧ exec .compress (st aabc [] [] 64) = .next t ∧ errBit t.status = false := by
  obtain ⟨a, ha, h⟩ := exists_of_holds (o := exec .fcount (st aabc [] [] 64))
    (p := fun a => holds (exec .build a) fun b => holds (exec .derive b) fun c => holds (exec .pack c) fun _ => true)
    (by decide)
  obtain ⟨b, hb, h⟩ := exists_of_holds h
  obtain ⟨c, hc, h⟩ := exists_of_holds h
  obtain ⟨d, hd, -⟩ := exists_of_holds h
  obtain ⟨t, ht, h⟩ := exists_of_holds (o := exec .compress (st aabc [] [] 64)) (p := fun t => !errBit t.status) (by decide)
  exact ⟨a, b, c, d, t, ha, hb, hc, hd, ht, by simpa using h⟩

/-- CompositeCommandsIgnoreOldTables: two states that agree on the operand and differ in every table. -/
theorem test_witness_CompositeCommandsIgnoreOldTables :
    (st aabc [] [] 64).params = (st aabc abc abcCodes 64).params ∧ (st aabc [] [] 64).inLen = (st aabc abc abcCodes 64).inLen ∧
    (st aabc [] [] 64).inMem = (st aabc abc abcCodes 64).inMem ∧
    (∃ t, exec .compress (st aabc [] [] 64) = .next t) ∧ (∃ t, exec .compress (st aabc abc abcCodes 64) = .next t) ∧
    (∃ t, exec .decompress (st (header lone ++ [0x00#8, 0x05#8]) abc [] 64) = .next t ∧ decide (t.errcode ≠ 2#8) = true) ∧
    ∃ t, exec .decompress (st (header lone ++ [0x00#8, 0x05#8]) [] abcCodes 64) = .next t :=
  ⟨rfl, rfl, rfl, exists_next (by decide), exists_next (by decide), exists_of_holds (by decide), exists_next (by decide)⟩

/-- The seven malformed headers of R176, one for each test of R73 (two for the last). -/
def badHeaders : List (List Byte) :=
  [ [0x01#8, 0x00#8],
    [0x02#8, 0x00#8, 0x00#8, 0x00#8],
    [0x01#8, 0x01#8, 0x01#8, 0x00#8],
    [0x01#8, 0x00#8, 0x01#8, 0x41#8, 0x00#8, 0x00#8, 0x00#8],
    [0x01#8, 0x00#8, 0x01#8, 0x41#8, 0x00#8, 0x00#8, 0x00#8, 0x00#8, 0x00#8, 0x00#8],
    [0x01#8, 0x00#8, 0x02#8, 0x42#8, 0x00#8, 0x00#8, 0x00#8, 0x01#8, 0x41#8, 0x00#8, 0x00#8, 0x00#8, 0x01#8, 0x00#8, 0x00#8],
    [0x01#8, 0x00#8, 0x02#8, 0x41#8, 0x00#8, 0x00#8, 0x00#8, 0x01#8, 0x41#8, 0x00#8, 0x00#8, 0x00#8, 0x01#8, 0x00#8, 0x00#8] ]

/-- MalformedHeaderKeepsTheTables: each of the six tests, on a row of R176. -/
theorem test_witness_MalformedHeaderKeepsTheTables :
    (∀ x ∈ badHeaders, (st x abc [] 64).input = x.map some) ∧
    (badHeaders.getD 0 []).length < 3 ∧
    (badHeaders.getD 1 []).getD 0 0#8 ≠ 0x01#8 ∧
    256 < claimed (badHeaders.getD 2 []) ∧
    (badHeaders.getD 3 []).length < 3 + 5 * claimed (badHeaders.getD 3 []) ∧
    (0 < claimed (badHeaders.getD 4 []) ∧
      be32 ((badHeaders.getD 4 []).getD 4 0#8) ((badHeaders.getD 4 []).getD 5 0#8) ((badHeaders.getD 4 []).getD 6 0#8)
        ((badHeaders.getD 4 []).getD 7 0#8) = 0#32) ∧
    (0 + 1 < claimed (badHeaders.getD 5 []) ∧ (badHeaders.getD 5 []).getD 8 0#8 ≤ (badHeaders.getD 5 []).getD 3 0#8) ∧
    (0 + 1 < claimed (badHeaders.getD 6 []) ∧ (badHeaders.getD 6 []).getD 8 0#8 ≤ (badHeaders.getD 6 []).getD 3 0#8) := by
  decide

/-- DecompressDecodesTheStream: the stream of the source's first example, the result filling OUT exactly. -/
theorem test_witness_DecompressDecodesTheStream :
    Table.wf 256 0#32 lone ∧
    (st (header lone ++ ([0x00#8] ++ [0x05#8])) [] [] 3).input = (header lone ++ ([0x00#8] ++ [0x05#8])).map some ∧
    AllPresent lone [0x41#8, 0x41#8, 0x41#8] ∧
    ([0x00#8].flatMap bits8).take (8 * [0x00#8].length - (5#8).toNat) =
      codeString (tableCodes lone) [0x41#8, 0x41#8, 0x41#8] ∧
    [0x41#8, 0x41#8, 0x41#8].length ≤ (st (header lone ++ ([0x00#8] ++ [0x05#8])) [] [] 3).params.outCap.toNat := by decide

theorem test_witness_DecompressIsUnpackOfTheRest :
    Table.wf 256 0#32 lone ∧
    (st (header lone ++ [0x00#8, 0x05#8]) [] [] 3).input = (header lone).map some ++ [some 0x00#8, some 0x05#8] ∧
    (st [0x00#8, 0x05#8] lone [] 3).ft = lone ∧ (st [0x00#8, 0x05#8] lone [] 3).input = [some 0x00#8, some 0x05#8] ∧
    (st [0x00#8, 0x05#8] lone [] 3).params = (st (header lone ++ [0x00#8, 0x05#8]) [] [] 3).params ∧
    ∃ t, exec .decompress (st (header lone ++ [0x00#8, 0x05#8]) [] [] 3) = .next t :=
  ⟨by decide, by decide, rfl, by decide, rfl, exists_next (by decide)⟩

theorem test_witness_DecompressInvertsCompress :
    (st [0x41#8] [] [] 10).input = [0x41#8].map some ∧
    (∃ t, exec .compress (st [0x41#8] [] [] 10) = .next t ∧
      decide (errBit t.status = false ∧ t.outMem = Memory.ofBytes (header [(0x41, 1#32)] ++ [0x00#8, 0x07#8])) = true) ∧
    (st (header [(0x41, 1#32)] ++ [0x00#8, 0x07#8]) [] [] 1).input =
      (header [(0x41, 1#32)] ++ [0x00#8, 0x07#8]).map some ∧
    [0x41#8].length ≤ (st (header [(0x41, 1#32)] ++ [0x00#8, 0x07#8]) [] [] 1).params.outCap.toNat :=
  ⟨by decide, exists_of_holds (by decide), by decide, by decide⟩

/-- CommandsWriteOnlyTheirState, EmptyNoticeOnlyFromCountAndCompress: every command gives a next state. -/
theorem test_witness_CommandsWriteOnlyTheirState :
    ∀ i ∈ [Instr.fcount, .build, .derive, .pack, .unpack, .compress, .decompress, .clear],
      ∃ t, exec i (st aabc abc abcCodes 64) = .next t := by
  have h : ∀ i ∈ [Instr.fcount, .build, .derive, .pack, .unpack, .compress, .decompress, .clear],
      holds (exec i (st aabc abc abcCodes 64)) (fun _ => true) = true := by decide
  exact fun i hi => exists_next (h i hi)

/-- FailureLeavesTheStatedState: each of the four commands fails, and a word is no opcode. -/
theorem test_witness_FailureLeavesTheStatedState :
    (∀ i : Instr, decode 0x00#8 ≠ .ok i) ∧ ∀ i ∈ [Instr.pack, .unpack, .compress, .decompress],
      ∃ t, exec i (st aabc abc [] 1) = .next t ∧ errBit t.status = true := by
  have h : ∀ i ∈ [Instr.pack, .unpack, .compress, .decompress],
      holds (exec i (st aabc abc [] 1)) (fun t => errBit t.status) = true := by decide
  exact ⟨fun i => by cases i <;> decide, fun i hi => exists_of_holds (h i hi)⟩

theorem test_witness_EveryCommandEndsIdle :
    (st aabc abc abcCodes 64).input = aabc.map some ∧ (∃ t, exec .pack (st aabc abc abcCodes 64) = .next t) ∧
    exec .pack (gaps [none] State.reset) = .refused .unwrittenInput :=
  ⟨by decide, exists_next (by decide), rfl⟩

/-- A state with bytes in both buffers, entries in every table and a move pending. -/
def fullState : State := pend (.writeCmd 0x03#8) { readState with inLen := 64#32 }

theorem test_witness_StepKeepsCanonicalMemories :
    fullState.Canonical ∧ ∃ t, step fullState = .next t :=
  ⟨⟨by decide, by decide, by decide, by decide, by decide⟩, exists_next (by decide)⟩

theorem test_witness_StepKeepsRegistersLegal : fullState.Legal ∧ ∃ t, step fullState = .next t := by
  refine ⟨⟨by decide, by decide, by decide, by decide, by decide, by decide, by decide, ?_, by decide, by decide,
    by decide⟩, exists_next (by decide)⟩
  decide

theorem test_witness_StepKeepsTheArenaInvariant :
    ArenaInv fullState.node fullState.root ∧ ∃ t, step fullState = .next t :=
  ⟨test_witness_ArenaInv, exists_next (by decide)⟩

/-- StepKeepsTheCodesPrefixFree: the code table of the one-entry table. -/
theorem test_witness_StepKeepsTheCodesPrefixFree :
    ArenaInv fullState.node fullState.root ∧ CodesInv fullState.ct ∧ ∃ t, step fullState = .next t := by
  refine ⟨test_witness_ArenaInv, ?_, exists_next (by decide)⟩
  have other : ∀ a, a ≠ 65 → ctGet fullState.ct a = CodeEntry.absent := fun a h => by
    show Sparse.get _ [(65, codeEntry [false])] a = _
    simp [Sparse.get, Sparse.lookup_cons, h]
  have absent : ∀ a, a ≠ 65 → codeOf fullState.ct a = none := fun a h => by
    unfold codeOf; rw [other a h]; rfl
  constructor
  · intro a
    by_cases h : a = 65
    · subst h; decide
    · rw [other a h]; decide
  · intro a b p q hab ha hb
    have h1 : a = 65 := by
      by_contra h; rw [absent a h] at ha; cases ha
    have h2 : b = 65 := by
      by_contra h; rw [absent b h] at hb; cases hb
    exact absurd (h1.trans h2.symm) hab

end Sys2Proof.Tests
end

section
/-! The encodings of `30_encoding.md`: the command words (rules R60 to R63, R181) and the header of a
CompressedStream (rules R72 to R74). The header's proof reads a table in canonical form as the list of its entries:
the header is that list written out, and the entry loop of `parse_header` appends to it. -/

namespace Sys2Proof.Machine

/-! ## The command words -/

/-- The word of a command decodes to the command (R62). -/
theorem decode_encode (i : Instr) : decode (encode i) = .ok i := by
  cases i with
  | fcount => exact Laws.EncodingLegal.fcount.2.2
  | build => exact Laws.EncodingLegal.build.2.2
  | derive => exact Laws.EncodingLegal.derive.2.2
  | pack => exact Laws.EncodingLegal.pack.2.2
  | unpack => exact Laws.EncodingLegal.unpack.2.2
  | compress => exact Laws.EncodingLegal.compress.2.2
  | decompress => exact Laws.EncodingLegal.decompress.2.2
  | clear => exact Laws.EncodingLegal.clear.2.2

/-- Every legal word is the word of a command (R62). -/
theorem exists_encode_of_wordWf {v : Byte} (h : wordWf v = true) : ∃ i, encode i = v := by
  obtain ⟨h1, h8⟩ : 1 ≤ v.toNat ∧ v.toNat ≤ 8 := of_decide_eq_true h
  obtain ⟨n, hn⟩ : ∃ n, n = v.toNat := ⟨_, rfl⟩
  have hv : BitVec.ofNat 8 n = v := by simp [hn]
  rw [← hn] at h1 h8
  subst hv
  interval_cases n
  exacts [⟨.fcount, rfl⟩, ⟨.build, rfl⟩, ⟨.derive, rfl⟩, ⟨.pack, rfl⟩, ⟨.unpack, rfl⟩, ⟨.compress, rfl⟩,
    ⟨.decompress, rfl⟩, ⟨.clear, rfl⟩]

/-- The words that are no legal ones are those of the two reserved ranges (R62, R63). -/
theorem wordWf_eq_false_iff {v : Byte} : wordWf v = false ↔ v = 0x00#8 ∨ 0x09#8 ≤ v := by
  rw [wordWf, decide_eq_false_iff_not]
  bv_omega

/-- A word that is no legal one is rejected by name (R63): every row of the opcode table holds a legal word. -/
theorem decode_of_not_wordWf {v : Byte} (h : wordWf v = false) : decode v = .error (.reservedOpcode v) := by
  have rows : ∀ r ∈ opcodeTable, r.mask = 0xFF#8 ∧ wordWf r.value = true := by decide
  have noRow : opcodeTable.find? (fun r => v &&& r.mask == r.value) = none := by
    refine List.find?_eq_none.2 fun r hr hv => ?_
    obtain ⟨hm, hw⟩ := rows r hr
    have hv : v = r.value := by rwa [hm, show v &&& 0xFF#8 = v from BitVec.and_allOnes, beq_iff_eq] at hv
    rw [← hv, h] at hw
    cases hw
  rw [decode, noRow]

/-- The start of a command by a reserved word is the illegal-command response (R181, R198). -/
theorem startCommand_of_not_wordWf {v : Byte} (h : wordWf v = false) (s : State) :
    startCommand v s = .next { s with status := 0x02#8, errcode := 7#8 } := by
  rw [startCommand, decode_of_not_wordWf h]
  exact illegalCommand_eq s

/-- A write of CMD to the idle block starts what the word selects (R11). -/
theorem step_of_writeCmd {s : State} {v : Byte} {ms : List HostMove} (hs : s.script = .writeCmd v :: ms)
    (hb : s.busy = false) : step s = startCommand v { s with script := ms } := by
  rw [step_of_script_cons hs]
  exact hostWrite_of_idle (l := .cmd) (s := { s with script := ms }) rfl hb _

/-- Settles O1: the eight words are the words of the eight commands. -/
theorem commandWordsDecode : Obligations.CommandWordsDecode :=
  ⟨decode_encode .fcount, decode_encode .build, decode_encode .derive, decode_encode .pack, decode_encode .unpack,
    decode_encode .compress, decode_encode .decompress, decode_encode .clear⟩

/-- Settles O3, by the split of the words into legal and reserved ones. -/
theorem reservedWordIsIllegalCommand : Obligations.ReservedWordIsIllegalCommand := by
  intro v
  rw [← wordWf_eq_false_iff, Bool.not_eq_false]
  constructor
  · intro h
    refine ⟨decode_of_not_wordWf h, fun s ms hs hb => ?_⟩
    rw [step_of_writeCmd hs hb, startCommand_of_not_wordWf h]
  · intro h
    obtain ⟨i, rfl⟩ := exists_encode_of_wordWf h
    exact ⟨i, decode_encode i⟩

/-! ## Byte order -/

/-- A number below 2^16 is written in two bytes in just one way (R41 item 3). -/
theorem be16_eq_iff {a b : Byte} {n : Nat} (hn : n < 2 ^ 16) :
    be16 a b = n ↔ a = BitVec.ofNat 8 (n / 256) ∧ b = BitVec.ofNat 8 (n % 256) := by
  unfold be16
  bv_omega

/-- Four bytes are the bytes of the count they stand for (R41 item 3). -/
theorem be32Bytes_be32 (a b c d : Byte) : be32Bytes (be32 a b c d) = [a, b, c, d] := by
  have ha := a.isLt
  have hb := b.isLt
  have hc := c.isLt
  have hd := d.isLt
  simp only [be32Bytes, be32, List.cons.injEq, and_true]
  refine ⟨?_, ?_, ?_, ?_⟩ <;>
    · apply BitVec.eq_of_toNat_eq
      simp only [BitVec.toNat_ofNat, BitVec.extractLsb'_toNat, Nat.shiftRight_eq_div_pow]
      omega

/-! ## Tables as lists of entries -/

/-- A table stays in canonical form when an entry is appended exactly when the entry is a legal one above all the
others. -/
theorem Table.wf_append_singleton_iff {α : Type} [DecidableEq α] {n : Nat} {d : α} {t : List (Nat × α)} {e : Nat × α} :
    Table.wf n d (t ++ [e]) ↔ Table.wf n d t ∧ (∀ x ∈ t, x.1 < e.1) ∧ e.1 < n ∧ e.2 ≠ d := by
  simp only [Table.wf, Sparse.Sorted, Sparse.Below, Sparse.NoDefault, List.pairwise_append, List.pairwise_singleton,
    List.forall_mem_append, List.forall_mem_singleton]
  tauto

theorem Table.wf_of_append {α : Type} [DecidableEq α] {n : Nat} {d : α} {t u : List (Nat × α)}
    (h : Table.wf n d (t ++ u)) : Table.wf n d t := by
  obtain ⟨hs, hb, hd⟩ := h
  exact ⟨(List.pairwise_append.1 hs).1, fun e he => hb e (List.mem_append_left _ he),
    fun e he => hd e (List.mem_append_left _ he)⟩

/-- Writing an index above all the listed ones appends the entry. -/
theorem Sparse.insert_of_above {α : Type} {t : List (Nat × α)} {a : Nat} (h : ∀ e ∈ t, e.1 < a) (v : α) :
    Sparse.insert t a v = t ++ [(a, v)] := by
  induction t with
  | nil => rfl
  | cons e t ih =>
    have he : e.1 < a := h e List.mem_cons_self
    rw [Sparse.insert, if_neg (by omega), if_neg (by omega), ih fun x hx => h x (List.mem_cons_of_mem _ hx),
      List.cons_append]

/-- The entry a canonical frequency table lists for a symbol is its count (R17). -/
theorem ftGet_of_mem {n : Nat} {ft : List (Nat × Count)} (h : Table.wf n 0#32 ft) {e : Nat × Count} (he : e ∈ ft) :
    ftGet ft e.1 = e.2 := by
  have : Sparse.lookup ft e.1 = some e.2 := (Sparse.lookup_eq_some_iff h.1 _ _).2 he
  simp [ftGet, Sparse.get, this]

/-- A symbol with a count above 0 is listed (R17). -/
theorem exists_mem_of_ftGet_ne {ft : List (Nat × Count)} {s : Nat} (hs : Sparse.Sorted ft) (h : ftGet ft s ≠ 0#32) :
    ∃ c, (s, c) ∈ ft := by
  cases hl : Sparse.lookup ft s with
  | none => exact absurd (by simp [ftGet, Sparse.get, hl]) h
  | some c => exact ⟨c, (Sparse.lookup_eq_some_iff hs s c).1 hl⟩

/-- The present symbols of a canonical frequency table are the listed ones, in their order (R17). -/
theorem presentSymbols_eq_map {ft : List (Nat × Count)} (h : Table.wf 256 0#32 ft) :
    presentSymbols ft = ft.map Prod.fst := by
  have ⟨sorted, below, noDefault⟩ := h
  refine (presentSymbols_sorted ft).eq_of_mem_iff (List.pairwise_map.2 sorted) fun s => ?_
  rw [mem_presentSymbols, List.mem_map]
  constructor
  · rintro ⟨-, hs⟩
    obtain ⟨c, hc⟩ := exists_mem_of_ftGet_ne sorted hs
    exact ⟨_, hc, rfl⟩
  · rintro ⟨e, he, rfl⟩
    rw [ftGet_of_mem h he]
    exact ⟨below e he, noDefault e he⟩

/-! ## The header -/

/-- The five bytes of the header for one entry of a table (R72). -/
def entryBytes (e : Nat × Count) : List Byte := BitVec.ofNat 8 e.1 :: be32Bytes e.2

/-- The header of a canonical table: version, number of entries, the listed entries (R72, R74). -/
theorem header_eq {ft : List (Nat × Count)} (h : Table.wf 256 0#32 ft) :
    header ft = Config.hdrVersion :: BitVec.ofNat 8 (ft.length / 256) :: BitVec.ofNat 8 (ft.length % 256) ::
      ft.flatMap entryBytes := by
  have entries : ft.flatMap (fun e => headerEntry ft e.1) = ft.flatMap entryBytes :=
    List.flatMap_congr fun e he => by rw [headerEntry, ftGet_of_mem h he, entryBytes]
  simp [header, presentSymbols_eq_map h, List.flatMap_map, entries]

/-- Any five bytes are an entry (R72). -/
theorem exists_entryBytes {x : List Byte} (h : 5 ≤ x.length) : ∃ e y, e.1 < 256 ∧ x = entryBytes e ++ y := by
  obtain ⟨b0, b1, b2, b3, b4, y, rfl⟩ : ∃ b0 b1 b2 b3 b4 y, x = b0 :: b1 :: b2 :: b3 :: b4 :: y := by
    match x, h with
    | b0 :: b1 :: b2 :: b3 :: b4 :: y, _ => exact ⟨b0, b1, b2, b3, b4, y, rfl⟩
  exact ⟨(b0.toNat, be32 b1 b2 b3 b4), y, b0.isLt, by simp [entryBytes, be32Bytes_be32]⟩

/-- `prev` is the last symbol of the table `t` read so far: a symbol may follow `prev` exactly when it is above every
symbol of `t` (R73). -/
def EndsAt (t : List (Nat × Count)) (prev : Option Byte) : Prop :=
  ∀ s, s < 256 → (ascends prev (BitVec.ofNat 8 s) = true ↔ ∀ e ∈ t, e.1 < s)

theorem endsAt_nil : EndsAt [] none := fun _ _ => by simp [ascends]

theorem endsAt_append {t : List (Nat × Count)} {e : Nat × Count} (h : Table.wf 256 0#32 (t ++ [e])) :
    EndsAt (t ++ [e]) (some (BitVec.ofNat 8 e.1)) := by
  obtain ⟨-, above, he, -⟩ := Table.wf_append_singleton_iff.1 h
  intro s hs
  simp only [ascends, decide_eq_true_eq, BitVec.lt_def, BitVec.toNat_ofNat, Nat.mod_eq_of_lt he, Nat.mod_eq_of_lt hs,
    List.forall_mem_append, List.forall_mem_singleton]
  exact ⟨fun hlt => ⟨fun x hx => (above x hx).trans hlt, hlt⟩, And.right⟩

/-- One turn of the entry loop (R73): the entry is appended when the table stays canonical with it; otherwise its
count is 0 or its symbol out of order. -/
theorem parseEntries_entryBytes {t : List (Nat × Count)} {prev : Option Byte} (ht : Table.wf 256 0#32 t)
    (hp : EndsAt t prev) {e : Nat × Count} (he : e.1 < 256) (n : Nat) (x : List Byte) :
    parseEntries (n + 1) ((entryBytes e ++ x).map some) prev t =
      if Table.wf 256 0#32 (t ++ [e]) then parseEntries n (x.map some) (some (BitVec.ofNat 8 e.1)) (t ++ [e])
      else .raise .malformedHeader := by
  have turn : parseEntries (n + 1) ((entryBytes e ++ x).map some) prev t =
      if e.2 = 0#32 then .raise .malformedHeader
      else if ascends prev (BitVec.ofNat 8 e.1) = false then .raise .malformedHeader
      else parseEntries n (x.map some) (some (BitVec.ofNat 8 e.1)) (ftPut t e.1 e.2) := by
    simp [entryBytes, be32Bytes, parseEntries, be32_be32Bytes, Nat.mod_eq_of_lt he]
  have legal : Table.wf 256 0#32 (t ++ [e]) ↔ e.2 ≠ 0#32 ∧ ascends prev (BitVec.ofNat 8 e.1) = true := by
    rw [Table.wf_append_singleton_iff, hp e.1 he]
    tauto
  rw [turn]
  simp only [legal]
  by_cases hz : e.2 = 0#32
  · simp [hz]
  cases ha : ascends prev (BitVec.ofNat 8 e.1) with
  | false => simp
  | true =>
    have put : ftPut t e.1 e.2 = t ++ [e] := by
      rw [ftPut, Sparse.put, if_neg hz, Sparse.insert_of_above ((hp e.1 he).1 ha)]
    simp [hz, put]

/-- The entry loop gives the table whose entries it reads (R73). -/
theorem parseEntries_of_entries (es : List (Nat × Count)) {t : List (Nat × Count)} {prev : Option Byte}
    (hp : EndsAt t prev) (h : Table.wf 256 0#32 (t ++ es)) (y : List Byte) :
    parseEntries es.length ((es.flatMap entryBytes ++ y).map some) prev t = .ok (t ++ es) := by
  induction es generalizing t prev with
  | nil => simp [parseEntries]
  | cons e es ih =>
    rw [List.append_cons] at h ⊢
    have hte := Table.wf_of_append h
    obtain ⟨ht, -, he, -⟩ := Table.wf_append_singleton_iff.1 hte
    rw [List.flatMap_cons, List.append_assoc, List.length_cons, parseEntries_entryBytes ht hp he, if_pos hte]
    exact ih (endsAt_append hte) h

/-- Everything the entry loop can do on written bytes (R73): read the entries of a canonical table, or refuse. -/
theorem parseEntries_cases (n : Nat) (x : List Byte) {t : List (Nat × Count)} {prev : Option Byte}
    (ht : Table.wf 256 0#32 t) (hp : EndsAt t prev) :
    (∃ es y, es.length = n ∧ Table.wf 256 0#32 (t ++ es) ∧ x = es.flatMap entryBytes ++ y) ∨
      parseEntries n (x.map some) prev t = .raise .malformedHeader := by
  induction n generalizing x t prev with
  | zero => exact .inl ⟨[], x, rfl, by simpa using ht, rfl⟩
  | succ n ih =>
    by_cases hx : 5 ≤ x.length
    · obtain ⟨e, y, he, rfl⟩ := exists_entryBytes hx
      rw [parseEntries_entryBytes ht hp he]
      split
      · next hte =>
        refine (ih y hte (endsAt_append hte)).imp_left ?_
        rintro ⟨es, z, rfl, hes, rfl⟩
        exact ⟨e :: es, z, rfl, by simpa using hes, by simp⟩
      · exact .inr rfl
    · right
      match x, hx with
      | [], _ | [_], _ | [_, _], _ | [_, _, _], _ | [_, _, _, _], _ => rfl
      | _ :: _ :: _ :: _ :: _ :: _, hx => simp at hx

/-- `parse_header` once the three bytes before the entries are read (R73). -/
theorem parseHeader_cons (v n1 n0 : Byte) (x : List Byte) :
    parseHeader ((v :: n1 :: n0 :: x).map some) =
      if v = Config.hdrVersion ∧ be16 n1 n0 ≤ 256 ∧ 5 * be16 n1 n0 ≤ x.length then
        (parseEntries (be16 n1 n0) (x.map some) none []).bind fun t => .ok (t, 3 + 5 * be16 n1 n0)
      else .raise .malformedHeader := by
  simp only [parseHeader, List.map_cons, readByte_some, Res.bind_ok, List.length_map]
  by_cases hv : v = Config.hdrVersion
  · by_cases hn : be16 n1 n0 ≤ 256
    · by_cases hx : 5 * be16 n1 n0 ≤ x.length
      · rw [if_neg (by simp [hv]), if_neg (by omega), if_neg (by omega), if_pos ⟨hv, hn, hx⟩]
      · rw [if_neg (by simp [hv]), if_neg (by omega), if_pos (by omega), if_neg (by simp [hx])]
    · rw [if_neg (by simp [hv]), if_pos (by omega), if_neg (by simp [hn])]
  · rw [if_pos hv, if_neg (by simp [hv])]

/-- The header of a table, whatever follows it, is read back as the table (R73). -/
theorem parseHeader_header_append {ft : List (Nat × Count)} (h : Table.wf 256 0#32 ft) (y : List Byte) :
    parseHeader ((header ft ++ y).map some) = .ok (ft, 3 + 5 * (presentSymbols ft).length) := by
  have hlen : (presentSymbols ft).length = ft.length := by rw [presentSymbols_eq_map h, List.length_map]
  have hle : ft.length ≤ 256 := hlen ▸ presentSymbols_length_le ft
  have hn : be16 (BitVec.ofNat 8 (ft.length / 256)) (BitVec.ofNat 8 (ft.length % 256)) = ft.length :=
    (be16_eq_iff (by omega)).2 ⟨rfl, rfl⟩
  have hx : 5 * ft.length ≤ (ft.flatMap entryBytes ++ y).length := by
    have := header_length ft
    rw [header_eq h, hlen] at this
    simp only [List.length_cons] at this
    rw [List.length_append]
    omega
  rw [header_eq h]
  simp only [List.cons_append]
  rw [parseHeader_cons, hn, if_pos ⟨rfl, hle, hx⟩, parseEntries_of_entries ft endsAt_nil h, hlen]
  rfl

/-- A written byte sequence begins with a header or is malformed (R73). -/
theorem parseHeader_cases (x : List Byte) :
    (∃ ft y, Table.wf 256 0#32 ft ∧ x = header ft ++ y) ∨ parseHeader (x.map some) = .raise .malformedHeader := by
  match x with
  | [] | [_] | [_, _] => exact .inr rfl
  | v :: n1 :: n0 :: x =>
    rw [parseHeader_cons]
    split
    · next tests =>
      obtain ⟨rfl, hn, -⟩ := tests
      rcases parseEntries_cases (be16 n1 n0) x (Table.wf_nil _ _) endsAt_nil with ⟨ft, y, hlen, h, rfl⟩ | hm
      · rw [List.nil_append] at h
        obtain ⟨rfl, rfl⟩ := (be16_eq_iff (by omega)).1 hlen.symm
        exact .inl ⟨ft, y, h, by simp [header_eq h]⟩
      · exact .inr (by rw [hm]; rfl)
    · exact .inr rfl

/-- Settles O47: a sequence that begins with the header of a table is read back as that table, and every other one is
malformed. -/
theorem headerParsesExactlyWhenSerialised : Obligations.HeaderParsesExactlyWhenSerialised := by
  intro x
  refine ⟨fun ft h => ⟨fun hok => ?_, ?_⟩, (parseHeader_cases x).resolve_left⟩
  · rcases parseHeader_cases x with ⟨ft', y, hwf, rfl⟩ | hm
    · rw [parseHeader_header_append hwf] at hok
      cases hok
      exact ⟨hwf, rfl, y, rfl⟩
    · rw [hm] at hok
      cases hok
  · rintro ⟨hwf, rfl, y, rfl⟩
    exact parseHeader_header_append hwf y

end Sys2Proof.Machine
end

section
/-! FCOUNT (`40_frequency_counter.md`, rules R90 to R93): the whole next state of the command on a written operand, and
the laws of the counts. -/

namespace Sys2Proof.Machine

/-! ## The counts -/

/-- R90, R91 over the symbols: `FT[s]` is the number of occurrences of `s`, with no wrap below `2^32` bytes. -/
theorem toNat_ftGet_countBytes_of_lt {x : List Byte} (hx : x.length < 2 ^ 32) {sym : Nat} (hs : sym < 256) :
    (ftGet (countBytes x) sym).toNat = x.count (BitVec.ofNat 8 sym) := by
  simpa [Nat.mod_eq_of_lt hs] using toNat_ftGet_countBytes hx (BitVec.ofNat 8 sym)

/-- The occurrences of all the byte values together make up the sequence (R93 item 1). -/
theorem sum_count_bytes (x : List Byte) :
    ((List.range 256).map fun sym => x.count (BitVec.ofNat 8 sym)).sum = x.length := by
  have count_toNat : ∀ sym ∈ Finset.range 256, (x.map BitVec.toNat).count sym = x.count (BitVec.ofNat 8 sym) := by
    intro sym hs
    have key := List.count_map_of_injective x BitVec.toNat (fun _ _ h => BitVec.eq_of_toNat_eq h) (BitVec.ofNat 8 sym)
    rwa [BitVec.toNat_ofNat, Nat.mod_eq_of_lt (Finset.mem_range.1 hs)] at key
  have total : ∑ sym ∈ Finset.range 256, (x.map BitVec.toNat).count sym = x.length := by
    have below : ∀ a ∈ (x.map BitVec.toNat : Multiset Nat), a ∈ Finset.range 256 := by
      intro a ha
      obtain ⟨v, -, rfl⟩ := List.mem_map.1 (Multiset.mem_coe.1 ha)
      exact Finset.mem_range.2 v.isLt
    simpa using Multiset.sum_count_eq_card below
  rw [← total, Finset.sum_congr rfl count_toNat]
  rfl

/-- A symbol has a count above 0 exactly when it occurs (R93 item 2). -/
theorem ftGet_countBytes_pos_iff {x : List Byte} (hx : x.length < 2 ^ 32) {sym : Nat} (hs : sym < 256) :
    0 < (ftGet (countBytes x) sym).toNat ↔ BitVec.ofNat 8 sym ∈ x := by
  rw [toNat_ftGet_countBytes_of_lt hx hs, List.count_pos_iff]

/-- No more symbols are present than bytes were counted (R93 item 4). -/
theorem presentSymbols_countBytes_length_le {x : List Byte} (hx : x.length < 2 ^ 32) :
    (presentSymbols (countBytes x)).length ≤ x.length := by
  have occurs : presentSymbols (countBytes x) ⊆ x.map BitVec.toNat := by
    intro sym h
    obtain ⟨hs, hne⟩ := mem_presentSymbols.1 h
    have hpos : 0 < (ftGet (countBytes x) sym).toNat := by bv_omega
    exact List.mem_map.2 ⟨_, (ftGet_countBytes_pos_iff hx hs).1 hpos, by simp [Nat.mod_eq_of_lt hs]⟩
  simpa using (List.subperm_of_subset (presentSymbols_nodup _) occurs).length_le

/-! ## The command -/

/-- A written operand has IN_LEN bytes (R14). -/
theorem length_eq_of_input {s : State} {x : List Byte} (h : s.input = x.map some) : x.length = s.inLen.toNat := by
  rw [← input_length, h, List.length_map]

theorem length_lt_of_input {s : State} {x : List Byte} (h : s.input = x.map some) : x.length < 2 ^ 32 :=
  length_eq_of_input h ▸ s.inLen.isLt

/-- The successful end of a command that gives the EmptyInput notice (R92, R168). -/
theorem endCommand_noticeEmpty {s : State} (hs : s.status = statusWord true false false) :
    endCommand (noticeEmpty s) = { s with status := if s.inLen = 0#32 then 0x04#8 else 0x00#8 } := by
  unfold noticeEmpty
  split
  · simp [endCommand, hs, statusWord_notice]
  · simp [endCommand, hs, statusWord_success]

/-- FCOUNT is its body inside the command frame (R177). -/
theorem exec_fcount (s : State) :
    exec .fcount s = runFrame (fun s1 => Body.ofRes s1 (fcountBody s1) noticeEmpty) s := rfl

/-- FCOUNT on a written operand, whole (R90, R92). -/
theorem exec_fcount_of_written {s : State} {x : List Byte} (h : s.input = x.map some) :
    exec .fcount s = .next { s with
      ft := countBytes x, status := if s.inLen = 0#32 then 0x04#8 else 0x00#8, errcode := 0#8 } := by
  have body : fcountBody (beginCommand s) = .ok { beginCommand s with ft := countBytes x } := fcountBody_of_written h
  rw [exec_fcount, runFrame_of_done (by rw [body, Body.ofRes_ok]), endCommand_noticeEmpty rfl]
  rfl

/-- Settles O16: the table FCOUNT writes is the count of the operand, which never wraps. -/
theorem fcountCountsEveryByte : Obligations.FcountCountsEveryByte := by
  intro s x h
  exact ⟨countBytes x, exec_fcount_of_written h, fun _ => toNat_ftGet_countBytes_of_lt (length_lt_of_input h)⟩

/-- Settles O17: the next state holds the count of the operand, and keeps the operand, so that a second FCOUNT answers
the same state. -/
theorem fcountLaws : Obligations.FcountLaws := by
  intro s t x h ht
  have hx := length_lt_of_input h
  rw [exec_fcount_of_written h] at ht
  cases ht
  refine ⟨?_, fun _ => ftGet_countBytes_pos_iff hx, exec_fcount_of_written h, ?_⟩
  · calc ((List.range 256).map fun sym => (ftGet (countBytes x) sym).toNat).sum
      _ = ((List.range 256).map fun sym => x.count (BitVec.ofNat 8 sym)).sum :=
        congrArg List.sum (List.map_congr_left fun _ hs => toNat_ftGet_countBytes_of_lt hx (List.mem_range.1 hs))
      _ = x.length := sum_count_bytes x
      _ = s.inLen.toNat := length_eq_of_input h
  · exact le_min (length_eq_of_input h ▸ presentSymbols_countBytes_length_le hx) (presentSymbols_length_le _)

end Sys2Proof.Machine
end

section
/-! The states the merge loop of `build_tree` passes through (`41_tree_builder.md`, rules R101 to R108): the seed, one
merge, and an induction over the merges, from which every fact about the finished arena follows. -/

namespace Sys2Proof.Machine

/-! ## The seed -/

/-- The frequency of the leaf seeded at index `k` (R101, R102, R107): the count of a symbol, 0 for the synthetic
leaf. -/
def seedFreq (ft : List (Nat × Count)) (k : Nat) : Freq := if k = 256 then 0#40 else (ftGet ft k).setWidth 40

/-- Everything the seed can be (R101, R102): the leaf of a lone symbol beside the synthetic leaf, or the leaves of the
present symbols. -/
theorem seedArena_cases (ft : List (Nat × Count)) :
    (∃ s, presentSymbols ft = [s] ∧ seedArena ft = (nodePut (seedLeaves ft) 256 (leafNode 0#40), [s, 256])) ∨
      ((presentSymbols ft).length ≠ 1 ∧ seedArena ft = (seedLeaves ft, presentSymbols ft)) := by
  unfold seedArena
  split
  · next s hs => exact .inl ⟨s, hs, rfl⟩
  · next hne => exact .inr ⟨fun h => (List.length_eq_one_iff.1 h).elim hne, rfl⟩

theorem seedArena_length (ft : List (Nat × Count)) :
    (seedArena ft).2.length = if (presentSymbols ft).length = 1 then 2 else (presentSymbols ft).length := by
  rcases seedArena_cases ft with ⟨s, hs, he⟩ | ⟨hne, he⟩
  · simp [he, hs]
  · simp [he, hne]

/-- No leaf or two leaves and more are seeded, at most 256 (R105). -/
theorem seedArena_length_cases (ft : List (Nat × Count)) :
    (seedArena ft).2.length = 0 ∨ (2 ≤ (seedArena ft).2.length ∧ (seedArena ft).2.length ≤ 256) := by
  have := presentSymbols_length_le ft
  rw [seedArena_length]
  split <;> omega

theorem seedArena_nodup (ft : List (Nat × Count)) : (seedArena ft).2.Nodup := by
  rcases seedArena_cases ft with ⟨s, hs, he⟩ | ⟨-, he⟩
  · have : s ∈ presentSymbols ft := by simp [hs]
    have := (mem_presentSymbols.1 this).1
    simp [he]; omega
  · exact he ▸ presentSymbols_nodup ft

theorem lt_of_mem_seedArena {ft : List (Nat × Count)} {k : Nat} (h : k ∈ (seedArena ft).2) : k < 257 := by
  rcases seedArena_cases ft with ⟨s, hs, he⟩ | ⟨-, he⟩
  · have : s ∈ presentSymbols ft := by simp [hs]
    have := (mem_presentSymbols.1 this).1
    simp [he] at h; omega
  · rw [he] at h
    have := (mem_presentSymbols.1 h).1
    omega

/-- A symbol is seeded exactly when it is present (R101). -/
theorem mem_seedArena_iff {ft : List (Nat × Count)} {k : Nat} (hk : k < 256) :
    k ∈ (seedArena ft).2 ↔ ftGet ft k ≠ 0#32 := by
  have mem_iff : k ∈ (seedArena ft).2 ↔ k ∈ presentSymbols ft := by
    rcases seedArena_cases ft with ⟨s, hs, he⟩ | ⟨-, he⟩
    · simp [he, hs]; omega
    · rw [he]
  rw [mem_iff, mem_presentSymbols]
  exact and_iff_right hk

/-- The arena before the first merge: the leaves seeded and nothing else (R101, R102). -/
theorem nodeGet_seedArena (ft : List (Nat × Count)) (k : Nat) :
    nodeGet (seedArena ft).1 k = if k ∈ (seedArena ft).2 then leafNode (seedFreq ft k) else Node.unused := by
  rcases seedArena_cases ft with ⟨s, hs, he⟩ | ⟨-, he⟩
  · rw [he, nodeGet_nodePut, nodeGet_seedLeaves, hs]
    by_cases hk : k = 256
    · simp [hk, seedFreq]
    · simp [hk, seedFreq]
  · rw [he, nodeGet_seedLeaves]
    split
    · next hk =>
      have := (mem_presentSymbols.1 hk).1
      rw [seedFreq, if_neg (by omega)]
    · rfl

/-- The sum of all counts of a table (R107). -/
def countTotal (ft : List (Nat × Count)) : Nat := ((List.range 256).map fun sym => (ftGet ft sym).toNat).sum

theorem countTotal_le (ft : List (Nat × Count)) : countTotal ft ≤ 256 * (2 ^ 32 - 1) := by
  have := List.sum_le_card_nsmul ((List.range 256).map fun sym => (ftGet ft sym).toNat) (2 ^ 32 - 1) (by
    intro x hx
    obtain ⟨sym, -, rfl⟩ := List.mem_map.1 hx
    exact Nat.le_pred_of_lt (ftGet ft sym).isLt)
  simpa [countTotal] using this

/-- The absent symbols count nothing. -/
theorem sum_counts_presentSymbols (ft : List (Nat × Count)) :
    ((presentSymbols ft).map fun sym => (ftGet ft sym).toNat).sum = countTotal ft := by
  have filtered : ∀ l : List Nat,
      ((l.filter fun s => ftGet ft s ≠ 0#32).map fun sym => (ftGet ft sym).toNat).sum =
        (l.map fun sym => (ftGet ft sym).toNat).sum := by
    intro l
    induction l with
    | nil => rfl
    | cons s l ih =>
      by_cases h : ftGet ft s = 0#32
      · simpa [h] using ih
      · simpa [h] using ih
  exact filtered (List.range 256)

/-- The frequency of the leaf of a symbol is its count, zero-extended (R107). -/
theorem toNat_seedFreq_of_lt (ft : List (Nat × Count)) {sym : Nat} (hs : sym < 256) :
    (seedFreq ft sym).toNat = (ftGet ft sym).toNat := by
  have := (ftGet ft sym).isLt
  rw [seedFreq, if_neg (by omega), BitVec.toNat_setWidth, Nat.mod_eq_of_lt (by omega)]

/-- The frequencies of the leaves seeded sum to the counts (R107). -/
theorem sum_seedFreq (ft : List (Nat × Count)) :
    ((seedArena ft).2.map fun k => (seedFreq ft k).toNat).sum = countTotal ft := by
  have of_lt : ∀ k ∈ presentSymbols ft, (seedFreq ft k).toNat = (ftGet ft k).toNat :=
    fun k hk => toNat_seedFreq_of_lt ft (mem_presentSymbols.1 hk).1
  rw [← sum_counts_presentSymbols, ← List.map_congr_left of_lt]
  rcases seedArena_cases ft with ⟨s, hs, he⟩ | ⟨-, he⟩
  · simp [he, hs, seedFreq]
  · rw [he]

/-- The seed depends on the counts alone (R108). -/
theorem seedArena_congr {ft ft' : List (Nat × Count)} (h : ∀ s, s < 256 → ftGet ft s = ftGet ft' s) :
    seedArena ft = seedArena ft' := by
  have leaves : seedLeaves ft = seedLeaves ft' := by
    unfold seedLeaves
    rw [presentSymbols_congr h]
    exact List.map_congr_left fun s hs => by rw [h s (mem_presentSymbols.1 hs).1]
  unfold seedArena
  rw [presentSymbols_congr h, leaves]

/-! ## One merge -/

/-- `a` is the least node of `q` and `b` the least of the others, `rest` (R101, R104). -/
def ExtractTwo (node : List (Nat × Node)) (q : List Nat) (a b : Nat) (rest : List Nat) : Prop :=
  ∃ q1, extractLeast node q = some (a, q1) ∧ extractLeast node q1 = some (b, rest)

/-- The arena after the merge of `a` and `b` into the node `next` (R101, R104). -/
def mergeInto (node : List (Nat × Node)) (next a b : Nat) : List (Nat × Node) :=
  nodePut node next (internalNode ((nodeGet node a).freq + (nodeGet node b).freq) b a)

theorem nodeGet_mergeInto (node : List (Nat × Node)) (next a b k : Nat) :
    nodeGet (mergeInto node next a b) k =
      if k = next then internalNode ((nodeGet node a).freq + (nodeGet node b).freq) b a else nodeGet node k :=
  nodeGet_nodePut _ _ _ _

theorem nodeGet_mergeInto_of_lt {node : List (Nat × Node)} {next a b k : Nat} (h : k < next) :
    nodeGet (mergeInto node next a b) k = nodeGet node k := by
  rw [nodeGet_mergeInto, if_neg (Nat.ne_of_lt h)]

/-- The node order looks at the two nodes alone (R103). -/
theorem nodeBefore_congr {node node' : List (Nat × Node)} {j k : Nat} (hj : nodeGet node j = nodeGet node' j)
    (hk : nodeGet node k = nodeGet node' k) : nodeBefore node j k = nodeBefore node' j k := by
  simp only [nodeBefore, hj, hk]

/-- Two nodes can be extracted while `Q` has two. -/
theorem exists_extractTwo (node : List (Nat × Node)) {q : List Nat} (h : 2 ≤ q.length) :
    ∃ a b rest, ExtractTwo node q a b rest := by
  rcases extractLeast_cases node q with ⟨rfl, -⟩ | ⟨a, ha, -, hea⟩
  · simp at h
  rcases extractLeast_cases node (q.erase a) with ⟨h0, -⟩ | ⟨b, -, -, heb⟩
  · have := List.length_erase_of_mem ha
    simp [h0] at this
    omega
  · exact ⟨a, b, _, _, hea, heb⟩

/-- An extraction takes the least node off `Q` (R101). -/
theorem extractLeast_eq_some {node : List (Nat × Node)} {q q1 : List Nat} {a : Nat}
    (h : extractLeast node q = some (a, q1)) : q.Perm (a :: q1) ∧ ∀ y ∈ q, nodeBefore node y a = false := by
  rcases extractLeast_cases node q with ⟨-, hn⟩ | ⟨a', ha, hl, he⟩
  · simp [hn] at h
  · rw [he] at h
    cases h
    exact ⟨List.perm_cons_erase ha, hl⟩

theorem ExtractTwo.perm {node : List (Nat × Node)} {q rest : List Nat} {a b : Nat} (h : ExtractTwo node q a b rest) :
    q.Perm (a :: b :: rest) := by
  obtain ⟨q1, ha, hb⟩ := h
  exact (extractLeast_eq_some ha).1.trans ((extractLeast_eq_some hb).1.cons a)

theorem ExtractTwo.mem_iff {node : List (Nat × Node)} {q rest : List Nat} {a b : Nat} (h : ExtractTwo node q a b rest)
    {k : Nat} : k ∈ q ↔ k = a ∨ k = b ∨ k ∈ rest := by
  simp [h.perm.mem_iff]

/-- The first node extracted comes before the second, and the second before every node left (R104). -/
theorem ExtractTwo.least {node : List (Nat × Node)} {q rest : List Nat} {a b : Nat} (h : ExtractTwo node q a b rest)
    (hq : q.Nodup) : nodeBefore node a b = true ∧ ∀ y ∈ rest, nodeBefore node b y = true := by
  have nodup := h.perm.nodup_iff.1 hq
  have hab : b ≠ a := fun e => by simp [e] at nodup
  obtain ⟨q1, ha, hb⟩ := h
  obtain ⟨hpa, hla⟩ := extractLeast_eq_some ha
  obtain ⟨hpb, hlb⟩ := extractLeast_eq_some hb
  refine ⟨(nodeBefore_total hab).resolve_left ?_, fun y hy => (nodeBefore_total ?_).resolve_left ?_⟩
  · simp [hla b (hpa.mem_iff.2 (List.mem_cons_of_mem _ (hpb.mem_iff.2 List.mem_cons_self)))]
  · rintro rfl
    simp [hy] at nodup
  · simp [hlb y (hpb.mem_iff.2 (List.mem_cons_of_mem _ hy))]

/-- One turn of the merge loop (R101, R104). -/
theorem mergeLoop_of_extractTwo {node : List (Nat × Node)} {q rest : List Nat} {a b : Nat}
    (h : ExtractTwo node q a b rest) (fuel next : Nat) :
    mergeLoop (fuel + 1) node q next = mergeLoop fuel (mergeInto node next a b) (rest ++ [next]) (next + 1) := by
  obtain ⟨q1, ha, hb⟩ := h
  exact mergeLoop_succ ha hb

/-- A quantity that a merge adds up, and that it keeps for the other nodes, has the same sum over `Q` after the
merge. -/
theorem ExtractTwo.sum_eq {node : List (Nat × Node)} {q rest : List Nat} {a b next : Nat}
    (h : ExtractTwo node q a b rest) {g g' : Nat → Nat} (keep : ∀ k ∈ rest, g' k = g k) (new : g' next = g a + g b) :
    ((rest ++ [next]).map g').sum = (q.map g).sum := by
  rw [(h.perm.map g).sum_eq, List.map_append, List.map_congr_left keep]
  simp [new]
  omega

/-- The addition of a merge does not wrap when the frequencies in `Q` sum to less than `2^40` (R107). -/
theorem ExtractTwo.toNat_freq_add {node : List (Nat × Node)} {q rest : List Nat} {a b : Nat}
    (h : ExtractTwo node q a b rest) (hsum : (q.map fun k => (nodeGet node k).freq.toNat).sum < 2 ^ 40) :
    ((nodeGet node a).freq + (nodeGet node b).freq).toNat =
      (nodeGet node a).freq.toNat + (nodeGet node b).freq.toNat := by
  rw [(h.perm.map _).sum_eq] at hsum
  simp only [List.map_cons, List.sum_cons] at hsum
  rw [BitVec.toNat_add, Nat.mod_eq_of_lt (by omega)]

/-! ## The states of the merge loop -/

/-- The arenas, the sets `Q` and the next indices the merge loop of a table passes through (R101). -/
inductive BuildReaches (ft : List (Nat × Count)) : List (Nat × Node) → List Nat → Nat → Prop
  | seed : BuildReaches ft (seedArena ft).1 (seedArena ft).2 257
  | merge {node : List (Nat × Node)} {q rest : List Nat} {a b next : Nat} (h : BuildReaches ft node q next)
      (hx : ExtractTwo node q a b rest) : BuildReaches ft (mergeInto node next a b) (rest ++ [next]) (next + 1)

section
variable {ft : List (Nat × Count)} {node : List (Nat × Node)} {q : List Nat} {next : Nat}

/-- The merge loop ends in a state it passes through, with at most one node in `Q` (R101). -/
theorem BuildReaches.exists_final (h : BuildReaches ft node q next) :
    ∃ next', BuildReaches ft (mergeLoop q.length node q next).1 (mergeLoop q.length node q next).2 next' ∧
      (mergeLoop q.length node q next).2.length ≤ 1 := by
  generalize hn : q.length = n
  induction n generalizing node q next with
  | zero => exact ⟨next, by simpa [mergeLoop] using h, by simp [mergeLoop, hn]⟩
  | succ n ih =>
    by_cases hq : q.length ≤ 1
    · rw [mergeLoop_of_le_one hq]
      exact ⟨next, h, hq⟩
    · obtain ⟨a, b, rest, hx⟩ := exists_extractTwo node (by omega : 2 ≤ q.length)
      have hl := hx.perm.length_eq
      rw [mergeLoop_of_extractTwo hx]
      exact ih (h.merge hx) (by simp only [List.length_cons, List.length_append, List.length_nil] at hl ⊢; omega)

theorem BuildReaches.le_next (h : BuildReaches ft node q next) : 257 ≤ next := by
  induction h with
  | seed => exact le_rfl
  | merge _ _ ih => omega

/-- Each merge takes one node off `Q` and one index (R105). -/
theorem BuildReaches.next_add_length (h : BuildReaches ft node q next) :
    next + q.length = 257 + (seedArena ft).2.length := by
  induction h with
  | seed => rfl
  | merge _ hx ih =>
    have hl := hx.perm.length_eq
    simp only [List.length_cons, List.length_append, List.length_nil] at hl ⊢
    omega

/-- A merge makes a node inside the arena (R106). -/
theorem BuildReaches.next_lt (h : BuildReaches ft node q next) {a b : Nat} {rest : List Nat}
    (hx : ExtractTwo node q a b rest) : next < 512 := by
  have hl := hx.perm.length_eq
  have hn := h.next_add_length
  have hs := seedArena_length_cases ft
  simp only [List.length_cons] at hl
  omega

/-- `Q` holds distinct nodes made before (R101). -/
theorem BuildReaches.nodup_and_lt (h : BuildReaches ft node q next) : q.Nodup ∧ ∀ k ∈ q, k < next := by
  induction h with
  | seed => exact ⟨seedArena_nodup ft, fun _ => lt_of_mem_seedArena⟩
  | @merge node q rest a b next _ hx ih =>
    obtain ⟨nodup, lt⟩ := ih
    have nodup' := hx.perm.nodup_iff.1 nodup
    have lt' : ∀ k ∈ rest, k < next := fun k hk => lt k (hx.mem_iff.2 (by simp [hk]))
    simp only [List.nodup_cons] at nodup'
    constructor
    · exact List.nodup_append.2 ⟨nodup'.2.2, List.nodup_singleton _, fun k hk j hj =>
        Nat.ne_of_lt (List.mem_singleton.1 hj ▸ lt' k hk)⟩
    · intro k hk
      rcases List.mem_append.1 hk with hk | hk
      · exact (lt' k hk).trans (Nat.lt_succ_self _)
      · exact List.mem_singleton.1 hk ▸ Nat.lt_succ_self _

theorem BuildReaches.nodup (h : BuildReaches ft node q next) : q.Nodup := h.nodup_and_lt.1

theorem BuildReaches.lt_of_mem (h : BuildReaches ft node q next) {k : Nat} (hk : k ∈ q) : k < next :=
  h.nodup_and_lt.2 k hk

/-- The nodes merged were made before (R106). -/
theorem BuildReaches.children_lt (h : BuildReaches ft node q next) {a b : Nat} {rest : List Nat}
    (hx : ExtractTwo node q a b rest) : a < next ∧ b < next :=
  ⟨h.lt_of_mem (hx.mem_iff.2 (by simp)), h.lt_of_mem (hx.mem_iff.2 (by simp))⟩

/-- After a merge the node made last is in `Q` (R106). -/
theorem BuildReaches.last_mem (h : BuildReaches ft node q next) : next = 257 ∨ next - 1 ∈ q := by
  cases h with
  | seed => exact .inl rfl
  | merge h hx => exact .inr (by simp)

/-- No merge writes a leaf (R101). -/
theorem BuildReaches.nodeGet_of_lt (h : BuildReaches ft node q next) {k : Nat} (hk : k < 257) :
    nodeGet node k = nodeGet (seedArena ft).1 k := by
  induction h with
  | seed => rfl
  | merge h _ ih =>
    have := h.le_next
    rw [nodeGet_mergeInto_of_lt (by omega), ih]

/-- The nodes not made yet are unused (R101). -/
theorem BuildReaches.nodeGet_of_le (h : BuildReaches ft node q next) {k : Nat} (hk : next ≤ k) :
    nodeGet node k = Node.unused := by
  induction h with
  | seed =>
    rw [nodeGet_seedArena, if_neg fun hm => absurd (lt_of_mem_seedArena hm) (by omega)]
  | merge _ _ ih => rw [nodeGet_mergeInto, if_neg (by omega), ih (by omega)]

/-- Every valid node was made before (R106). -/
theorem BuildReaches.lt_of_valid (h : BuildReaches ft node q next) {k : Nat} (hv : (nodeGet node k).valid = true) :
    k < next := by
  by_contra hge
  rw [h.nodeGet_of_le (by omega)] at hv
  cases hv

/-- The frequencies in `Q` sum to the counts of the table (R107). -/
theorem BuildReaches.sum_freq (h : BuildReaches ft node q next) :
    (q.map fun k => (nodeGet node k).freq.toNat).sum = countTotal ft := by
  induction h with
  | seed =>
    rw [← sum_seedFreq]
    exact congrArg List.sum (List.map_congr_left fun k hk => by rw [nodeGet_seedArena, if_pos hk]; rfl)
  | @merge node q rest a b next h hx ih =>
    have noWrap := hx.toNat_freq_add (by have := countTotal_le ft; omega)
    rw [← ih]
    refine hx.sum_eq (fun k hk => ?_) ?_
    · rw [nodeGet_mergeInto_of_lt (h.lt_of_mem (hx.mem_iff.2 (by simp [hk])))]
    · rw [nodeGet_mergeInto, if_pos rfl, ← noWrap]
      rfl

/-- The node a merge makes (R104). -/
theorem BuildReaches.made (h : BuildReaches ft node q next) {a b : Nat} {rest : List Nat}
    (hx : ExtractTwo node q a b rest) :
    ∃ n, nodeGet (mergeInto node next a b) next = n ∧ n.valid = true ∧ n.kind = .internal ∧ n.left.toNat = b ∧
      n.right.toNat = a ∧ n.freq.toNat = (nodeGet node a).freq.toNat + (nodeGet node b).freq.toNat := by
  obtain ⟨ha, hb⟩ := h.children_lt hx
  have := h.next_lt hx
  have noWrap := hx.toNat_freq_add (by have := countTotal_le ft; have := h.sum_freq; omega)
  refine ⟨_, by rw [nodeGet_mergeInto, if_pos rfl], rfl, rfl, ?_, ?_, noWrap⟩
  · simp [internalNode]; omega
  · simp [internalNode]; omega

/-- A node with no parent yet is in `Q` (R104). -/
theorem BuildReaches.mem_of_unmerged (h : BuildReaches ft node q next) {k : Nat} (hv : (nodeGet node k).valid = true)
    (hu : ∀ i, 257 ≤ i → i < next → (nodeGet node i).left.toNat ≠ k ∧ (nodeGet node i).right.toNat ≠ k) : k ∈ q := by
  induction h with
  | seed =>
    by_contra hk
    rw [nodeGet_seedArena, if_neg hk] at hv
    cases hv
  | @merge node q rest a b next h hx ih =>
    obtain ⟨n, hn, -, -, left, right, -⟩ := h.made hx
    by_cases hk : k = next
    · simp [hk]
    · rw [nodeGet_mergeInto, if_neg hk] at hv
      have hq : k ∈ q := ih hv fun i hi hlt => by
        have := hu i hi (by omega)
        rwa [nodeGet_mergeInto_of_lt hlt] at this
      obtain ⟨hb, ha⟩ := hu next h.le_next (by omega)
      rw [hn] at ha hb
      exact List.mem_append_left _ (((hx.mem_iff.1 hq).resolve_left (by omega)).resolve_left (by omega))

/-- Where an internal node comes from (R104): `k` was made by the merge of its RIGHT and LEFT child, the two least nodes
of `Q` in the state before it, whose nodes stay. -/
theorem BuildReaches.origin (h : BuildReaches ft node q next) {k : Nat} (hk : 257 ≤ k) (hn : k < next) :
    ∃ node0 q0 rest, BuildReaches ft node0 q0 k ∧
      ExtractTwo node0 q0 (nodeGet node k).right.toNat (nodeGet node k).left.toNat rest ∧
      (∀ i < k, nodeGet node i = nodeGet node0 i) ∧
      (nodeGet node k).valid = true ∧ (nodeGet node k).kind = .internal ∧
      (nodeGet node k).freq.toNat = (nodeGet node0 (nodeGet node k).right.toNat).freq.toNat +
        (nodeGet node0 (nodeGet node k).left.toNat).freq.toNat := by
  induction h with
  | seed => omega
  | @merge node q rest a b next h hx ih =>
    rcases Nat.lt_or_ge k next with hlt | hge
    · obtain ⟨node0, q0, rest0, h0, hx0, agree, made⟩ := ih hlt
      rw [nodeGet_mergeInto_of_lt hlt]
      exact ⟨node0, q0, rest0, h0, hx0, fun i hi => by rw [nodeGet_mergeInto_of_lt (by omega), agree i hi], made⟩
    · obtain rfl : k = next := by omega
      obtain ⟨n, hn, valid, kind, left, right, freq⟩ := h.made hx
      rw [hn, left, right]
      exact ⟨node, q, rest, h, hx, fun i hi => nodeGet_mergeInto_of_lt hi, valid, kind, freq⟩

/-- The children of an internal node were made before it, and its frequency is the sum of theirs (R106, R107). -/
theorem BuildReaches.children (h : BuildReaches ft node q next) {k : Nat} (hk : 257 ≤ k) (hn : k < next) :
    (nodeGet node k).right.toNat < k ∧ (nodeGet node k).left.toNat < k ∧
      (nodeGet node k).freq.toNat = (nodeGet node (nodeGet node k).right.toNat).freq.toNat +
        (nodeGet node (nodeGet node k).left.toNat).freq.toNat := by
  obtain ⟨node0, q0, rest, h0, hx, agree, -, -, freq⟩ := h.origin hk hn
  obtain ⟨ha, hb⟩ := h0.children_lt hx
  exact ⟨ha, hb, by rw [agree _ ha, agree _ hb, freq]⟩

/-- The RIGHT child of an internal node comes before its LEFT child in the node order, and this before every other node
made before it that had no parent then (R104). -/
theorem BuildReaches.merged_least (h : BuildReaches ft node q next) {k : Nat} (hk : 257 ≤ k) (hn : k < next) :
    nodeBefore node (nodeGet node k).right.toNat (nodeGet node k).left.toNat = true ∧
      ∀ j < k, (nodeGet node j).valid = true → j ≠ (nodeGet node k).right.toNat → j ≠ (nodeGet node k).left.toNat →
        (∀ i, 257 ≤ i → i < k → (nodeGet node i).left.toNat ≠ j ∧ (nodeGet node i).right.toNat ≠ j) →
        nodeBefore node (nodeGet node k).left.toNat j = true := by
  obtain ⟨node0, q0, rest, h0, hx, agree, -⟩ := h.origin hk hn
  obtain ⟨ha, hb⟩ := h0.children_lt hx
  obtain ⟨hab, hrest⟩ := hx.least h0.nodup
  refine ⟨by rw [nodeBefore_congr (agree _ ha) (agree _ hb), hab], fun j hj hv hja hjb hu => ?_⟩
  have hq : j ∈ q0 := h0.mem_of_unmerged (agree j hj ▸ hv) fun i hi hlt => agree i hlt ▸ hu i hi hlt
  rw [nodeBefore_congr (agree _ hb) (agree _ hj)]
  exact hrest j (((hx.mem_iff.1 hq).resolve_left hja).resolve_left hjb)

end

/-- Everything the build of a table can end in (R101, R102): no leaf was seeded and nothing is built, or `L` leaves were
seeded and the last of `L - 1` merges made the root `255 + L` (R105). -/
theorem buildArena_cases (ft : List (Nat × Count)) :
    ((seedArena ft).2.length = 0 ∧ (buildArena ft).2 = [] ∧ BuildReaches ft (buildArena ft).1 [] 257) ∨
      (2 ≤ (seedArena ft).2.length ∧ (seedArena ft).2.length ≤ 256 ∧
        (buildArena ft).2 = [255 + (seedArena ft).2.length] ∧
        BuildReaches ft (buildArena ft).1 [255 + (seedArena ft).2.length] (256 + (seedArena ft).2.length)) := by
  obtain ⟨next, h, hq⟩ := (BuildReaches.seed (ft := ft)).exists_final
  change BuildReaches ft (buildArena ft).1 (buildArena ft).2 next at h
  change (buildArena ft).2.length ≤ 1 at hq
  have hadd := h.next_add_length
  have hlast := h.last_mem
  have hle := h.le_next
  generalize hL : (seedArena ft).2.length = l at *
  have hl := hL ▸ seedArena_length_cases ft
  generalize (buildArena ft).2 = q at *
  match q with
  | [] =>
    obtain rfl : next = 257 := hlast.resolve_right List.not_mem_nil
    rw [List.length_nil] at hadd
    exact .inl ⟨by omega, rfl, h⟩
  | [r] =>
    rw [List.length_singleton] at hadd
    rw [List.mem_singleton] at hlast
    obtain rfl : next = 256 + l := by omega
    obtain rfl : r = 255 + l := by omega
    exact .inr ⟨by omega, by omega, rfl, h⟩

/-- The finished arena is a state of the merge loop (R101). -/
theorem buildReaches_buildArena (ft : List (Nat × Count)) :
    ∃ q next, BuildReaches ft (buildArena ft).1 q next := by
  rcases buildArena_cases ft with ⟨-, -, h⟩ | ⟨-, -, -, h⟩
  · exact ⟨_, _, h⟩
  · exact ⟨_, _, h⟩

end Sys2Proof.Machine
end

section
/-! BUILD (`41_tree_builder.md`, rules R100 to R108): the command, what a merge merged, the frequencies, the build as a
function of the counts, and the tables of no and of one entry. -/

namespace Sys2Proof.Machine

/-! ## The command -/

/-- BUILD, whole (R100). -/
theorem exec_build (s : State) :
    exec .build s = .next { s with
      node := (buildArena s.ft).1, root := rootOf (buildArena s.ft).2, status := 0x00#8, errcode := 0#8 } := by
  have frame : exec .build s = .next (endCommand (buildTree (beginCommand s))) :=
    runFrame_of_done (body := fun s1 => .done (buildTree s1)) rfl
  rw [frame]
  simp [endCommand, buildTree, beginCommand, statusWord_success]

theorem exec_build_eq_next {s t : State} (h : exec .build s = .next t) :
    t = { s with node := (buildArena s.ft).1, root := rootOf (buildArena s.ft).2, status := 0x00#8, errcode := 0#8 } :=
  (Host.Outcome.next.inj ((exec_build s).symm.trans h)).symm

/-- BUILD leaves the tree of the table in FT (R100, R101). -/
theorem exec_build_tree {s t : State} (h : exec .build s = .next t) :
    t.node = (buildArena s.ft).1 ∧ t.root = rootOf (buildArena s.ft).2 := by
  cases exec_build_eq_next h
  exact ⟨rfl, rfl⟩

/-- Settles O20: an internal node is the merge of the two least nodes of `Q`, and every node made before it with no
parent yet is in `Q`. -/
theorem buildMergesTheTwoLeast : Obligations.BuildMergesTheTwoLeast := by
  intro s t k ht hk hv
  obtain ⟨q, next, h⟩ := buildReaches_buildArena s.ft
  cases exec_build_eq_next ht
  obtain ⟨hab, hleast⟩ := h.merged_least hk (h.lt_of_valid hv)
  exact ⟨nodeBefore_iff.1 hab, (h.children hk (h.lt_of_valid hv)).2.2,
    fun j hj hvj hja hjb hu => nodeBefore_iff.1 (hleast j hj hvj hja hjb hu)⟩

/-- The leaf of a symbol has its count, and an absent symbol 0 (R107). -/
theorem BuildReaches.toNat_freq_of_lt {ft : List (Nat × Count)} {node : List (Nat × Node)} {q : List Nat} {next : Nat}
    (h : BuildReaches ft node q next) {sym : Nat} (hs : sym < 256) :
    (nodeGet node sym).freq.toNat = (ftGet ft sym).toNat := by
  rw [h.nodeGet_of_lt (by omega), nodeGet_seedArena]
  split
  · exact toNat_seedFreq_of_lt ft hs
  · next hm =>
    rw [mem_seedArena_iff hs, not_not] at hm
    rw [hm]
    rfl

@[simp] theorem rootPresent_rootOf_nil : rootPresent (rootOf []) = false := rootPresent_rootWord _ _

@[simp] theorem rootPresent_rootOf_cons (r : Nat) (q : List Nat) : rootPresent (rootOf (r :: q)) = true :=
  rootPresent_rootWord _ _

/-- ROOT.IDX is the one node left in `Q` (R101). -/
theorem toNat_rootIdx_rootOf_cons {r : Nat} (hr : r < 512) (q : List Nat) : (rootIdx (rootOf (r :: q))).toNat = r := by
  simp [rootOf]
  omega

/-- Settles O23: the leaves are the seed's, an internal node is the sum of its children, and the root is all that `Q`
holds, whose frequencies sum to the counts. -/
theorem buildFrequenciesNeverWrap : Obligations.BuildFrequenciesNeverWrap := by
  intro s t ht
  obtain ⟨q, next, h⟩ := buildReaches_buildArena s.ft
  cases exec_build_eq_next ht
  refine ⟨fun sym hs => ?_, fun k hk hv => ?_, fun hp => ?_⟩
  · exact h.toNat_freq_of_lt hs
  · exact (h.children hk (h.lt_of_valid hv)).2.2.trans (Nat.add_comm _ _)
  · have root : (nodeGet (buildArena s.ft).1 (rootIdx (rootOf (buildArena s.ft).2)).toNat).freq.toNat =
        countTotal s.ft := by
      rcases buildArena_cases s.ft with ⟨-, hq, -⟩ | ⟨-, hl, hq, h⟩
      · exact absurd (hq ▸ hp : rootPresent (rootOf []) = true) (by simp)
      · rw [hq, toNat_rootIdx_rootOf_cons (by omega), ← h.sum_freq]
        simp
    exact ⟨root, root ▸ countTotal_le s.ft⟩

/-- The build depends on the counts alone (R108). -/
theorem buildArena_congr {ft ft' : List (Nat × Count)} (h : ∀ s, s < 256 → ftGet ft s = ftGet ft' s) :
    buildArena ft = buildArena ft' := by
  unfold buildArena
  rw [seedArena_congr h]

/-- A body that ends in a procedure and ends normally has written its results (R177). -/
theorem Body.exists_write_of_ofRes_done {α : Type} {s u : State} {x : Res α} {w : α → State}
    (h : Body.ofRes s x w = .done u) : ∃ a, u = w a := by
  cases x with
  | ok a => exact ⟨a, (Body.done.inj h).symm⟩
  | raise k => cases h
  | refuse r => cases h

/-- A body that ends in a procedure and raises is in the state before the procedure (R200). -/
theorem Body.eq_of_ofRes_raise {α : Type} {s u : State} {x : Res α} {w : α → State} {k : FailKind}
    (h : Body.ofRes s x w = .raise k u) : u = s := by
  cases x with
  | ok a => cases h
  | raise k => cases h; rfl
  | refuse r => cases h

/-- UNPACK is the build and then the decoder inside the command frame (R145). -/
theorem exec_unpack (s : State) :
    exec .unpack s = runFrame (fun s1 => Body.ofRes (buildTree s1)
      (unpackBits s1.params.outCap.toNat (buildTree s1).node (buildTree s1).root s1.input)
      fun r => setResult r.2 r.1 (buildTree s1)) s := rfl

/-- UNPACK leaves the tree of the table in FT, however it ends (R145). -/
theorem exec_unpack_tree {s t : State} (h : exec .unpack s = .next t) :
    t.node = (buildArena s.ft).1 ∧ t.root = rootOf (buildArena s.ft).2 := by
  rcases runFrame_next_cases ((exec_unpack s).symm.trans h) with ⟨u, hu, rfl⟩ | ⟨k, u, hu, rfl⟩
  · obtain ⟨r, rfl⟩ := Body.exists_write_of_ofRes_done hu
    exact ⟨rfl, rfl⟩
  · obtain rfl := Body.eq_of_ofRes_raise hu
    exact ⟨by simp, by simp⟩

/-- Settles O24: both commands leave the tree that is built of the counts alone. -/
theorem buildDependsOnTheTableAlone : Obligations.BuildDependsOnTheTableAlone := by
  intro s s' t t' hft ht ht'
  obtain ⟨hn, hr⟩ := ht.elim exec_build_tree exec_unpack_tree
  obtain ⟨hn', hr'⟩ := ht'.elim exec_build_tree exec_unpack_tree
  rw [hn, hr, hn', hr', buildArena_congr hft]
  exact ⟨rfl, rfl⟩

/-! ## The special cases -/

/-- DERIVE, whole (R120). -/
theorem exec_derive (s : State) :
    exec .derive s = .next { s with ct := codesOf s.node s.root, status := 0x00#8, errcode := 0#8 } := by
  have frame : exec .derive s = .next (endCommand (deriveCodes (beginCommand s))) :=
    runFrame_of_done (body := fun s1 => .done (deriveCodes s1)) rfl
  rw [frame]
  simp [endCommand, deriveCodes, beginCommand, statusWord_success]

theorem presentSymbols_eq_nil {ft : List (Nat × Count)} (h : ∀ sym, sym < 256 → ftGet ft sym = 0#32) :
    presentSymbols ft = [] :=
  List.eq_nil_iff_forall_not_mem.2 fun sym hm =>
    have hm := mem_presentSymbols.1 hm
    hm.2 (h sym hm.1)

theorem presentSymbols_eq_singleton {ft : List (Nat × Count)} {sym : Nat} (hs : sym < 256) (hne : ftGet ft sym ≠ 0#32)
    (h : ∀ b, b < 256 → b ≠ sym → ftGet ft b = 0#32) : presentSymbols ft = [sym] := by
  refine (presentSymbols_sorted ft).eq_of_mem_iff (List.pairwise_singleton _ _) fun b => ?_
  rw [mem_presentSymbols, List.mem_singleton]
  constructor
  · rintro ⟨hb, hbne⟩
    by_contra hbs
    exact hbne (h b hb hbs)
  · rintro rfl
    exact ⟨hs, hne⟩

/-- The empty table builds nothing (R102). -/
theorem buildArena_of_empty {ft : List (Nat × Count)} (h : presentSymbols ft = []) : buildArena ft = ([], []) := by
  have seed : seedArena ft = ([], []) := by simp [seedArena, seedLeaves, h]
  rw [buildArena, seed]
  rfl

/-- The arena of a table whose one entry is `sym` with count `c` (R102, R111). -/
def loneArena (sym : Nat) (c : Count) : List (Nat × Node) :=
  [(sym, leafNode (c.setWidth 40)), (256, leafNode 0#40), (257, internalNode (c.setWidth 40) sym 256)]

/-- Writing a used entry above all the listed ones appends it. -/
theorem nodePut_of_above {node : List (Nat × Node)} {k : Nat} (h : ∀ e ∈ node, e.1 < k) {n : Node}
    (hn : n ≠ Node.unused) : nodePut node k n = node ++ [(k, n)] := by
  rw [nodePut, Sparse.put, if_neg hn, Sparse.insert_of_above h]

/-- The one merge of a one-entry table extracts the synthetic leaf first (R102). -/
theorem buildArena_of_singleton {ft : List (Nat × Count)} {sym : Nat} (h : presentSymbols ft = [sym]) :
    buildArena ft = (loneArena sym (ftGet ft sym), [257]) := by
  obtain ⟨hs, hne⟩ := mem_presentSymbols.1 (h ▸ List.mem_singleton_self sym)
  have hsynth : sym ≠ 256 := by omega
  have seed : seedArena ft =
      ([(sym, leafNode ((ftGet ft sym).setWidth 40)), (256, leafNode 0#40)], [sym, 256]) := by
    simp only [seedArena, h, seedLeaves, List.map_cons, List.map_nil]
    rw [nodePut_of_above (by simpa [Config.synth] using hs) (by simp [leafNode, Node.unused])]
    rfl
  rw [buildArena, seed]
  generalize hnode : [(sym, leafNode ((ftGet ft sym).setWidth 40)), (256, leafNode 0#40)] = node
  have leaf : nodeGet node sym = leafNode ((ftGet ft sym).setWidth 40) := by
    simp [← hnode, nodeGet, Sparse.get, Sparse.lookup_cons]
  have synth : nodeGet node 256 = leafNode 0#40 := by
    simp [← hnode, nodeGet, Sparse.get, Sparse.lookup_cons, hsynth.symm]
  have synthFirst : nodeBefore node 256 sym = true := by
    have := (ftGet ft sym).isLt
    rw [nodeBefore_iff, leaf, synth]
    simp [leafNode]
    bv_omega
  have two : ExtractTwo node [sym, 256] 256 sym [] := by
    refine ⟨[sym], ?_, ?_⟩
    · simp [extractLeast, leastOf, synthFirst, hsynth]
    · simp [extractLeast, leastOf]
  have below : ∀ e ∈ node, e.1 < Config.intBase := by
    simpa [← hnode, Config.intBase] using (by omega : sym < 257)
  rw [show [sym, 256].length = 1 + 1 from rfl, mergeLoop_of_extractTwo two, mergeLoop_of_le_one (by simp), mergeInto,
    leaf, synth, nodePut_of_above below (by simp [internalNode, Node.unused]), ← hnode]
  simp [loneArena, leafNode, Config.intBase]

/-- DERIVE gives the lone symbol the code `"0"` and the synthetic leaf none (R102, R123). -/
theorem codesOf_loneArena {sym : Nat} (hs : sym < 256) (c : Count) :
    codesOf (loneArena sym c) (rootOf [257]) = [(sym, { len := 1#8, bits := 0#255 })] := by
  have leaf : nodeGet (loneArena sym c) sym = leafNode (c.setWidth 40) := by
    simp [loneArena, nodeGet, Sparse.get, Sparse.lookup_cons]
  have synth : nodeGet (loneArena sym c) 256 = leafNode 0#40 := by
    simp [loneArena, nodeGet, Sparse.get, Sparse.lookup_cons, (show 256 ≠ sym by omega)]
  have root : nodeGet (loneArena sym c) 257 = internalNode (c.setWidth 40) sym 256 := by
    simp [loneArena, nodeGet, Sparse.get, Sparse.lookup_cons, (show 257 ≠ sym by omega)]
  have left : (nodeGet (loneArena sym c) 257).left.toNat = sym := by
    simp [root, internalNode]; omega
  have right : (nodeGet (loneArena sym c) 257).right.toNat = 256 := by
    simp [root, internalNode]
  have kind : (nodeGet (loneArena sym c) 257).kind = .internal := by rw [root]; rfl
  have leafKind : (nodeGet (loneArena sym c) sym).kind = .leaf := by rw [leaf]; rfl
  have synthKind : (nodeGet (loneArena sym c) 256).kind = .leaf := by rw [synth]; rfl
  simp only [codesOf, rootPresent_rootOf_cons, toNat_rootIdx_rootOf_cons (show 257 < 512 by omega), kind]
  rw [show Config.codeMax = 254 + 1 from rfl]
  simp only [visit, kind, left, right, leafKind, synthKind]
  rw [if_neg (by omega), if_pos (by omega)]
  rfl

/-- An absent tree gives no codes (R102, R121). -/
theorem codesOf_rootOf_nil (node : List (Nat × Node)) : codesOf node (rootOf []) = [] := by
  simp [codesOf]

/-- DERIVE after a BUILD writes the codes of the table in FT and nothing else (R120, R121). -/
theorem exec_derive_of_build {s t : State} (h : exec .build s = .next t) :
    exec .derive t = .next { t with ct := tableCodes s.ft } := by
  rw [exec_derive, tableCodes]
  cases exec_build_eq_next h
  rfl

/-- Settles O21: the build of the empty and of a one-entry table is computed; in any other table only symbols are
seeded, and no merge writes a leaf. -/
theorem buildSpecialCases : Obligations.BuildSpecialCases := by
  intro s t ht
  obtain ⟨hnode, hroot⟩ := exec_build_tree ht
  rw [exec_derive_of_build ht, State.nodeAt, hnode, hroot, tableCodes]
  refine ⟨fun h => ?_, fun sym hs hne h => ?_, fun a b ha hb hab hna hnb => ?_⟩
  · rw [buildArena_of_empty (presentSymbols_eq_nil h), codesOf_rootOf_nil]
    exact ⟨rfl, rfl, rfl⟩
  · rw [buildArena_of_singleton (presentSymbols_eq_singleton hs hne h), codesOf_loneArena hs]
    exact ⟨rfl, rfl, rfl⟩
  · obtain ⟨q, next, h⟩ := buildReaches_buildArena s.ft
    have noSynth : 256 ∉ (seedArena s.ft).2 := by
      have pa := mem_presentSymbols.2 ⟨ha, hna⟩
      have pb := mem_presentSymbols.2 ⟨hb, hnb⟩
      rcases seedArena_cases s.ft with ⟨sym, hs, -⟩ | ⟨-, he⟩
      · rw [hs, List.mem_singleton] at pa pb
        exact absurd (pa.trans pb.symm) hab
      · rw [he]
        exact fun hm => absurd (mem_presentSymbols.1 hm).1 (by omega)
    exact (h.nodeGet_of_lt (by omega)).trans ((nodeGet_seedArena _ _).trans (if_neg noSynth))

end Sys2Proof.Machine
end

section
/-! The tree BUILD makes as a value (`41_tree_builder.md`, rules R105 and R110; `10_state.md` rule R20): the arena goes
in step with the value-level build, since "rank = index", and the depths are those of the tree value. -/

namespace Sys2Proof.Machine

/-! ## The tree values of the arena -/

/-- The walk of an arena goes down: an internal node is no leaf entry, and its children have lower indices (R106). -/
def Descends (node : List (Nat × Node)) : Prop :=
  ∀ k, (nodeGet node k).kind = .internal →
    257 ≤ k ∧ (nodeGet node k).left.toNat < k ∧ (nodeGet node k).right.toNat < k

theorem treeAt_of_leaf {node : List (Nat × Node)} {k : Nat} (h : (nodeGet node k).kind = .leaf) (fuel : Nat) :
    treeAt node fuel k =
      if k ≤ 255 then .leaf (some (BitVec.ofNat 8 k)) (nodeGet node k).freq.toNat else .leaf none 0 := by
  unfold treeAt
  simp only [h]

theorem treeAt_of_internal {node : List (Nat × Node)} {k : Nat} (h : (nodeGet node k).kind = .internal) (fuel : Nat) :
    treeAt node (fuel + 1) k =
      .internal (nodeGet node k).freq.toNat (treeAt node fuel (nodeGet node k).left.toNat)
        (treeAt node fuel (nodeGet node k).right.toNat) := by
  rw [treeAt]
  simp only [h]

theorem treeAt_codeMax_of_internal {node : List (Nat × Node)} {k : Nat} (h : (nodeGet node k).kind = .internal) :
    treeAt node Config.codeMax k =
      .internal (nodeGet node k).freq.toNat (treeAt node 254 (nodeGet node k).left.toNat)
        (treeAt node 254 (nodeGet node k).right.toNat) :=
  treeAt_of_internal h 254

/-- The tree at a node looks at the nodes up to it alone, and any bound that covers the internal indices up to it is
enough. -/
theorem treeAt_congr {node node' : List (Nat × Node)} (hd : Descends node) {n : Nat}
    (agree : ∀ i < n, nodeGet node' i = nodeGet node i) {f g k : Nat} (hk : k < n) (hf : k ≤ 256 + f)
    (hg : k ≤ 256 + g) : treeAt node' g k = treeAt node f k := by
  induction k using Nat.strong_induction_on generalizing f g with
  | _ k ih =>
    cases hkind : (nodeGet node k).kind with
    | leaf => rw [treeAt_of_leaf hkind, treeAt_of_leaf (by rw [agree k hk, hkind]), agree k hk]
    | internal =>
      obtain ⟨hge, hl, hr⟩ := hd k hkind
      obtain ⟨f, rfl⟩ : ∃ f', f = f' + 1 := ⟨f - 1, by omega⟩
      obtain ⟨g, rfl⟩ : ∃ g', g = g' + 1 := ⟨g - 1, by omega⟩
      rw [treeAt_of_internal hkind, treeAt_of_internal (by rw [agree k hk, hkind]), agree k hk,
        ih _ hl (f := f) (by omega) (by omega) (by omega), ih _ hr (f := f) (by omega) (by omega) (by omega)]

theorem rankedBefore_iff {x y : Ranked} :
    rankedBefore x y = true ↔ x.tree.frequency < y.tree.frequency ∨
      (x.tree.frequency = y.tree.frequency ∧ x.rank < y.rank) := by
  simp [rankedBefore]

/-- The tree value of a built arena is the tree at the one node left in `Q` (R20, R101). -/
theorem treeValue_rootOf_cons {r : Nat} (hr : r < 512) (q : List Nat) (node : List (Nat × Node)) :
    treeValue node (rootOf (r :: q)) = some (treeAt node Config.codeMax r) := by
  rw [treeValue, rootPresent_rootOf_cons, if_pos rfl, toNat_rootIdx_rootOf_cons hr]

/-- A node of the arena as a value with its rank: "rank = index" (R110). -/
def rankedAt (node : List (Nat × Node)) (k : Nat) : Ranked := ⟨k, treeAt node Config.codeMax k⟩

theorem rankedAt_injective (node : List (Nat × Node)) : Function.Injective (rankedAt node) :=
  fun _ _ h => congrArg Ranked.rank h

section
variable {ft : List (Nat × Count)} {node : List (Nat × Node)} {q : List Nat} {next : Nat}

/-- The leaf entries hold leaves (R101). -/
theorem kind_seedArena (ft : List (Nat × Count)) (k : Nat) : (nodeGet (seedArena ft).1 k).kind = .leaf := by
  rw [nodeGet_seedArena]
  split <;> rfl

/-- The internal nodes are the entries from 257 on that a merge made (R105). -/
theorem BuildReaches.kind_internal_iff (h : BuildReaches ft node q next) {k : Nat} :
    (nodeGet node k).kind = .internal ↔ 257 ≤ k ∧ k < next := by
  constructor
  · intro hk
    by_contra hout
    rcases Nat.lt_or_ge k 257 with hlt | hge
    · rw [h.nodeGet_of_lt hlt, kind_seedArena] at hk
      cases hk
    · rw [h.nodeGet_of_le (by omega)] at hk
      cases hk
  · rintro ⟨hk, hn⟩
    obtain ⟨_, _, _, -, -, -, -, kind, -⟩ := h.origin hk hn
    exact kind

theorem BuildReaches.descends (h : BuildReaches ft node q next) : Descends node := by
  intro k hk
  obtain ⟨hge, hn⟩ := h.kind_internal_iff.1 hk
  obtain ⟨hr, hl, -⟩ := h.children hge hn
  exact ⟨hge, hl, hr⟩

/-- The frequency of the tree at a node is the node's (R20). -/
theorem BuildReaches.frequency_treeAt (h : BuildReaches ft node q next) (k : Nat) :
    (treeAt node Config.codeMax k).frequency = (nodeGet node k).freq.toNat := by
  cases hkind : (nodeGet node k).kind with
  | internal =>
    rw [treeAt_codeMax_of_internal hkind]
    rfl
  | leaf =>
    rw [treeAt_of_leaf hkind]
    split
    · rfl
    · next hk =>
      have noFreq : (nodeGet node k).freq = 0#40 := by
        rcases Nat.lt_or_ge k 257 with hlt | hge
        · obtain rfl : k = 256 := by omega
          rw [h.nodeGet_of_lt hlt, nodeGet_seedArena]
          split <;> rfl
        · have hn : ¬ k < next := fun hn => by
            rw [h.kind_internal_iff.2 ⟨hge, hn⟩] at hkind
            cases hkind
          rw [h.nodeGet_of_le (by omega)]
          rfl
      rw [noFreq]
      rfl

/-- A merge keeps the trees made before it (R110). -/
theorem BuildReaches.treeAt_mergeInto_of_lt (h : BuildReaches ft node q next) {a b : Nat} {rest : List Nat}
    (hx : ExtractTwo node q a b rest) {k : Nat} (hk : k < next) :
    treeAt (mergeInto node next a b) Config.codeMax k = treeAt node Config.codeMax k := by
  have hn := h.next_lt hx
  exact treeAt_congr h.descends (fun i hi => nodeGet_mergeInto_of_lt hi) hk (by simp only [Config.codeMax]; omega)
    (by simp only [Config.codeMax]; omega)

/-- The tree a merge makes (R110). -/
theorem BuildReaches.treeAt_mergeInto_next (h : BuildReaches ft node q next) {a b : Nat} {rest : List Nat}
    (hx : ExtractTwo node q a b rest) :
    treeAt (mergeInto node next a b) Config.codeMax next =
      .internal ((nodeGet node a).freq.toNat + (nodeGet node b).freq.toNat) (treeAt node Config.codeMax b)
        (treeAt node Config.codeMax a) := by
  obtain ⟨n, hn, -, kind, left, right, freq⟩ := h.made hx
  obtain ⟨ha, hb⟩ := h.children_lt hx
  have hlt := h.next_lt hx
  have child : ∀ k < next, treeAt (mergeInto node next a b) 254 k = treeAt node Config.codeMax k := fun k hk =>
    treeAt_congr h.descends (fun i hi => nodeGet_mergeInto_of_lt hi) hk (by simp only [Config.codeMax]; omega)
      (by omega)
  rw [treeAt_codeMax_of_internal (by rw [hn, kind]), hn, left, right, freq, child a ha, child b hb]

/-! ## The value-level build -/

theorem BuildReaches.rankedBefore_rankedAt (h : BuildReaches ft node q next) (j k : Nat) :
    rankedBefore (rankedAt node j) (rankedAt node k) = nodeBefore node j k := by
  rw [Bool.eq_iff_iff, nodeBefore_iff, rankedBefore_iff, ← h.frequency_treeAt, ← h.frequency_treeAt]
  rfl

theorem BuildReaches.leastRanked_map (h : BuildReaches ft node q next) (x : Nat) (xs : List Nat) :
    leastRanked (rankedAt node x) (xs.map (rankedAt node)) = rankedAt node (leastOf node x xs) := by
  induction xs generalizing x with
  | nil => rfl
  | cons y ys ih =>
    rw [List.map_cons, leastRanked, h.rankedBefore_rankedAt, ← apply_ite (rankedAt node), ih, leastOf]

/-- The two builds extract the same node (R110). -/
theorem BuildReaches.extractRanked_map (h : BuildReaches ft node q next) {p p1 : List Nat} {a : Nat}
    (ha : extractLeast node p = some (a, p1)) :
    extractRanked (p.map (rankedAt node)) = some (rankedAt node a, p1.map (rankedAt node)) := by
  cases p with
  | nil => cases ha
  | cons x xs =>
    cases ha
    rw [List.map_cons, extractRanked, h.leastRanked_map, ← List.map_cons, List.map_erase (rankedAt_injective node)]

/-- One turn of the loop of R110 mirrors one merge of the arena. -/
theorem BuildReaches.mergeValues_succ (h : BuildReaches ft node q next) {a b : Nat} {rest : List Nat}
    (hx : ExtractTwo node q a b rest) (fuel : Nat) :
    mergeValues (fuel + 1) (q.map (rankedAt node)) next =
      mergeValues fuel ((rest ++ [next]).map (rankedAt (mergeInto node next a b))) (next + 1) := by
  have kept : rest.map (rankedAt (mergeInto node next a b)) = rest.map (rankedAt node) :=
    List.map_congr_left fun k hk =>
      congrArg (Ranked.mk k) (h.treeAt_mergeInto_of_lt hx (h.lt_of_mem (hx.mem_iff.2 (by simp [hk]))))
  have made : rankedAt (mergeInto node next a b) next = ⟨next, _⟩ :=
    congrArg (Ranked.mk next) (h.treeAt_mergeInto_next hx)
  obtain ⟨q1, ha, hb⟩ := hx
  rw [List.map_append, kept, List.map_singleton, made, ← h.frequency_treeAt a, ← h.frequency_treeAt b, mergeValues,
    h.extractRanked_map ha]
  simp only [h.extractRanked_map hb]
  rfl

/-- The value-level build starts from the leaves seeded (R102, R110). -/
theorem rankedLeaves_tableValue (ft : List (Nat × Count)) :
    rankedLeaves (tableValue ft) = (seedArena ft).2.map (rankedAt (seedArena ft).1) := by
  have leaf : ∀ {k}, k ∈ presentSymbols ft →
      rankedAt (seedArena ft).1 k = ⟨k, .leaf (some (BitVec.ofNat 8 k)) (ftGet ft k).toNat⟩ := by
    intro k hk
    obtain ⟨hlt, hne⟩ := mem_presentSymbols.1 hk
    rw [rankedAt, treeAt_of_leaf (kind_seedArena ft k), if_pos (by omega), nodeGet_seedArena,
      if_pos ((mem_seedArena_iff hlt).2 hne), leafNode, toNat_seedFreq_of_lt ft hlt]
  have synth : rankedAt (seedArena ft).1 256 = ⟨256, .leaf none 0⟩ := by
    rw [rankedAt, treeAt_of_leaf (kind_seedArena ft 256), if_neg (by omega)]
  rcases seedArena_cases ft with ⟨s, hs, he⟩ | ⟨hne, he⟩
  · rw [show (seedArena ft).2 = [s, 256] by rw [he], List.map_cons, List.map_singleton, leaf (by simp [hs]), synth,
      tableValue, hs]
    rfl
  · have leaves : rankedLeaves (tableValue ft) =
        (tableValue ft).map fun e => ⟨e.1, .leaf (some (BitVec.ofNat 8 e.1)) e.2⟩ := by
      unfold rankedLeaves
      split
      · next e he => exact absurd (by simpa [tableValue] using congrArg List.length he) hne
      · rfl
    rw [leaves, show (seedArena ft).2 = presentSymbols ft by rw [he], tableValue, List.map_map]
    exact List.map_congr_left fun k hk => (leaf hk).symm

/-- The value-level build goes through the trees of `Q` (R110). -/
theorem BuildReaches.mergeValues_eq (h : BuildReaches ft node q next) :
    mergeValues (rankedLeaves (tableValue ft)).length (rankedLeaves (tableValue ft)) Config.intBase =
      mergeValues q.length (q.map (rankedAt node)) next := by
  induction h with
  | seed =>
    rw [rankedLeaves_tableValue, List.length_map]
    rfl
  | merge h hx ih =>
    rw [ih, hx.perm.length_eq, List.length_cons, h.mergeValues_succ hx]
    simp

end

/-- Settles O25: the arena's merges and those of the value-level build go in step, and end with the same root. -/
theorem buildRefinesTheValueLevelBuild : Obligations.BuildRefinesTheValueLevelBuild := by
  intro s t ht
  obtain ⟨hnode, hroot⟩ := exec_build_tree ht
  rw [hnode, hroot, buildValue]
  rcases buildArena_cases s.ft with ⟨-, hq, h⟩ | ⟨-, hl, hq, h⟩
  · rw [h.mergeValues_eq, hq]
    simp [treeValue, mergeValues]
  · rw [h.mergeValues_eq, hq, treeValue_rootOf_cons (by omega)]
    simp [mergeValues, extractRanked, leastRanked, rankedAt]

/-! ## Size and depth -/

theorem HuffTree.depths_pos (tr : HuffTree) : 0 < tr.depths.length := by
  cases tr with
  | leaf => simp [depths]
  | internal f l r =>
    have := l.depths_pos
    simp [depths]
    omega

/-- A leaf is less deep than the tree has leaves (R105). -/
theorem HuffTree.lt_of_mem_depths {tr : HuffTree} {d : Nat} (h : d ∈ tr.depths) : d < tr.depths.length := by
  induction tr generalizing d with
  | leaf => simp_all [depths]
  | internal f l r ihl ihr =>
    have hl := l.depths_pos
    have hr := r.depths_pos
    simp only [depths, List.mem_map, List.mem_append, List.length_map, List.length_append] at h ⊢
    obtain ⟨e, he | he, rfl⟩ := h
    · have := ihl he
      omega
    · have := ihr he
      omega

/-- In a tree with two leaves or more, no leaf is the root (R105). -/
theorem HuffTree.pos_of_mem_depths {tr : HuffTree} (h2 : 2 ≤ tr.depths.length) {d : Nat} (h : d ∈ tr.depths) :
    1 ≤ d := by
  cases tr with
  | leaf => simp [depths] at h2
  | internal f l r =>
    simp only [depths, List.mem_map] at h
    obtain ⟨e, -, rfl⟩ := h
    omega

/-- A code is as long as its leaf is deep (R77, R105). -/
theorem HuffTree.length_mem_depths {tr : HuffTree} {e : Byte × Bits} (h : e ∈ tr.codes) : e.2.length ∈ tr.depths := by
  induction tr generalizing e with
  | leaf s f =>
    cases s with
    | none => cases h
    | some s =>
      simp only [codes, List.mem_singleton] at h
      simp [h, depths]
  | internal f l r ihl ihr =>
    simp only [codes, List.mem_append, List.mem_map] at h
    rcases h with ⟨c, hc, rfl⟩ | ⟨c, hc, rfl⟩
    · simpa [depths] using .inl (ihl hc)
    · simpa [depths] using .inr (ihr hc)

section
variable {ft : List (Nat × Count)} {node : List (Nat × Node)} {q : List Nat} {next : Nat}

/-- The trees in `Q` have the leaves seeded (R105). -/
theorem BuildReaches.sum_depths_length (h : BuildReaches ft node q next) :
    (q.map fun k => (treeAt node Config.codeMax k).depths.length).sum = (seedArena ft).2.length := by
  induction h with
  | seed =>
    have one : ∀ k, (treeAt (seedArena ft).1 Config.codeMax k).depths.length = 1 := by
      intro k
      rw [treeAt_of_leaf (kind_seedArena ft k)]
      split <;> rfl
    simp [one]
  | merge h hx ih =>
    rw [← ih]
    refine hx.sum_eq (fun k hk => ?_) ?_
    · rw [h.treeAt_mergeInto_of_lt hx (h.lt_of_mem (hx.mem_iff.2 (by simp [hk])))]
    · rw [h.treeAt_mergeInto_next hx]
      simp [HuffTree.depths]
      omega

/-- The valid nodes are the leaves seeded and the internal nodes made (R105). -/
theorem BuildReaches.valid_iff (h : BuildReaches ft node q next) {k : Nat} :
    (nodeGet node k).valid = true ↔ k ∈ (seedArena ft).2 ∨ (257 ≤ k ∧ k < next) := by
  rcases Nat.lt_or_ge k 257 with hk | hk
  · rw [h.nodeGet_of_lt hk, nodeGet_seedArena]
    split
    · next hm => simp [hm, leafNode]
    · next hm => simp [hm, Node.unused]; omega
  · have noLeaf : k ∉ (seedArena ft).2 := fun hm => by
      have := lt_of_mem_seedArena hm
      omega
    simp only [noLeaf, hk, false_or, true_and]
    refine ⟨h.lt_of_valid, fun hn => ?_⟩
    obtain ⟨_, _, _, -, -, -, valid, -⟩ := h.origin hk hn
    exact valid

/-- As many nodes are valid as leaves were seeded and merges made (R105). -/
theorem BuildReaches.valid_count (h : BuildReaches ft node q next) (hn : next ≤ 512) :
    ((List.range 512).filter fun k => (nodeGet node k).valid).length = (seedArena ft).2.length + (next - 257) := by
  have nodup : ((seedArena ft).2 ++ List.range' 257 (next - 257)).Nodup := by
    refine List.nodup_append.2 ⟨seedArena_nodup ft, List.nodup_range', fun j hj k hk => ?_⟩
    have := lt_of_mem_seedArena hj
    have := List.mem_range'_1.1 hk
    omega
  have perm : ((List.range 512).filter fun k => (nodeGet node k).valid).Perm
      ((seedArena ft).2 ++ List.range' 257 (next - 257)) := by
    refine (List.perm_ext_iff_of_nodup (List.nodup_range.filter _) nodup).2 fun k => ?_
    have bound : (nodeGet node k).valid = true → k < 512 := fun hv => (h.lt_of_valid hv).trans_le hn
    have hle := h.le_next
    rw [List.mem_filter, List.mem_range, and_iff_right_of_imp bound, h.valid_iff, List.mem_append, List.mem_range'_1,
      show 257 + (next - 257) = next by omega]
  simpa using perm.length_eq

end

/-- Settles O22: the counts of nodes follow from the number of merges, and the depths from the number of leaves. -/
theorem buildSizeAndDepth : Obligations.BuildSizeAndDepth := by
  intro s t ht n l
  obtain ⟨hnode, hroot⟩ := exec_build_tree ht
  have hl : (seedArena s.ft).2.length = l := seedArena_length s.ft
  refine ⟨hl ▸ seedArena_length_cases s.ft, fun hl0 => ?_⟩
  have cases := buildArena_cases s.ft
  rw [hl] at cases
  obtain ⟨h2, h256, hq, h⟩ := cases.resolve_left fun h0 => hl0 h0.1
  simp only [State.nodeAt, hnode, hroot, hq]
  have leaves : (treeAt (buildArena s.ft).1 Config.codeMax (255 + l)).depths.length = l := by
    simpa [hl] using h.sum_depths_length
  have depth : ∀ d ∈ (treeAt (buildArena s.ft).1 Config.codeMax (255 + l)).depths, 1 ≤ d ∧ d ≤ l - 1 := fun d hd =>
    ⟨HuffTree.pos_of_mem_depths (leaves.symm ▸ h2) hd, Nat.le_pred_of_lt (leaves ▸ HuffTree.lt_of_mem_depths hd)⟩
  refine ⟨rootPresent_rootOf_cons _ _, toNat_rootIdx_rootOf_cons (by omega) _, fun k hk => ?_, ?_, _, ?_, leaves, depth,
    fun e he => ?_⟩
  · rw [h.valid_iff]
    have : k ∉ (seedArena s.ft).2 := fun hm => by
      have := lt_of_mem_seedArena hm
      omega
    simp only [this, hk, false_or, true_and]
    omega
  · rw [h.valid_count (by omega), hl]
    omega
  · exact treeValue_rootOf_cons (by omega) _ _
  · have := depth _ (HuffTree.length_mem_depths he)
    omega

end Sys2Proof.Machine
end

section
/-! DERIVE (`42_code_deriver.md`, rules R120 to R124): the codes recorded are those of the tree value, and in an arena
that meets R32 (`10_state.md`) every valid node is reached along just one path from the root. -/

namespace Sys2Proof.Machine

/-! ## The codes of the tree value -/

/-- The table `ct` after `set_code` of each entry of a list, in order (R121). -/
def recordCodes (ct : List (Nat × CodeEntry)) (l : List (Byte × Bits)) : List (Nat × CodeEntry) :=
  l.foldl (fun ct e => setCode ct e.1.toNat e.2) ct

theorem recordCodes_append (ct : List (Nat × CodeEntry)) (l m : List (Byte × Bits)) :
    recordCodes ct (l ++ m) = recordCodes (recordCodes ct l) m := List.foldl_append

theorem visit_of_leaf {node : List (Nat × Node)} {k : Nat} (h : (nodeGet node k).kind = .leaf) (fuel : Nat) (p : Bits)
    (ct : List (Nat × CodeEntry)) : visit node fuel k p ct = if k ≤ 255 then setCode ct k p else ct := by
  unfold visit
  simp only [h]

theorem visit_of_internal {node : List (Nat × Node)} {k : Nat} (h : (nodeGet node k).kind = .internal) (fuel : Nat)
    (p : Bits) (ct : List (Nat × CodeEntry)) :
    visit node (fuel + 1) k p ct =
      visit node fuel (nodeGet node k).right.toNat (p ++ [true])
        (visit node fuel (nodeGet node k).left.toNat (p ++ [false]) ct) := by
  rw [visit]
  simp only [h]

/-- The visit of a leaf records the symbol's code, and nothing for the synthetic leaf (R121, R123). -/
theorem visit_eq_recordCodes_of_leaf {node : List (Nat × Node)} {k : Nat} (h : (nodeGet node k).kind = .leaf)
    (fuel : Nat) (p : Bits) (ct : List (Nat × CodeEntry)) :
    visit node fuel k p ct = recordCodes ct ((treeAt node fuel k).codes.map fun e => (e.1, p ++ e.2)) := by
  rw [visit_of_leaf h, treeAt_of_leaf h]
  split
  · next hk => simp [HuffTree.codes, recordCodes, Nat.mod_eq_of_lt (show k < 256 by omega)]
  · rfl

/-- The visit of a node records the codes of the tree at the node, each behind the path to the node (R121). -/
theorem visit_eq_recordCodes (node : List (Nat × Node)) (fuel k : Nat) (p : Bits) (ct : List (Nat × CodeEntry)) :
    visit node fuel k p ct = recordCodes ct ((treeAt node fuel k).codes.map fun e => (e.1, p ++ e.2)) := by
  induction fuel generalizing k p ct with
  | zero =>
    cases hkind : (nodeGet node k).kind with
    | leaf => exact visit_eq_recordCodes_of_leaf hkind 0 p ct
    | internal => simp [visit, treeAt, hkind, HuffTree.codes, recordCodes]
  | succ fuel ih =>
    cases hkind : (nodeGet node k).kind with
    | leaf => exact visit_eq_recordCodes_of_leaf hkind _ p ct
    | internal =>
      rw [visit_of_internal hkind, treeAt_of_internal hkind, ih, ih, ← recordCodes_append]
      simp [HuffTree.codes, Function.comp_def]

/-- The codes recorded read back, when no symbol is recorded with two codes and every code fits its entry (R21,
R121). -/
theorem codeOf_recordCodes {l : List (Byte × Bits)} (one : ∀ s c c', (s, c) ∈ l → (s, c') ∈ l → c = c')
    (len : ∀ s c, (s, c) ∈ l → 1 ≤ c.length ∧ c.length ≤ Config.codeMax) (sym : Nat) (c : Bits) :
    codeOf (recordCodes [] l) sym = some c ↔ ∃ s : Byte, s.toNat = sym ∧ (s, c) ∈ l := by
  induction l using List.reverseRecOn with
  | nil => simp [recordCodes, codeOf, CodeEntry.absent]
  | append_singleton l e ih =>
    obtain ⟨s', c'⟩ := e
    have last : (s', c') ∈ l ++ [(s', c')] := by simp
    obtain ⟨hpos, hmax⟩ := len s' c' last
    have record : recordCodes [] (l ++ [(s', c')]) = setCode (recordCodes [] l) s'.toNat c' := recordCodes_append _ _ _
    rw [record, codeOf_setCode hpos hmax]
    split
    · next hs =>
      rw [Option.some.injEq]
      constructor
      · rintro rfl
        exact ⟨s', hs.symm, last⟩
      · rintro ⟨s, h, hm⟩
        obtain rfl : s = s' := BitVec.eq_of_toNat_eq (h.trans hs)
        exact one s c' c last hm
    · next hs =>
      rw [ih (fun s c c' h h' => one s c c' (List.mem_append_left _ h) (List.mem_append_left _ h'))
        fun s c h => len s c (List.mem_append_left _ h)]
      refine exists_congr fun s => and_congr_right fun h => ?_
      have hne : s ≠ s' := fun e => hs (h ▸ congrArg BitVec.toNat e)
      simp [hne]

/-- A leaf of a symbol has the empty path, and the synthetic leaf no symbol (R77, R123). -/
theorem mem_codes_treeAt_of_leaf {node : List (Nat × Node)} {k : Nat} (h : (nodeGet node k).kind = .leaf) (fuel : Nat)
    (s : Byte) (c : Bits) : (s, c) ∈ (treeAt node fuel k).codes ↔ s.toNat = k ∧ c = [] := by
  rw [treeAt_of_leaf h]
  split
  · next hk => simp [HuffTree.codes, BitVec.toNat_eq, Nat.mod_eq_of_lt (show k < 256 by omega)]
  · next hk => simp [HuffTree.codes]; omega

/-- A path from an internal node is a move and a path from the child (R77). -/
theorem mem_codes_treeAt_of_internal {node : List (Nat × Node)} {k : NodeIdx}
    (h : (nodeGet node k.toNat).kind = .internal) (fuel : Nat) (s : Byte) (c : Bits) :
    (s, c) ∈ (treeAt node (fuel + 1) k.toNat).codes ↔
      ∃ b c', c = b :: c' ∧ (s, c') ∈ (treeAt node fuel (walkMove node k b).toNat).codes := by
  rw [treeAt_of_internal h]
  simp [HuffTree.codes, walkMove, Bool.exists_bool, and_comm, eq_comm]

/-- No path is longer than the bound of the descent (R105). -/
theorem length_le_of_mem_codes_treeAt {node : List (Nat × Node)} {fuel : Nat} {k : NodeIdx} {s : Byte} {c : Bits}
    (h : (s, c) ∈ (treeAt node fuel k.toNat).codes) : c.length ≤ fuel := by
  induction fuel generalizing k c with
  | zero =>
    cases hkind : (nodeGet node k.toNat).kind with
    | leaf => simp [((mem_codes_treeAt_of_leaf hkind 0 s c).1 h).2]
    | internal => simp [treeAt, hkind, HuffTree.codes] at h
  | succ fuel ih =>
    cases hkind : (nodeGet node k.toNat).kind with
    | leaf => simp [((mem_codes_treeAt_of_leaf hkind _ s c).1 h).2]
    | internal =>
      obtain ⟨b, c', rfl, h'⟩ := (mem_codes_treeAt_of_internal hkind fuel s c).1 h
      simpa using ih h'

/-! ## The arena under R32 -/

section
variable {node : List (Nat × Node)} {root : BitVec 16}

/-- An internal node is a valid entry from 257 on (R19). -/
theorem ArenaInv.valid_of_internal (h : ArenaInv node root) {k : Nat} (hk : (nodeGet node k).kind = .internal) :
    257 ≤ k ∧ (nodeGet node k).valid = true := by
  have hv : (nodeGet node k).valid = true := by
    by_contra hv
    rw [h.unused k (Bool.eq_false_iff.2 hv)] at hk
    cases hk
  refine ⟨?_, hv⟩
  by_contra hlt
  rw [h.leaves k (Nat.lt_of_not_le hlt) hv] at hk
  cases hk

/-- An entry below 257 is a leaf (R19). -/
theorem ArenaInv.kind_leaf_of_lt (h : ArenaInv node root) {k : Nat} (hk : k < 257) : (nodeGet node k).kind = .leaf := by
  cases hkind : (nodeGet node k).kind with
  | leaf => rfl
  | internal => exact absurd (h.valid_of_internal hkind).1 (by omega)

/-- A tree is present when a node is valid, and the root is the last valid node (R32 items 1 and 2). -/
theorem ArenaInv.le_root (h : ArenaInv node root) {k : Nat} (hv : (nodeGet node k).valid = true) :
    rootPresent root = true ∧ k ≤ (rootIdx root).toNat := by
  have hp : rootPresent root = true := by
    by_contra hp
    rw [h.absent (Bool.eq_false_iff.2 hp) k] at hv
    cases hv
  obtain ⟨two, idx⟩ := h.twoLeaves hp
  refine ⟨hp, ?_⟩
  rcases Nat.lt_or_ge k 257 with hlt | hge
  · omega
  · have := ((h.internals k hge).1 hv).1
    omega

/-- The root is an internal node (R32 item 2), so the defensive branch of R122 is never taken. -/
theorem ArenaInv.kind_root (h : ArenaInv node root) (hp : rootPresent root = true) :
    (nodeGet node (rootIdx root).toNat).kind = .internal := by
  obtain ⟨two, idx⟩ := h.twoLeaves hp
  have hge : 257 ≤ (rootIdx root).toNat := by omega
  exact (h.children _ hge ((h.internals _ hge).2 ⟨by omega, hp⟩)).1

/-- A move goes from an internal node down to a valid one (R32 item 3). -/
theorem ArenaInv.walkMove_lt (h : ArenaInv node root) {k : NodeIdx} (hk : (nodeGet node k.toNat).kind = .internal)
    (b : Bool) : (walkMove node k b).toNat < k.toNat ∧ (nodeGet node (walkMove node k b).toNat).valid = true := by
  obtain ⟨hge, hv⟩ := h.valid_of_internal hk
  obtain ⟨-, left, right, -, leftValid, rightValid, -⟩ := h.children _ hge hv
  cases b with
  | false => exact ⟨left, leftValid⟩
  | true => exact ⟨right, rightValid⟩

/-- No move goes to the root, since the root has the highest index (R32 items 2 and 3). -/
theorem ArenaInv.walkMove_ne_root (h : ArenaInv node root) {k : NodeIdx} (hk : (nodeGet node k.toNat).kind = .internal)
    (b : Bool) : walkMove node k b ≠ rootIdx root := fun e =>
  Nat.not_lt_of_le (h.le_root (h.valid_of_internal hk).2).2 (e ▸ (h.walkMove_lt hk b).1)

theorem ArenaInv.descends (h : ArenaInv node root) : Descends node := by
  intro k hk
  obtain ⟨hge, hv⟩ := h.valid_of_internal hk
  obtain ⟨-, left, right, -⟩ := h.children k hge hv
  exact ⟨hge, left, right⟩

/-- A move from `j` goes to a child of `j`. -/
theorem walkMove_eq_child (node : List (Nat × Node)) (j : NodeIdx) (b : Bool) :
    (nodeGet node j.toNat).left.toNat = (walkMove node j b).toNat ∨
      (nodeGet node j.toNat).right.toNat = (walkMove node j b).toNat := by
  cases b with
  | false => exact .inl rfl
  | true => exact .inr rfl

/-- Two moves to the same node are the same move: a node has one parent, whose children differ (R32 items 3 and 4). -/
theorem ArenaInv.walkMove_inj (h : ArenaInv node root) {j k : NodeIdx} {a b : Bool}
    (hj : (nodeGet node j.toNat).kind = .internal) (hk : (nodeGet node k.toNat).kind = .internal)
    (e : walkMove node j a = walkMove node k b) : j = k ∧ a = b := by
  obtain ⟨hjge, hjv⟩ := h.valid_of_internal hj
  obtain ⟨hkge, hkv⟩ := h.valid_of_internal hk
  obtain ⟨i, -, only⟩ := h.oneParent _ (h.walkMove_lt hj a).2 fun e =>
    h.walkMove_ne_root hj a (BitVec.eq_of_toNat_eq e)
  have hji := only _ hjge hjv (walkMove_eq_child node j a)
  have hki := only _ hkge hkv (e ▸ walkMove_eq_child node k b)
  obtain rfl : j = k := BitVec.eq_of_toNat_eq (hji.trans hki.symm)
  obtain ⟨-, -, -, hne, -⟩ := h.children _ hjge hjv
  refine ⟨rfl, ?_⟩
  cases a <;> cases b
  · rfl
  · exact absurd e hne
  · exact absurd e.symm hne
  · rfl

/-- A valid node other than the root is the end of a move (R32 item 4). -/
theorem ArenaInv.exists_walkMove_eq (h : ArenaInv node root) {k : NodeIdx} (hv : (nodeGet node k.toNat).valid = true)
    (hne : k ≠ rootIdx root) : ∃ j b, (nodeGet node j.toNat).kind = .internal ∧ walkMove node j b = k := by
  obtain ⟨j, ⟨hge, hjv, child⟩, -⟩ := h.oneParent k.toNat hv fun e => hne (BitVec.eq_of_toNat_eq e)
  have hj : (BitVec.ofNat 9 j).toNat = j := by
    have := (h.le_root hjv).2
    have := (rootIdx root).isLt
    simp
    omega
  refine ⟨BitVec.ofNat 9 j, decide ((nodeGet node j).left.toNat ≠ k.toNat), ?_, BitVec.eq_of_toNat_eq ?_⟩
  · rw [hj]
    exact (h.children j hge hjv).1
  · rw [walkMove, hj]
    split
    · next hl => exact child.resolve_left (by simpa using hl)
    · next hl => simpa using hl

/-! ## The path to a node -/

/-- The bits `p` lead from the node `r` over internal nodes to the node `k` (R77, R150). -/
inductive PathTo (node : List (Nat × Node)) (r : NodeIdx) : Bits → NodeIdx → Prop
  | start : PathTo node r [] r
  | move {p : Bits} {k : NodeIdx} (h : PathTo node r p k) (hk : (nodeGet node k.toNat).kind = .internal) (b : Bool) :
      PathTo node r (p ++ [b]) (walkMove node k b)

/-- Just one path leads from the root to a node (R32 item 4). -/
theorem PathTo.unique {p q : Bits} {k : NodeIdx} (hp : PathTo node (rootIdx root) p k) (h : ArenaInv node root)
    (hq : PathTo node (rootIdx root) q k) : p = q := by
  induction hp generalizing q with
  | start =>
    generalize hr : rootIdx root = r at hq
    cases hq with
    | start => rfl
    | move _ hj b => exact absurd hr.symm (hr ▸ h.walkMove_ne_root hj b)
  | @move p j _ hj b ih =>
    generalize hk : walkMove node j b = k at hq
    cases hq with
    | start => exact absurd hk (h.walkMove_ne_root hj b)
    | move hq hi a =>
      obtain ⟨rfl, rfl⟩ := h.walkMove_inj hj hi hk
      rw [ih hq]

/-- A path from the root ends at a valid node (R32 item 3). -/
theorem PathTo.valid {p : Bits} {k : NodeIdx} (hp : PathTo node (rootIdx root) p k) (h : ArenaInv node root)
    (present : rootPresent root = true) : (nodeGet node k.toNat).valid = true := by
  cases hp with
  | start => exact (h.valid_of_internal (h.kind_root present)).2
  | move _ hk b => exact (h.walkMove_lt hk b).2

/-- A path leads to every valid node: from parent to parent the index rises up to the root (R32 items 3 and 4). -/
theorem ArenaInv.exists_pathTo (h : ArenaInv node root) {k : NodeIdx} (hv : (nodeGet node k.toNat).valid = true) :
    ∃ p, PathTo node (rootIdx root) p k := by
  generalize hn : 512 - k.toNat = n
  induction n using Nat.strong_induction_on generalizing k with
  | _ n ih =>
    by_cases hr : k = rootIdx root
    · exact ⟨[], hr ▸ .start⟩
    · obtain ⟨j, b, hj, rfl⟩ := h.exists_walkMove_eq hv hr
      have hlt := (h.walkMove_lt hj b).1
      have := j.isLt
      obtain ⟨p, hp⟩ := ih (512 - j.toNat) (by omega) (h.valid_of_internal hj).2 rfl
      exact ⟨_, hp.move hj b⟩

/-- A code of the tree at a node continues the path to the node up to the leaf of its symbol (R77). -/
theorem PathTo.append_of_mem_codes {r : NodeIdx} {p : Bits} {k : NodeIdx} (hp : PathTo node r p k) {fuel : Nat}
    {s : Byte} {c : Bits} (hc : (s, c) ∈ (treeAt node fuel k.toNat).codes) :
    PathTo node r (p ++ c) (s.setWidth 9) := by
  have atLeaf : ∀ {p : Bits} {k : NodeIdx} {c : Bits}, PathTo node r p k → s.toNat = k.toNat ∧ c = [] →
      PathTo node r (p ++ c) (s.setWidth 9) := by
    rintro p k c hp ⟨hs, rfl⟩
    have hk : s.setWidth 9 = k := by bv_omega
    rwa [List.append_nil, hk]
  induction fuel generalizing p k c with
  | zero =>
    cases hkind : (nodeGet node k.toNat).kind with
    | leaf => exact atLeaf hp ((mem_codes_treeAt_of_leaf hkind _ s c).1 hc)
    | internal => simp [treeAt, hkind, HuffTree.codes] at hc
  | succ fuel ih =>
    cases hkind : (nodeGet node k.toNat).kind with
    | leaf => exact atLeaf hp ((mem_codes_treeAt_of_leaf hkind _ s c).1 hc)
    | internal =>
      obtain ⟨b, c', rfl, hc'⟩ := (mem_codes_treeAt_of_internal hkind fuel s c).1 hc
      simpa using ih (hp.move hkind b) hc'

/-- A code of the tree at a node, behind the path to the node, is a code of the whole tree (R77). -/
theorem PathTo.mem_codes_append {r : NodeIdx} {p : Bits} {k : NodeIdx} (hp : PathTo node r p k) (hd : Descends node)
    {s : Byte} {c : Bits} (hc : (s, c) ∈ (treeAt node Config.codeMax k.toNat).codes) :
    (s, p ++ c) ∈ (treeAt node Config.codeMax r.toNat).codes := by
  induction hp generalizing c with
  | start => exact hc
  | @move p k _ hk b ih =>
    have hlt : (walkMove node k b).toNat < 511 := by
      obtain ⟨-, left, right⟩ := hd _ hk
      have := k.isLt
      rcases walkMove_eq_child node k b with e | e <;> omega
    rw [treeAt_congr hd (f := 254) (fun _ _ => rfl) hlt (by omega) (by simp only [Config.codeMax]; omega)] at hc
    simpa using ih ((mem_codes_treeAt_of_internal hk 254 s (b :: c)).2 ⟨b, c, rfl, hc⟩)

/-- The codes of the whole tree are the paths from the root to the leaves of symbols (R77, R123). -/
theorem ArenaInv.mem_codes_iff_pathTo (h : ArenaInv node root) (s : Byte) (c : Bits) :
    (s, c) ∈ (treeAt node Config.codeMax (rootIdx root).toNat).codes ↔
      PathTo node (rootIdx root) c (s.setWidth 9) := by
  constructor
  · exact fun hc => PathTo.start.append_of_mem_codes hc
  · intro hp
    have hs : (s.setWidth 9).toNat = s.toNat := by bv_omega
    have leaf := h.kind_leaf_of_lt (k := (s.setWidth 9).toNat) (by omega)
    simpa using hp.mem_codes_append h.descends ((mem_codes_treeAt_of_leaf leaf _ s []).2 ⟨hs.symm, rfl⟩)

/-- A code has 1 to CODE_MAX bits (R105): the root is no leaf, and the descent is bounded. -/
theorem ArenaInv.length_of_mem_codes (h : ArenaInv node root) (present : rootPresent root = true) {s : Byte} {c : Bits}
    (hc : (s, c) ∈ (treeAt node Config.codeMax (rootIdx root).toNat).codes) :
    1 ≤ c.length ∧ c.length ≤ Config.codeMax := by
  refine ⟨?_, length_le_of_mem_codes_treeAt hc⟩
  obtain ⟨b, c', rfl, -⟩ := (mem_codes_treeAt_of_internal (h.kind_root present) 254 s c).1 hc
  simp

end

/-! ## The command -/

theorem treeValue_eq_some {node : List (Nat × Node)} {root : BitVec 16} {tr : HuffTree}
    (h : treeValue node root = some tr) :
    rootPresent root = true ∧ treeAt node Config.codeMax (rootIdx root).toNat = tr := by
  simpa [treeValue] using h

/-- The codes `derive_codes` records under R32: those of the tree value (R121), each symbol with one. -/
theorem codeOf_codesOf_iff {node : List (Nat × Node)} {root : BitVec 16} (h : ArenaInv node root) (sym : Nat)
    (c : Bits) :
    codeOf (codesOf node root) sym = some c ↔
      ∃ tr, treeValue node root = some tr ∧ ∃ s : Byte, s.toNat = sym ∧ (s, c) ∈ tr.codes := by
  cases hp : rootPresent root with
  | false => simp [codesOf, treeValue, hp, codeOf, CodeEntry.absent]
  | true =>
    have codes : codesOf node root = recordCodes [] (treeAt node Config.codeMax (rootIdx root).toNat).codes := by
      simp [codesOf, hp, h.kind_root hp, visit_eq_recordCodes]
    have one : ∀ s c c', (s, c) ∈ (treeAt node Config.codeMax (rootIdx root).toNat).codes →
        (s, c') ∈ (treeAt node Config.codeMax (rootIdx root).toNat).codes → c = c' := fun s c c' hc hc' =>
      ((h.mem_codes_iff_pathTo s c).1 hc).unique h ((h.mem_codes_iff_pathTo s c').1 hc')
    rw [codes, codeOf_recordCodes one fun s c => h.length_of_mem_codes hp]
    simp [treeValue, hp]

/-- The code of a symbol is the path from the root to its leaf (R121, R77). -/
theorem codeOf_codesOf_iff_pathTo {node : List (Nat × Node)} {root : BitVec 16} (h : ArenaInv node root) (s : Byte)
    (c : Bits) :
    codeOf (codesOf node root) s.toNat = some c ↔
      rootPresent root = true ∧ PathTo node (rootIdx root) c (s.setWidth 9) := by
  simp [codeOf_codesOf_iff h, treeValue, ← BitVec.toNat_eq, h.mem_codes_iff_pathTo]

/-- Settles O26: the visit records the codes of the tree value, and no symbol twice. -/
theorem deriveRecordsTheLeafPaths : Obligations.DeriveRecordsTheLeafPaths := by
  intro s h
  refine ⟨_, exec_derive s, fun sym c hsym => (codeOf_codesOf_iff h sym c).trans ?_⟩
  refine exists_congr fun tr => and_congr_right fun _ => ⟨?_, fun hc => ⟨_, ?_, hc⟩⟩
  · rintro ⟨v, rfl, hc⟩
    simpa using hc
  · simpa using hsym

/-- Settles O27: a path leads to every valid leaf, none to an invalid one, and no path to a leaf is empty. -/
theorem deriveCodesTheValidLeaves : Obligations.DeriveCodesTheValidLeaves := by
  intro s t h ht
  cases (exec_derive s).symm.trans ht
  refine ⟨fun sym hsym => ?_, fun sym c hc => ?_⟩
  · obtain ⟨v, rfl⟩ : ∃ v : Byte, v.toNat = sym := ⟨BitVec.ofNat 8 sym, by simpa using hsym⟩
    have leaf : s.nodeAt v.toNat = nodeGet s.node (v.setWidth 9).toNat :=
      congrArg (nodeGet s.node) (by bv_omega : v.toNat = (v.setWidth 9).toNat)
    simp only [Option.ne_none_iff_exists', codeOf_codesOf_iff_pathTo h, leaf]
    constructor
    · rintro ⟨c, present, hp⟩
      exact hp.valid h present
    · intro hv
      obtain ⟨p, hp⟩ := h.exists_pathTo hv
      exact ⟨p, (h.le_root hv).1, hp⟩
  · obtain ⟨tr, htr, v, rfl, hv⟩ := (codeOf_codesOf_iff h sym c).1 hc
    obtain ⟨present, rfl⟩ := treeValue_eq_some htr
    exact ⟨v.isLt, h.length_of_mem_codes present hv⟩

end Sys2Proof.Machine
end

section
/-! PACK (`43_bit_packer.md`, rules R130 to R139): the loop of `pack_bits` emits the whole bytes of the code string and
keeps its last bits, the tail completes those, so `pack_bits` is one `emitAll` of `payload ++ [trailer]`. -/

namespace Sys2Proof.Machine

/-! ## The whole bytes and the last bits of a bit string -/

/-- What the bit buffer of R131 keeps of a bit string: the fewer than 8 bits after its whole bytes. -/
def lastBits (b : Bits) : Bits := b.drop (8 * (b.length / 8))

@[simp] theorem lastBits_length (b : Bits) : (lastBits b).length = b.length % 8 := by
  rw [lastBits, List.length_drop]
  omega

theorem lastBits_length_lt (b : Bits) : (lastBits b).length < 8 := by
  rw [lastBits_length]
  exact Nat.mod_lt _ (by decide)

theorem lastBits_of_lt {b : Bits} (h : b.length < 8) : lastBits b = b := by
  simp [lastBits, Nat.div_eq_of_lt h]

/-- The whole bytes come off without a change to the last bits. -/
theorem lastBits_append (a b : Bits) : lastBits (a ++ b) = lastBits (lastBits a ++ b) := by
  have whole : 8 * (a.length / 8) ≤ a.length := Nat.mul_div_le _ _
  have kept : lastBits a ++ b = (a ++ b).drop (8 * (a.length / 8)) := (List.drop_append_of_le_length whole).symm
  rw [kept, lastBits, lastBits, List.drop_drop, List.length_drop, List.length_append]
  congr 1
  omega

theorem lastBits_drop {b : Bits} (h : 8 ≤ b.length) : lastBits (b.drop 8) = lastBits b := by
  rw [lastBits, lastBits, List.drop_drop, List.length_drop]
  congr 1
  omega

/-- The whole bytes of a bit string that goes on: those of its beginning, then those of the last bits with what
follows. -/
theorem bytesOf_append (a b : Bits) : bytesOf (a ++ b) = bytesOf a ++ bytesOf (lastBits a ++ b) := by
  by_cases h : 8 ≤ a.length
  · rw [bytesOf_of_le h, bytesOf_of_le (by simp; omega), List.take_append_of_le_length h,
      List.drop_append_of_le_length h, bytesOf_append (a.drop 8) b, lastBits_drop h, List.cons_append]
  · have short : a.length < 8 := by omega
    rw [bytesOf_of_lt short, lastBits_of_lt short, List.nil_append]
termination_by a.length

/-! ## The payload and the trailer -/

theorem padOf_mod (t : Nat) : padOf (t % 8) = padOf t := by
  unfold padOf
  omega

/-- The padding depends on the last bits alone (R71). -/
theorem trailer_lastBits (b : Bits) : trailer (lastBits b) = trailer b := by
  rw [trailer, trailer, lastBits_length, padOf_mod]

/-- The payload is the whole bytes, then the byte the last bits are completed to, if any (R71). -/
theorem payload_eq (b : Bits) : payload b = bytesOf b ++ payload (lastBits b) := by
  rw [payload, payload, lastBits_length, padOf_mod, bytesOf_append]

/-- The output has `ceil(T / 8) + 1` bytes (R132). -/
theorem packed_length (ct : List (Nat × CodeEntry)) (x : List Byte) :
    (packed ct x).length = ((codeString ct x).length + 7) / 8 + 1 := by
  rw [packed, payload, List.length_append, bytesOf_length, List.length_append, zeros_length, List.length_singleton,
    padOf]
  omega

/-! ## The procedure -/

theorem emitAll_append (cap : Nat) (out v w : List Byte) :
    emitAll cap out (v ++ w) = (emitAll cap out v).bind fun o => emitAll cap o w := by
  induction v generalizing out with
  | nil => rfl
  | cons a v ih => simp only [List.cons_append, emitAll_cons, Res.bind_assoc, ih]

/-- The drain of the bit buffer (R131), with its fuel. -/
theorem drain_self (cap : Nat) (buf : Bits) (out : List Byte) :
    drain cap buf.length buf out = (emitAll cap out (bytesOf buf)).bind fun o => .ok (lastBits buf, o) :=
  drain_eq cap buf.length buf out le_rfl

/-- One byte of the loop that has a code (R131). -/
theorem packLoop_cons_of_coded (cap : Nat) {ct : List (Nat × CodeEntry)} {v : Byte}
    (h : (ctGet ct v.toNat).len ≠ 0#8) (rest : List (Option Byte)) (buf : Bits) (out : List Byte) :
    packLoop cap ct (some v :: rest) buf out =
      (emitAll cap out (bytesOf (buf ++ codeBits (ctGet ct v.toNat)))).bind fun o =>
        packLoop cap ct rest (lastBits (buf ++ codeBits (ctGet ct v.toNat))) o := by
  rw [packLoop, readByte_some, Res.bind_ok, if_neg h, drain_self, Res.bind_assoc]
  rfl

/-- A byte without a code stops the loop before any emit (R135). -/
theorem packLoop_cons_of_uncoded (cap : Nat) {ct : List (Nat × CodeEntry)} {v : Byte}
    (h : (ctGet ct v.toNat).len = 0#8) (rest : List (Option Byte)) (buf : Bits) (out : List Byte) :
    packLoop cap ct (some v :: rest) buf out = .raise .missingCode := by
  rw [packLoop, readByte_some, Res.bind_ok, if_pos h]

/-- The loop over bytes that have codes emits the whole bytes of the buffer with the code string, in order, and goes on
with the last bits in the buffer (R132). -/
theorem packLoop_append (cap : Nat) {ct : List (Nat × CodeEntry)} {x : List Byte} (hx : AllCoded ct x)
    (rest : List (Option Byte)) {buf : Bits} (hb : buf.length < 8) (out : List Byte) :
    packLoop cap ct (x.map some ++ rest) buf out =
      (emitAll cap out (bytesOf (buf ++ codeString ct x))).bind fun o =>
        packLoop cap ct rest (lastBits (buf ++ codeString ct x)) o := by
  induction x generalizing buf out with
  | nil => simp [bytesOf_of_lt hb, lastBits_of_lt hb]
  | cons v x ih =>
    obtain ⟨hv, hx⟩ := List.forall_mem_cons.1 hx
    have later := ih hx (lastBits_length_lt (buf ++ codeBits (ctGet ct v.toNat)))
    simp only [List.map_cons, List.cons_append, packLoop_cons_of_coded cap hv, later, codeString_cons]
    rw [← List.append_assoc, bytesOf_append (buf ++ _), lastBits_append (buf ++ _), emitAll_append, Res.bind_assoc]

/-- The tail emits the payload of the bits left in the buffer and the trailer (R134). -/
theorem packTail_eq (cap : Nat) {buf : Bits} (hb : buf.length < 8) (out : List Byte) :
    packTail cap buf out =
      (emitAll cap out (payload buf ++ [trailer buf])).bind fun o => .ok (trailer buf, o) := by
  unfold packTail
  split
  · next hpos =>
    have pad : padOf buf.length = 8 - buf.length := by unfold padOf; omega
    have full : (buf ++ zeros (8 - buf.length)).length = 8 := by simp; omega
    have bytes : payload buf = [byteOf (buf ++ zeros (8 - buf.length))] := by
      rw [payload, pad, bytesOf_of_le full.ge, List.take_of_length_le full.le, List.drop_of_length_le full.le,
        bytesOf_nil]
    simp [bytes, trailer, pad, emitAll_cons, Res.bind_assoc]
  · next hpos =>
    obtain rfl : buf = [] := List.length_eq_zero_iff.1 (by omega)
    have alone : payload [] ++ [trailer []] = [0#8] := rfl
    rw [alone, emitAll_cons, Res.bind_assoc]
    rfl

/-- `pack_bits` on bytes that all have codes emits `payload ++ [trailer]` and gives the trailer (R132, R134). -/
theorem packBits_of_coded (cap : Nat) {ct : List (Nat × CodeEntry)} {x : List Byte} (hx : AllCoded ct x)
    (out : List Byte) :
    packBits cap ct (x.map some) out =
      (emitAll cap out (packed ct x)).bind fun o => .ok (trailer (codeString ct x), o) := by
  have loop := packLoop_append cap hx [] (buf := []) (by decide) out
  have tail := packTail_eq cap (lastBits_length_lt (codeString ct x))
  rw [List.append_nil, List.nil_append] at loop
  rw [packBits, loop, packed, payload_eq, List.append_assoc, emitAll_append, Res.bind_assoc, Res.bind_assoc]
  simp only [packLoop, Res.bind_ok, tail, trailer_lastBits]

/-- `pack_bits` raises MissingCode at the first byte without a code when the whole bytes before it fit (R135). -/
theorem packBits_of_uncoded {cap : Nat} {ct : List (Nat × CodeEntry)} {x : List Byte} (hx : AllCoded ct x) {v : Byte}
    (hv : (ctGet ct v.toNat).len = 0#8) (rest : List (Option Byte)) (hfit : (codeString ct x).length / 8 ≤ cap) :
    packBits cap ct (x.map some ++ some v :: rest) [] = .raise .missingCode := by
  rw [packBits, packLoop_append cap hx _ (by decide), List.nil_append,
    emitAll_of_le _ (by rw [bytesOf_length]; simpa using hfit), Res.bind_ok, packLoop_cons_of_uncoded cap hv,
    Res.bind_raise]

/-- `pack_bits` raises IOFailure when the whole bytes of the codes do not fit, whatever comes after (R135). -/
theorem packBits_of_full {cap : Nat} {ct : List (Nat × CodeEntry)} {x : List Byte} (hx : AllCoded ct x)
    (rest : List (Option Byte)) (hfull : cap < (codeString ct x).length / 8) :
    packBits cap ct (x.map some ++ rest) [] = .raise .ioFailure := by
  rw [packBits, packLoop_append cap hx _ (by decide), List.nil_append,
    emitAll_of_lt _ (Nat.zero_le _) (by rw [bytesOf_length]; simpa using hfull), Res.bind_raise, Res.bind_raise]

/-! ## The command -/

@[simp] theorem succeeded_status (s : State) (out : List Byte) (p : Byte) : (s.succeeded out p).status = 0x00#8 := rfl
@[simp] theorem failed_status (s : State) (k : FailKind) : (s.failed k).status = 0x02#8 := rfl

/-- PACK is `pack_bits` inside the command frame (R130). -/
theorem exec_pack (s : State) :
    exec .pack s = runFrame (fun s1 =>
      Body.ofRes s1 (packBits s1.params.outCap.toNat s1.ct s1.input []) fun r => setResult r.2 r.1 s1) s := rfl

/-- PACK when `pack_bits` gives a value, whole (R130). -/
theorem exec_pack_of_ok {s : State} {p : Byte} {out : List Byte}
    (h : packBits s.params.outCap.toNat s.ct s.input [] = .ok (p, out)) : exec .pack s = .next (s.succeeded out p) := by
  rw [exec_pack, runFrame_of_done (t := setResult out p (beginCommand s)) (by simp [h]),
    endCommand_setResult rfl rfl]
  rfl

/-- PACK when `pack_bits` raises, whole (R200, R201). -/
theorem exec_pack_of_raise {s : State} {k : FailKind} (hk : k ≠ .illegalCommand)
    (h : packBits s.params.outCap.toNat s.ct s.input [] = .raise k) : exec .pack s = .next (s.failed k) := by
  rw [exec_pack, runFrame_of_raise (k := k) (t := beginCommand s) (by simp [h]), endCommand_takeFailure hk rfl]
  rfl

/-- PACK of a result that fits OUT (R132, R134). -/
theorem exec_pack_of_fits {s : State} {x : List Byte} (h : s.input = x.map some) (hx : AllCoded s.ct x)
    (hfit : ((codeString s.ct x).length + 7) / 8 + 1 ≤ s.params.outCap.toNat) :
    exec .pack s = .next (s.succeeded (packed s.ct x) (trailer (codeString s.ct x))) := by
  refine exec_pack_of_ok ?_
  rw [h, packBits_of_coded _ hx, emitAll_of_le _ (by rw [packed_length]; simpa using hfit), Res.bind_ok,
    List.nil_append]

/-- PACK at the first byte without a code, the bytes before it packed (R135). -/
theorem exec_pack_of_uncoded {s : State} {x : List Byte} {v : Byte} {rest : List (Option Byte)}
    (h : s.input = x.map some ++ some v :: rest) (hx : AllCoded s.ct x) (hv : (ctGet s.ct v.toNat).len = 0#8)
    (hfit : (codeString s.ct x).length / 8 ≤ s.params.outCap.toNat) :
    exec .pack s = .next (s.failed .missingCode) :=
  exec_pack_of_raise (by decide) (h ▸ packBits_of_uncoded hx hv rest hfit)

/-- PACK when the whole bytes of the codes do not fit OUT (R135). -/
theorem exec_pack_of_full {s : State} {x : List Byte} {rest : List (Option Byte)} (h : s.input = x.map some ++ rest)
    (hx : AllCoded s.ct x) (hfull : s.params.outCap.toNat < (codeString s.ct x).length / 8) :
    exec .pack s = .next (s.failed .ioFailure) :=
  exec_pack_of_raise (by decide) (h ▸ packBits_of_full hx rest hfull)

/-- PACK of a result that does not fit OUT (R134, R135). -/
theorem exec_pack_of_overflow {s : State} {x : List Byte} (h : s.input = x.map some) (hx : AllCoded s.ct x)
    (hfull : s.params.outCap.toNat < ((codeString s.ct x).length + 7) / 8 + 1) :
    exec .pack s = .next (s.failed .ioFailure) := by
  refine exec_pack_of_raise (by decide) ?_
  rw [h, packBits_of_coded _ hx, emitAll_of_lt _ (Nat.zero_le _) (by rw [packed_length]; simpa using hfull),
    Res.bind_raise]

/-- A sequence that is not all coded has a first byte without a code. -/
theorem exists_first_uncoded {ct : List (Nat × CodeEntry)} {x : List Byte} (h : ¬ AllCoded ct x) :
    ∃ y v z, x = y ++ v :: z ∧ AllCoded ct y ∧ (ctGet ct v.toNat).len = 0#8 := by
  induction x with
  | nil => exact absurd (List.forall_mem_nil _) h
  | cons v x ih =>
    by_cases hv : (ctGet ct v.toNat).len = 0#8
    · exact ⟨[], v, x, rfl, List.forall_mem_nil _, hv⟩
    · obtain ⟨y, w, z, rfl, hy, hw⟩ := ih fun hx => h (List.forall_mem_cons.2 ⟨hv, hx⟩)
      exact ⟨v :: y, w, z, rfl, List.forall_mem_cons.2 ⟨hv, hy⟩, hw⟩

/-- PACK of a written operand fails when a byte has no code, whichever of the two failures comes first (R135). -/
theorem exec_pack_of_not_allCoded {s : State} {x : List Byte} (h : s.input = x.map some) (hx : ¬ AllCoded s.ct x) :
    ∃ k, exec .pack s = .next (s.failed k) := by
  obtain ⟨y, v, z, rfl, hy, hv⟩ := exists_first_uncoded hx
  rw [List.map_append, List.map_cons] at h
  rcases le_or_gt ((codeString s.ct y).length / 8) s.params.outCap.toNat with hfit | hfull
  · exact ⟨_, exec_pack_of_uncoded h hy hv hfit⟩
  · exact ⟨_, exec_pack_of_full h hy hfull⟩

/-- PACK of a written operand fails unless every byte has a code and the result fits (R133, R135). -/
theorem exec_pack_of_not {s : State} {x : List Byte} (h : s.input = x.map some)
    (hn : ¬ (AllCoded s.ct x ∧ ((codeString s.ct x).length + 7) / 8 + 1 ≤ s.params.outCap.toNat)) :
    ∃ k, exec .pack s = .next (s.failed k) := by
  by_cases hx : AllCoded s.ct x
  · exact ⟨_, exec_pack_of_overflow h hx (not_le.1 fun hfit => hn ⟨hx, hfit⟩)⟩
  · exact exec_pack_of_not_allCoded h hx

/-- Settles O31: `pack_bits` is one `emitAll` of the packed bytes, and those fit. -/
theorem packMakesPayloadAndTrailer : Obligations.PackMakesPayloadAndTrailer :=
  fun _ _ => exec_pack_of_fits

/-- Settles O32: each clause is the end of PACK at that point of the input, and STATUS.ERR tells the cases apart. -/
theorem packFailsInInputOrder : Obligations.PackFailsInInputOrder := by
  refine fun s => ⟨fun _ _ _ => exec_pack_of_uncoded, fun _ _ => exec_pack_of_full, fun _ => exec_pack_of_overflow,
    fun x t h ht => ?_⟩
  by_cases hok : AllCoded s.ct x ∧ ((codeString s.ct x).length + 7) / 8 + 1 ≤ s.params.outCap.toNat
  · cases (exec_pack_of_fits h hok.1 hok.2).symm.trans ht
    exact iff_of_true (by rw [succeeded_status]; decide) hok
  · obtain ⟨k, hk⟩ := exec_pack_of_not h hok
    cases hk.symm.trans ht
    exact iff_of_false (by rw [failed_status]; decide) hok

end Sys2Proof.Machine
end


section
/-! The finished arena meets R32 (`10_state.md`): the nodes in `Q` are valid and have no parent yet, so each merge gives
its two nodes their one parent, and only the root is left without one. -/

namespace Sys2Proof.Machine

section
variable {ft : List (Nat × Count)} {node : List (Nat × Node)} {q : List Nat} {next : Nat}

/-- An entry below 257 that is valid is a leaf seeded (R101, R102). -/
theorem BuildReaches.nodeGet_of_valid_of_lt (h : BuildReaches ft node q next) {k : Nat} (hk : k < 257)
    (hv : (nodeGet node k).valid = true) : nodeGet node k = leafNode (seedFreq ft k) := by
  have seeded := (h.valid_iff.1 hv).resolve_right (by omega)
  rw [h.nodeGet_of_lt hk, nodeGet_seedArena, if_pos seeded]

/-- An entry that is not valid is unused (R19). -/
theorem BuildReaches.nodeGet_of_not_valid (h : BuildReaches ft node q next) {k : Nat}
    (hv : (nodeGet node k).valid = false) : nodeGet node k = Node.unused := by
  have invalid : ¬ (k ∈ (seedArena ft).2 ∨ (257 ≤ k ∧ k < next)) := fun hm => by simp [h.valid_iff.2 hm] at hv
  rw [not_or, not_and, not_lt] at invalid
  rcases Nat.lt_or_ge k 257 with hk | hk
  · rw [h.nodeGet_of_lt hk, nodeGet_seedArena, if_neg invalid.1]
  · exact h.nodeGet_of_le (invalid.2 hk)

/-- The nodes in `Q` are valid (R101). -/
theorem BuildReaches.valid_of_mem (h : BuildReaches ft node q next) {k : Nat} (hk : k ∈ q) :
    (nodeGet node k).valid = true := by
  induction h with
  | seed => rw [nodeGet_seedArena, if_pos hk]; rfl
  | @merge node q rest a b next h hx ih =>
    rcases List.mem_append.1 hk with hk | hk
    · have hq := hx.mem_iff.2 (.inr (.inr hk))
      rw [nodeGet_mergeInto_of_lt (h.lt_of_mem hq), ih hq]
    · rw [List.mem_singleton.1 hk, nodeGet_mergeInto, if_pos rfl]
      rfl

/-- A node that has a parent is not in `Q` any more (R101, R104). -/
theorem BuildReaches.child_not_mem (h : BuildReaches ft node q next) {i k : Nat} (hi : 257 ≤ i) (hn : i < next)
    (child : (nodeGet node i).left.toNat = k ∨ (nodeGet node i).right.toNat = k) : k ∉ q := by
  have lt : k < i := by have := h.children hi hn; omega
  induction h with
  | seed => omega
  | @merge node q rest a b next h hx ih =>
    rw [List.mem_append, List.mem_singleton, not_or]
    refine ⟨fun hk => ?_, by omega⟩
    rcases Nat.lt_or_ge i next with hlt | hge
    · rw [nodeGet_mergeInto_of_lt hlt] at child
      exact ih hlt child (hx.mem_iff.2 (.inr (.inr hk)))
    · obtain rfl : i = next := by omega
      obtain ⟨n, hn, -, -, left, right, -⟩ := h.made hx
      have nodup := hx.perm.nodup_iff.1 h.nodup
      rw [hn, left, right] at child
      rcases child with rfl | rfl <;> simp [hk] at nodup

/-- The children of an internal node are two valid nodes (R104). -/
theorem BuildReaches.children_valid (h : BuildReaches ft node q next) {k : Nat} (hk : 257 ≤ k) (hn : k < next) :
    (nodeGet node k).left ≠ (nodeGet node k).right ∧
      (nodeGet node (nodeGet node k).left.toNat).valid = true ∧
      (nodeGet node (nodeGet node k).right.toNat).valid = true := by
  obtain ⟨node0, q0, rest, h0, hx, agree, -⟩ := h.origin hk hn
  obtain ⟨hr, hl, -⟩ := h.children hk hn
  have nodup := hx.perm.nodup_iff.1 h0.nodup
  refine ⟨fun e => by simp [e] at nodup, ?_, ?_⟩
  · rw [agree _ hl]
    exact h0.valid_of_mem (hx.mem_iff.2 (by simp))
  · rw [agree _ hr]
    exact h0.valid_of_mem (hx.mem_iff.2 (by simp))

/-- No node has two parents: the later merge would find it gone from `Q` (R101, R104). -/
theorem BuildReaches.parent_unique (h : BuildReaches ft node q next) {i j k : Nat} (hi : 257 ≤ i) (hin : i < next)
    (hj : 257 ≤ j) (hjn : j < next) (ci : (nodeGet node i).left.toNat = k ∨ (nodeGet node i).right.toNat = k)
    (cj : (nodeGet node j).left.toNat = k ∨ (nodeGet node j).right.toNat = k) : i = j := by
  have notBefore : ∀ {i j : Nat}, 257 ≤ i → j < next →
      ((nodeGet node i).left.toNat = k ∨ (nodeGet node i).right.toNat = k) →
      ((nodeGet node j).left.toNat = k ∨ (nodeGet node j).right.toNat = k) → ¬ i < j := by
    intro i j hi hjn ci cj hij
    obtain ⟨node0, q0, rest, h0, hx, agree, -⟩ := h.origin (by omega) hjn
    refine h0.child_not_mem hi hij (by rwa [← agree i hij]) (hx.mem_iff.2 ?_)
    rcases cj with rfl | rfl <;> simp
  have := notBefore hi hjn ci cj
  have := notBefore hj hin cj ci
  omega

/-- The valid leaves are as many as were seeded (R32 item 2). -/
theorem BuildReaches.leafTotal_eq (h : BuildReaches ft node q next) : leafTotal node = (seedArena ft).2.length := by
  refine ((List.perm_ext_iff_of_nodup (List.nodup_range.filter _) (seedArena_nodup ft)).2 fun k => ?_).length_eq
  rw [List.mem_filter, List.mem_range, h.valid_iff, Config.intBase]
  constructor
  · rintro ⟨hk, hm⟩
    exact hm.resolve_right (by omega)
  · exact fun hm => ⟨lt_of_mem_seedArena hm, .inl hm⟩

/-- The valid leaves below the synthetic one are the present symbols (R32 item 5). -/
theorem BuildReaches.filter_valid_eq (h : BuildReaches ft node q next) :
    (List.range Config.nSym).filter (fun k => (nodeGet node k).valid) = presentSymbols ft := by
  refine List.filter_congr fun k hk => ?_
  have hk : k < 256 := List.mem_range.1 hk
  rw [Bool.eq_iff_iff, decide_eq_true_iff, h.valid_iff, mem_seedArena_iff hk]
  exact or_iff_left (by omega)

/-- The synthetic leaf is seeded for a lone symbol (R102). -/
theorem synth_mem_seedArena_iff : 256 ∈ (seedArena ft).2 ↔ (presentSymbols ft).length = 1 := by
  rcases seedArena_cases ft with ⟨s, hs, he⟩ | ⟨hne, he⟩
  · simp [he, hs]
  · rw [he]
    exact iff_of_false (fun hm => absurd (mem_presentSymbols.1 hm).1 (by omega)) hne

/-- The arena meets R32 when `root` is the one node left in `Q`, or absent when no leaf was seeded. -/
theorem BuildReaches.arenaInv (h : BuildReaches ft node q next) {root : BitVec 16}
    (only : ∀ k ∈ q, k = (rootIdx root).toNat)
    (absent : rootPresent root = false → (seedArena ft).2 = [] ∧ next = 257)
    (present : rootPresent root = true →
      2 ≤ (seedArena ft).2.length ∧ (rootIdx root).toNat = 255 + (seedArena ft).2.length ∧
        next = 256 + (seedArena ft).2.length) : ArenaInv node root where
  unused := fun _ => h.nodeGet_of_not_valid
  leaves := fun k hk hv => by
    rw [h.nodeGet_of_valid_of_lt hk hv]
    rfl
  absent := fun hp k => by
    obtain ⟨noLeaf, rfl⟩ := absent hp
    rw [Bool.eq_false_iff, Ne, h.valid_iff, noLeaf]
    simp
  twoLeaves := fun hp => by
    obtain ⟨two, idx, -⟩ := present hp
    exact h.leafTotal_eq ▸ ⟨two, idx⟩
  internals := fun k hk => by
    have hk : 257 ≤ k := hk
    have noLeaf : k ∉ (seedArena ft).2 := fun hm => absurd (lt_of_mem_seedArena hm) (by omega)
    rw [h.valid_iff, h.leafTotal_eq]
    cases hp : rootPresent root with
    | false =>
      obtain ⟨-, rfl⟩ := absent hp
      simp [noLeaf]
    | true =>
      obtain ⟨-, -, rfl⟩ := present hp
      simp only [noLeaf, false_or, and_true]
      omega
  children := fun k hk hv => by
    have hn := h.lt_of_valid hv
    obtain ⟨hr, hl, freq⟩ := h.children hk hn
    obtain ⟨hne, leftValid, rightValid⟩ := h.children_valid hk hn
    exact ⟨h.kind_internal_iff.2 ⟨hk, hn⟩, hl, hr, hne, leftValid, rightValid, freq.trans (Nat.add_comm _ _)⟩
  oneParent := fun k hv hne => by
    have merged : ∃ j, 257 ≤ j ∧ j < next ∧
        ((nodeGet node j).left.toNat = k ∨ (nodeGet node j).right.toNat = k) := by
      by_contra hno
      push Not at hno
      exact hne (only k (h.mem_of_unmerged hv hno))
    obtain ⟨j, hj, hjn, child⟩ := merged
    exact ⟨j, ⟨hj, h.valid_iff.2 (.inr ⟨hj, hjn⟩), child⟩, fun i hi hiv ci =>
      h.parent_unique hi (h.lt_of_valid hiv) hj hjn ci child⟩
  synthetic := by
    rw [h.filter_valid_eq, ← synth_mem_seedArena_iff, h.valid_iff]
    exact or_iff_left fun hk => absurd hk.1 (by decide)
  positive := fun k hk hv => by
    have hk : k < 256 := hk
    have hne := (mem_seedArena_iff hk).1 ((h.valid_iff.1 hv).resolve_right (by omega))
    rw [h.toNat_freq_of_lt hk]
    bv_omega
  synthZero := by
    rw [h.nodeGet_of_lt (by decide), nodeGet_seedArena]
    split <;> rfl

end

/-- The tree of a table meets R32 (R101). -/
theorem arenaInv_buildArena (ft : List (Nat × Count)) :
    ArenaInv (buildArena ft).1 (rootOf (buildArena ft).2) := by
  rcases buildArena_cases ft with ⟨hl, hq, h⟩ | ⟨two, max, hq, h⟩
  · rw [hq]
    exact h.arenaInv (by simp) (fun _ => ⟨List.length_eq_zero_iff.1 hl, rfl⟩) (by simp)
  · have idx := toNat_rootIdx_rootOf_cons (show 255 + (seedArena ft).2.length < 512 by omega) []
    rw [hq]
    exact h.arenaInv (fun k hk => (List.mem_singleton.1 hk).trans idx.symm) (by simp) fun _ => ⟨two, idx, rfl⟩

end Sys2Proof.Machine
end

section
/-! UNPACK (`44_bit_unpacker.md`, rules R145 to R158): the walk along a path of the tree ends at its leaf and emits the
symbol, so the walk along a code string is one `emitAll` of the symbols, and UNPACK inverts PACK. -/

namespace Sys2Proof.Machine

/-! ## The walk -/

section
variable {node : List (Nat × Node)} {root : BitVec 16}

/-- A move to an internal node goes on from there (R146). -/
theorem walkBits_cons_of_internal (cap : Nat) (present : rootPresent root = true) {k : NodeIdx} {b : Bool}
    (h : (nodeGet node (walkMove node k b).toNat).kind = .internal) (rest : List (Option Bool)) (out : List Byte) :
    walkBits cap node root (some b :: rest) k out = walkBits cap node root rest (walkMove node k b) out := by
  rw [walkBits, if_neg (by simp [present]), h]

/-- A move to the leaf of a symbol emits the symbol and goes on from the root (R146). -/
theorem walkBits_cons_of_leaf (cap : Nat) (present : rootPresent root = true) {k : NodeIdx} {b : Bool} {v : Byte}
    (hv : walkMove node k b = v.setWidth 9) (h : (nodeGet node (walkMove node k b).toNat).kind = .leaf)
    (rest : List (Option Bool)) (out : List Byte) :
    walkBits cap node root (some b :: rest) k out =
      (emit cap out v).bind fun o => walkBits cap node root rest (rootIdx root) o := by
  have toNat : (walkMove node k b).toNat = v.toNat := by rw [hv]; bv_omega
  have notSynth : v.toNat ≠ Config.synth := Nat.ne_of_lt v.isLt
  rw [walkBits, if_neg (by simp [present]), h]
  simp only [toNat, if_neg notSynth, BitVec.ofNat_toNat, BitVec.setWidth_eq]

/-- A move to the synthetic leaf fails (R152). -/
theorem walkBits_cons_of_synth (cap : Nat) (present : rootPresent root = true) {k : NodeIdx} {b : Bool}
    (hk : (walkMove node k b).toNat = Config.synth) (h : (nodeGet node (walkMove node k b).toNat).kind = .leaf)
    (rest : List (Option Bool)) (out : List Byte) :
    walkBits cap node root (some b :: rest) k out = .raise .invalidCode := by
  rw [walkBits, if_neg (by simp [present]), h]
  simp only [hk, if_true]

/-- A bit without a tree fails (R152). -/
theorem walkBits_cons_of_absent (cap : Nat) (absent : rootPresent root = false) (b : Bool) (rest : List (Option Bool))
    (k : NodeIdx) (out : List Byte) : walkBits cap node root (some b :: rest) k out = .raise .invalidCode := by
  rw [walkBits, if_pos absent]

/-- The walk along a path to an internal node emits nothing (R150). -/
theorem PathTo.walkBits_of_internal {p : Bits} {k : NodeIdx} (hp : PathTo node (rootIdx root) p k)
    (present : rootPresent root = true) (hk : (nodeGet node k.toNat).kind = .internal) (cap : Nat)
    (rest : List (Option Bool)) (out : List Byte) :
    walkBits cap node root (p.map some ++ rest) (rootIdx root) out = walkBits cap node root rest k out := by
  induction hp generalizing rest with
  | start => rfl
  | move _ hj b ih =>
    rw [List.map_append, List.append_assoc, ih hj]
    exact walkBits_cons_of_internal cap present hk rest out

/-- The walk along the path to a symbol emits the symbol and is at the root again (R150). -/
theorem PathTo.walkBits_of_symbol {p : Bits} {v : Byte} (hp : PathTo node (rootIdx root) p (v.setWidth 9))
    (h : ArenaInv node root) (present : rootPresent root = true) (cap : Nat) (rest : List (Option Bool))
    (out : List Byte) :
    walkBits cap node root (p.map some ++ rest) (rootIdx root) out =
      (emit cap out v).bind fun o => walkBits cap node root rest (rootIdx root) o := by
  have leaf : (nodeGet node (v.setWidth 9).toNat).kind = .leaf := h.kind_leaf_of_lt (by bv_omega)
  generalize hk : v.setWidth 9 = k at hp leaf
  cases hp with
  | start => simp [h.kind_root present] at leaf
  | @move p j hp hj b =>
    rw [List.map_append, List.append_assoc, hp.walkBits_of_internal present hj]
    exact walkBits_cons_of_leaf cap present hk.symm leaf rest out

/-- A symbol with an entry in CT has the code that the entry holds (R21). -/
theorem codeOf_of_len_ne {ct : List (Nat × CodeEntry)} {sym : Nat} (h : (ctGet ct sym).len ≠ 0#8) :
    codeOf ct sym = some (codeBits (ctGet ct sym)) := if_neg h

/-- The walk along the code string of a sequence emits the sequence, byte by byte, and is at the root again (R149,
R150). -/
theorem ArenaInv.walkBits_codeString (h : ArenaInv node root) (cap : Nat) {x : List Byte}
    (hx : AllCoded (codesOf node root) x) (rest : List (Option Bool)) (out : List Byte) :
    walkBits cap node root ((codeString (codesOf node root) x).map some ++ rest) (rootIdx root) out =
      (emitAll cap out x).bind fun o => walkBits cap node root rest (rootIdx root) o := by
  induction x generalizing out with
  | nil => rfl
  | cons v x ih =>
    obtain ⟨hv, hx⟩ := List.forall_mem_cons.1 hx
    obtain ⟨present, path⟩ := (codeOf_codesOf_iff_pathTo h v _).1 (codeOf_of_len_ne hv)
    rw [codeString_cons, List.map_append, List.append_assoc, path.walkBits_of_symbol h present, emitAll_cons,
      Res.bind_assoc]
    simp only [ih hx]

end

/-- The symbols present in a table have a code under its tree (R123). -/
theorem allCoded_tableCodes {ft : List (Nat × Count)} {x : List Byte} (hx : AllPresent ft x) :
    AllCoded (tableCodes ft) x := by
  intro v hv hlen
  have h := arenaInv_buildArena ft
  obtain ⟨q, next, reaches⟩ := buildReaches_buildArena ft
  have seeded : v.toNat ∈ (seedArena ft).2 := (mem_seedArena_iff v.isLt).2 (hx v hv)
  have valid : (nodeGet (buildArena ft).1 (v.setWidth 9).toNat).valid = true := by
    rw [show (v.setWidth 9).toNat = v.toNat by bv_omega]
    exact reaches.valid_iff.2 (.inl seeded)
  obtain ⟨p, path⟩ := h.exists_pathTo valid
  have code := (codeOf_codesOf_iff_pathTo h v p).2 ⟨(h.le_root valid).1, path⟩
  rw [tableCodes] at hlen
  simp [codeOf, hlen] at code

/-! ## The procedure -/

/-- `unpack_bits` on a payload and a written trailer (R146). -/
theorem unpackBits_append (cap : Nat) (node : List (Nat × Node)) (root : BitVec 16) (pl : List (Option Byte))
    (p : Byte) :
    unpackBits cap node root (pl ++ [some p]) =
      if 7 < p.toNat ∨ 8 * pl.length < p.toNat then .raise .invalidPadding
      else (walkBits cap node root ((expandBytes pl).take (8 * pl.length - p.toNat)) (rootIdx root) []).bind fun r =>
        if r.1 = rootIdx root then .ok (p, r.2) else .raise .truncatedStream := by
  simp [unpackBits]

/-- `unpack_bits` on a written operand with a legal trailer walks the bits the trailer leaves (R149). -/
theorem unpackBits_of_legal_trailer (cap : Nat) (node : List (Nat × Node)) (root : BitVec 16) {pl : List Byte}
    {p : Byte} (h7 : p.toNat ≤ 7) (hp : p.toNat ≤ 8 * pl.length) :
    unpackBits cap node root ((pl ++ [p]).map some) =
      (walkBits cap node root (((pl.flatMap bits8).take (8 * pl.length - p.toNat)).map some) (rootIdx root) []).bind
        fun r => if r.1 = rootIdx root then .ok (p, r.2) else .raise .truncatedStream := by
  rw [List.map_append, List.map_singleton, unpackBits_append, List.length_map, if_neg (by omega), expandBytes_some,
    List.map_take]

/-- `unpack_bits` gives the trailer and the bytes decoded (R148). -/
theorem trailer_of_unpackBits_eq_ok {cap : Nat} {node : List (Nat × Node)} {root : BitVec 16} {pl : List (Option Byte)}
    {p : Byte} {r : Byte × List Byte} (h : unpackBits cap node root (pl ++ [some p]) = .ok r) : r.1 = p := by
  rw [unpackBits_append] at h
  split at h
  · cases h
  · obtain ⟨a, -, h⟩ := Res.bind_eq_ok_iff.1 h
    split at h
    · cases h
      rfl
    · cases h

/-! ## The command -/

/-- The decoder as UNPACK runs it: on the operand in IN, with the tree of the table in FT (R145). -/
def unpackRes (s : State) : Res (Byte × List Byte) :=
  unpackBits s.params.outCap.toNat (buildArena s.ft).1 (rootOf (buildArena s.ft).2) s.input

/-- UNPACK when the decoder gives a value, whole (R145). -/
theorem exec_unpack_of_ok {s : State} {p : Byte} {out : List Byte} (h : unpackRes s = .ok (p, out)) :
    exec .unpack s = .next ((buildTree s).succeeded out p) := by
  rw [unpackRes] at h
  rw [exec_unpack, runFrame_of_done (t := setResult out p (buildTree (beginCommand s))) (by simp [h]),
    endCommand_setResult rfl rfl]
  rfl

/-- UNPACK when the decoder raises, whole (R200, R201). -/
theorem exec_unpack_of_raise {s : State} {k : FailKind} (hk : k ≠ .illegalCommand) (h : unpackRes s = .raise k) :
    exec .unpack s = .next ((buildTree s).failed k) := by
  rw [unpackRes] at h
  rw [exec_unpack, runFrame_of_raise (k := k) (t := buildTree (beginCommand s)) (by simp [h]),
    endCommand_takeFailure hk rfl]
  rfl

/-- The decoder on a written operand with a legal trailer when the bits it leaves are the codes of `x` and then `rest`:
it emits `x` and goes on at the root (R149). -/
theorem unpackRes_of_codeString {s : State} {x pl : List Byte} {p : Byte} {rest : Bits}
    (h : s.input = (pl ++ [p]).map some) (h7 : p.toNat ≤ 7) (hp : p.toNat ≤ 8 * pl.length)
    (hx : AllCoded (tableCodes s.ft) x)
    (hbits : (pl.flatMap bits8).take (8 * pl.length - p.toNat) = codeString (tableCodes s.ft) x ++ rest)
    (hfit : x.length ≤ s.params.outCap.toNat) :
    unpackRes s = (walkBits s.params.outCap.toNat (buildArena s.ft).1 (rootOf (buildArena s.ft).2) (rest.map some)
      (rootIdx (rootOf (buildArena s.ft).2)) x).bind fun r =>
        if r.1 = rootIdx (rootOf (buildArena s.ft).2) then .ok (p, r.2) else .raise .truncatedStream := by
  rw [unpackRes, h, unpackBits_of_legal_trailer _ _ _ h7 hp, hbits, List.map_append, tableCodes,
    (arenaInv_buildArena s.ft).walkBits_codeString _ hx, emitAll_of_le _ (by simpa using hfit), Res.bind_ok,
    List.nil_append]

/-- Settles O34: the walk along the codes of `x` emits `x` and ends at the root. -/
theorem unpackDecodesTheCodes : Obligations.UnpackDecodesTheCodes := by
  intro s x pl p h h7 hp hx hbits hfit
  rw [← List.append_nil (codeString _ _)] at hbits
  refine exec_unpack_of_ok ?_
  rw [unpackRes_of_codeString h h7 hp (allCoded_tableCodes hx) hbits hfit]
  simp [walkBits]

/-! ## The inverse of PACK -/

/-- The bytes of a bit string of whole bytes expand to the bit string (R71, R149). -/
theorem flatMap_bits8_bytesOf {b : Bits} (h : 8 ∣ b.length) : (bytesOf b).flatMap bits8 = b := by
  by_cases h8 : 8 ≤ b.length
  · have first : (b.take 8).length = 8 := by simp [h8]
    have rest : 8 ∣ (b.drop 8).length := by simp; omega
    rw [bytesOf_of_le h8, List.flatMap_cons, bits8_byteOf first, flatMap_bits8_bytesOf rest, List.take_append_drop]
  · obtain rfl : b = [] := List.length_eq_zero_iff.1 (by omega)
    rfl
termination_by b.length

theorem toNat_trailer (b : Bits) : (trailer b).toNat = padOf b.length := by
  have := padOf_le b.length
  simp [trailer]
  omega

/-- The bits of the payload are the code bits and the padding (R71). -/
theorem eight_mul_payload_length (b : Bits) : 8 * (payload b).length = b.length + padOf b.length := by
  have := padOf_dvd b.length
  rw [payload, bytesOf_length, List.length_append, zeros_length]
  omega

/-- The bits of the payload that the trailer leaves are the code bits (R71, R149). -/
theorem take_flatMap_bits8_payload (b : Bits) :
    ((payload b).flatMap bits8).take (8 * (payload b).length - (trailer b).toNat) = b := by
  have whole : 8 ∣ (b ++ zeros (padOf b.length)).length := by simpa using padOf_dvd b.length
  rw [eight_mul_payload_length, toNat_trailer, Nat.add_sub_cancel, payload, flatMap_bits8_bytesOf whole,
    List.take_left]

/-- A memory that holds a byte sequence holds no other one. -/
theorem Memory.ofBytes_injective : Function.Injective Memory.ofBytes := fun v w h =>
  List.ext_getElem? fun i => by rw [← Memory.lookup_ofBytes, h, Memory.lookup_ofBytes]

/-- A PACK that ends well has made `payload ++ [trailer]` of its operand, whose bytes all have codes (R132, R133). -/
theorem exec_pack_of_success {s t : State} {x : List Byte} (h : s.input = x.map some) (ht : exec .pack s = .next t)
    (hok : errBit t.status = false) : t = s.succeeded (packed s.ct x) (trailer (codeString s.ct x)) := by
  by_cases hs : AllCoded s.ct x ∧ ((codeString s.ct x).length + 7) / 8 + 1 ≤ s.params.outCap.toNat
  · cases (exec_pack_of_fits h hs.1 hs.2).symm.trans ht
    rfl
  · obtain ⟨k, hk⟩ := exec_pack_of_not h hs
    cases hk.symm.trans ht
    rw [failed_status] at hok
    exact absurd hok (by decide)

/-- Settles O41: what the trailer leaves of the packed bytes is the code string of `x`, which UNPACK decodes. -/
theorem unpackInvertsPack : Obligations.UnpackInvertsPack := by
  intro s t u x y hct hx h ht hok hout hft hu hfit
  cases exec_pack_of_success h ht hok
  obtain rfl : packed s.ct x = y := Memory.ofBytes_injective hout
  have bound := eight_mul_payload_length (codeString s.ct x)
  refine unpackDecodesTheCodes u x _ (trailer (codeString s.ct x)) hu ?_ ?_ (hft ▸ hx) ?_ hfit
  · rw [toNat_trailer]
    exact padOf_le _
  · rw [toNat_trailer]
    omega
  · rw [take_flatMap_bits8_payload, hct, hft]

/-! ## The failures -/

/-- Without a byte for the trailer the decoder fails (R147). -/
theorem unpackBits_nil (cap : Nat) (node : List (Nat × Node)) (root : BitVec 16) :
    unpackBits cap node root [] = .raise .truncatedStream := rfl

/-- DECOMPRESS is the header and then the decoder inside the command frame (R171, R172). -/
theorem exec_decompress (s : State) : exec .decompress s = runFrame decompressBody s := rfl

/-- DECOMPRESS of a header and nothing else (R147, R201). -/
theorem exec_decompress_of_header {s : State} {ft : List (Nat × Count)} (hft : Table.wf 256 0#32 ft)
    (h : s.input = (header ft).map some) :
    exec .decompress s = .next ((buildTree { s with ft := ft }).failed .truncatedStream) := by
  have parsed := parseHeader_header_append hft []
  rw [List.append_nil, ← header_length, ← h] at parsed
  have noRest : s.input.drop (header ft).length = [] := by simp [h]
  have body : decompressBody (beginCommand s) =
      .raise .truncatedStream (buildTree { beginCommand s with ft := ft }) := by
    simp [decompressBody, decodeStream, parsed, noRest, unpackBits_nil]
  rw [exec_decompress, runFrame_of_raise body, endCommand_takeFailure (by decide) rfl]
  rfl

/-- Settles O35: the decoder meets the empty operand, in UNPACK as in DECOMPRESS. -/
theorem missingTrailerIsTruncatedStream : Obligations.MissingTrailerIsTruncatedStream := by
  refine ⟨fun s h => exec_unpack_of_raise (by decide) ?_, fun s ft => exec_decompress_of_header⟩
  have noInput : s.input = [] := List.length_eq_zero_iff.1 (by simp [h])
  rw [unpackRes, noInput, unpackBits_nil]

/-- UNPACK with a trailer out of range (R148). -/
theorem exec_unpack_of_bad_trailer {s : State} {pl : List (Option Byte)} {p : Byte} (h : s.input = pl ++ [some p])
    (hp : 7 < p.toNat ∨ 8 * pl.length < p.toNat) : exec .unpack s = .next ((buildTree s).failed .invalidPadding) := by
  refine exec_unpack_of_raise (by decide) ?_
  rw [unpackRes, h, unpackBits_append, if_pos hp]

/-- A body that ends in a procedure and ends normally has written what the procedure gave (R177). -/
theorem Body.exists_ok_of_ofRes_done {α : Type} {s u : State} {x : Res α} {w : α → State}
    (h : Body.ofRes s x w = .done u) : ∃ a, x = .ok a ∧ w a = u := by
  cases x with
  | ok a => exact ⟨a, rfl, Body.done.inj h⟩
  | raise k => cases h
  | refuse r => cases h

/-- A failure taken inside the frame sets ERR (R200). -/
theorem errBit_endCommand_takeFailure (k : FailKind) (s : State) :
    errBit (endCommand (takeFailure k s)).status = true := by
  simp [setBusy, setErr]

/-- PAD after an UNPACK that ends well is the trailer (R148). -/
theorem pad_of_exec_unpack {s t : State} {pl : List (Option Byte)} {p : Byte} (h : s.input = pl ++ [some p])
    (ht : exec .unpack s = .next t) (hok : errBit t.status = false) : t.pad = p := by
  rcases runFrame_next_cases ((exec_unpack s).symm.trans ht) with ⟨u, hu, rfl⟩ | ⟨k, u, -, rfl⟩
  · obtain ⟨r, hr, rfl⟩ := Body.exists_ok_of_ofRes_done hu
    rw [beginCommand_input, h] at hr
    exact trailer_of_unpackBits_eq_ok hr
  · rw [errBit_endCommand_takeFailure] at hok
    cases hok

/-- Settles O36: the trailer is tested before the walk, and is what a success puts in PAD. -/
theorem trailerOutOfRangeIsInvalidPadding : Obligations.TrailerOutOfRangeIsInvalidPadding := by
  intro s pl p h
  refine ⟨exec_unpack_of_bad_trailer h, ?_, ?_, fun t => pad_of_exec_unpack h⟩
  · rintro rfl hp
    exact exec_unpack_of_bad_trailer h (.inr hp)
  · rintro rfl rfl
    exact unpackDecodesTheCodes s [] [] 0#8 h (by decide) (by decide) (List.forall_mem_nil _) rfl (Nat.zero_le _)

/-- UNPACK when the bits left are the codes of `x`, which fits OUT, and the walk over the bits after them raises
(R154). -/
theorem exec_unpack_of_walk_raise {s : State} {x pl : List Byte} {p : Byte} {rest : Bits} {k : FailKind}
    (h : s.input = (pl ++ [p]).map some) (h7 : p.toNat ≤ 7) (hp : p.toNat ≤ 8 * pl.length) (hx : AllPresent s.ft x)
    (hbits : (pl.flatMap bits8).take (8 * pl.length - p.toNat) = codeString (tableCodes s.ft) x ++ rest)
    (hfit : x.length ≤ s.params.outCap.toNat) (hk : k ≠ .illegalCommand)
    (hw : walkBits s.params.outCap.toNat (buildArena s.ft).1 (rootOf (buildArena s.ft).2) (rest.map some)
      (rootIdx (rootOf (buildArena s.ft).2)) x = .raise k) :
    exec .unpack s = .next ((buildTree s).failed k) :=
  exec_unpack_of_raise hk <| by
    rw [unpackRes_of_codeString h h7 hp (allCoded_tableCodes hx) hbits hfit, hw, Res.bind_raise]

theorem length_flatMap_bits8 (pl : List Byte) : (pl.flatMap bits8).length = 8 * pl.length := by
  simp [List.length_flatMap, Nat.mul_comm]

/-- UNPACK of one bit or more with the empty table (R152). -/
theorem exec_unpack_of_empty_table {s : State} {pl : List Byte} {p : Byte} (h : s.input = (pl ++ [p]).map some)
    (h7 : p.toNat ≤ 7) (hp : p.toNat < 8 * pl.length) (empty : ∀ sym, sym < 256 → s.ftAt sym = 0#32) :
    exec .unpack s = .next ((buildTree s).failed .invalidCode) := by
  obtain ⟨b, bits, hbits⟩ : ∃ b bits, (pl.flatMap bits8).take (8 * pl.length - p.toNat) = b :: bits := by
    refine List.exists_cons_of_length_pos ?_
    rw [List.length_take, length_flatMap_bits8]
    omega
  refine exec_unpack_of_walk_raise (x := []) h h7 hp.le (List.forall_mem_nil _) hbits (Nat.zero_le _) (by decide) ?_
  rw [buildArena_of_empty (presentSymbols_eq_nil empty)]
  exact walkBits_cons_of_absent _ rootPresent_rootOf_nil _ _ _ _

/-- The codes of a one-entry table: `n` times the lone symbol is `n` bits 0 (R102). -/
theorem codeString_replicate_of_singleton {ft : List (Nat × Count)} {v : Byte} (h : presentSymbols ft = [v.toNat])
    (n : Nat) : codeString (tableCodes ft) (List.replicate n v) = zeros n := by
  have code : codeBits (ctGet (tableCodes ft) v.toNat) = [false] := by
    rw [tableCodes, buildArena_of_singleton h, codesOf_loneArena v.isLt]
    simp [ctGet, Sparse.get, Sparse.lookup_cons, codeBits]
  simp [codeString, code, zeros, List.flatMap_replicate]

/-- The bit 1 at the root of a one-entry table leads to the synthetic leaf (R102, R152). -/
theorem walkBits_true_of_singleton {ft : List (Nat × Count)} {sym : Nat} (h : presentSymbols ft = [sym]) (cap : Nat)
    (rest : List (Option Bool)) (out : List Byte) :
    walkBits cap (buildArena ft).1 (rootOf (buildArena ft).2) (some true :: rest) (rootIdx (rootOf (buildArena ft).2))
      out = .raise .invalidCode := by
  obtain ⟨hs, -⟩ := mem_presentSymbols.1 (h ▸ List.mem_singleton_self sym)
  have build := buildArena_of_singleton h
  have move : (walkMove (buildArena ft).1 (rootIdx (rootOf (buildArena ft).2)) true).toNat = 256 := by
    simp [build, walkMove, toNat_rootIdx_rootOf_cons, loneArena, nodeGet, Sparse.get, Sparse.lookup_cons,
      (show 257 ≠ sym by omega), internalNode]
  refine walkBits_cons_of_synth cap (by simp [build]) move ?_ rest out
  rw [move]
  exact (arenaInv_buildArena ft).kind_leaf_of_lt (by decide)

/-- UNPACK with a one-entry table of the bit 1 after `n` bits 0 whose symbols fit OUT (R152, R154). -/
theorem exec_unpack_of_synth {s : State} {pl : List Byte} {p v : Byte} {n : Nat} {rest : Bits}
    (h : s.input = (pl ++ [p]).map some) (h7 : p.toNat ≤ 7) (hp : p.toNat ≤ 8 * pl.length)
    (lone : presentSymbols s.ft = [v.toNat])
    (hbits : (pl.flatMap bits8).take (8 * pl.length - p.toNat) = zeros n ++ true :: rest)
    (hfit : n ≤ s.params.outCap.toNat) : exec .unpack s = .next ((buildTree s).failed .invalidCode) := by
  have present : AllPresent s.ft (List.replicate n v) := fun w hw =>
    List.eq_of_mem_replicate hw ▸ (mem_presentSymbols.1 (lone ▸ List.mem_singleton_self v.toNat)).2
  rw [← codeString_replicate_of_singleton lone n] at hbits
  exact exec_unpack_of_walk_raise h h7 hp present hbits (by simpa using hfit) (by decide)
    (walkBits_true_of_singleton lone _ _ _)

/-- Settles O37: the first bit meets the absent tree, or the bit 1 the synthetic leaf. -/
theorem undecodableBitIsInvalidCode : Obligations.UndecodableBitIsInvalidCode := by
  refine fun s pl p h h7 hp => ⟨exec_unpack_of_empty_table h h7 hp, fun sym n rest hs hne alone hbits hfit => ?_⟩
  have lone : presentSymbols s.ft = [(BitVec.ofNat 8 sym).toNat] := by
    rw [presentSymbols_eq_singleton hs hne alone, BitVec.toNat_ofNat, Nat.mod_eq_of_lt hs]
  exact exec_unpack_of_synth h h7 hp.le lone hbits hfit

end Sys2Proof.Machine
end

section
/-! The busy block and CLEAR (`45_composite_and_system.md`, rules R180 and R182). -/

namespace Sys2Proof.Machine

/-- A write to a location of the busy block is ignored (R52, R182). -/
theorem hostWrite_of_busy {l : Loc} {s : State} (hl : l.inRange s.params = true) (hb : s.busy = true)
    (w : State → Host.Outcome State Fault Refusal) : hostWrite l w s = .next s := by
  simp [hostWrite, hl, hb]

/-- Settles O5: CMD is a location, and the block is busy. -/
theorem commandWriteWhileBusyIsIgnored : Obligations.CommandWriteWhileBusyIsIgnored := by
  intro s v ms hs hb
  rw [step_of_script_cons hs]
  exact hostWrite_of_busy (l := .cmd) (s := { s with script := ms }) rfl hb _

/-- Settles O14: the frame ends with STATUS 0x00 and ERRCODE 0, and the body writes the rest. -/
theorem clearReturnsToReset : Obligations.ClearReturnsToReset := by
  intro s
  have frame : exec .clear s = .next (endCommand (clearBody (beginCommand s))) :=
    runFrame_of_done (body := fun s1 => .done (clearBody s1)) rfl
  rw [frame]
  simp [endCommand, clearBody, beginCommand, statusWord_success]

end Sys2Proof.Machine
end

section
/-! COMPRESS (`45_composite_and_system.md`, rules R165 to R169): every byte of the operand has a code under the table
that counts the operand, so the emitting phases are one `emitAll` of the stream, and the length of the stream alone tells the
two ends of the command apart. -/

namespace Sys2Proof.Machine

/-! ## The length of the stream -/

/-- Counting bytes is counting their values. -/
theorem count_map_toNat (x : List Byte) {sym : Nat} (hs : sym < 256) :
    (x.map BitVec.toNat).count sym = x.count (BitVec.ofNat 8 sym) := by
  have key := List.count_map_of_injective x BitVec.toNat (fun _ _ h => BitVec.eq_of_toNat_eq h) (BitVec.ofNat 8 sym)
  rwa [BitVec.toNat_ofNat, Nat.mod_eq_of_lt hs] at key

/-- The code string has `T` bits: each symbol's occurrences times the length of its code (R133, R165). -/
theorem codeString_length (ct : List (Nat × CodeEntry)) (x : List Byte) :
    (codeString ct x).length =
      ((List.range 256).map fun sym => x.count (BitVec.ofNat 8 sym) * (ctGet ct sym).len.toNat).sum := by
  have below : (x.map BitVec.toNat).toFinset ⊆ Finset.range 256 := by
    intro sym h
    obtain ⟨v, -, rfl⟩ := List.mem_map.1 (List.mem_toFinset.1 h)
    exact Finset.mem_range.2 v.isLt
  calc (codeString ct x).length
    _ = ((x.map BitVec.toNat).map fun sym => (ctGet ct sym).len.toNat).sum := by
      simp [codeString, List.length_flatMap, Function.comp_def]
    _ = ∑ sym ∈ (x.map BitVec.toNat).toFinset, (x.map BitVec.toNat).count sym • (ctGet ct sym).len.toNat :=
      Finset.sum_list_map_count _ _
    _ = ∑ sym ∈ Finset.range 256, (x.map BitVec.toNat).count sym • (ctGet ct sym).len.toNat :=
      Finset.sum_subset below fun sym _ h => by
        rw [List.count_eq_zero.2 (fun hm => h (List.mem_toFinset.2 hm)), zero_smul]
    _ = ∑ sym ∈ Finset.range 256, x.count (BitVec.ofNat 8 sym) * (ctGet ct sym).len.toNat :=
      Finset.sum_congr rfl fun sym h => by rw [count_map_toNat x (Finset.mem_range.1 h), smul_eq_mul]

/-- The stream has `3 + 5*N + ceil(T / 8) + 1` bytes (R165). -/
theorem stream_length (ft : List (Nat × Count)) (x : List Byte) :
    (stream ft x).length =
      3 + 5 * (presentSymbols ft).length + ((codeString (tableCodes ft) x).length + 7) / 8 + 1 := by
  rw [stream, List.length_append, header_length, packed_length, ← Nat.add_assoc]

/-! ## COMPRESS -/

/-- The bytes of an operand are present in the table that counts them (R93 item 2). -/
theorem allPresent_countBytes {x : List Byte} (hx : x.length < 2 ^ 32) : AllPresent (countBytes x) x := by
  intro v hv hzero
  have pos : 0 < (ftGet (countBytes x) v.toNat).toNat := (ftGet_countBytes_pos_iff hx v.isLt).2 (by simpa using hv)
  rw [hzero] at pos
  exact absurd pos (by decide)

/-- The bytes of an operand have codes under the tree of the table that counts them (R167). -/
theorem allCoded_countBytes {s : State} {x : List Byte} (h : s.input = x.map some) :
    AllCoded (tableCodes (countBytes x)) x :=
  allCoded_tableCodes (allPresent_countBytes (length_lt_of_input h))

/-- The emitting phases of COMPRESS on bytes that all have codes: the header and the packed bytes, in one (R166). -/
theorem emitStream_of_coded {s : State} {x : List Byte} (h : s.input = x.map some) (hx : AllCoded s.ct x) :
    emitStream s = (emitAll s.params.outCap.toNat [] (header s.ft ++ packed s.ct x)).bind fun o =>
      .ok (trailer (codeString s.ct x), o) := by
  rw [emitStream, emitAll_append, Res.bind_assoc, h]
  simp only [packBits_of_coded _ hx]

/-- The emitting phases of COMPRESS with the tables of the operand: one `emitAll` of its stream (R165). -/
theorem emitStream_buildTables {s : State} {x : List Byte} (h : s.input = x.map some) :
    emitStream (buildTables { s with ft := countBytes x }) =
      (emitAll s.params.outCap.toNat [] (stream (countBytes x) x)).bind fun o =>
        .ok (trailer (codeString (tableCodes (countBytes x)) x), o) :=
  emitStream_of_coded (s := buildTables { s with ft := countBytes x }) h (allCoded_countBytes h)

/-- COMPRESS is its body inside the command frame (R165). -/
theorem exec_compress (s : State) : exec .compress s = runFrame compressBody s := rfl

/-- The body of COMPRESS on a written operand: the count, then the emitting phases with the tables of it (R166). -/
theorem compressBody_of_written {s : State} {x : List Byte} (h : s.input = x.map some) :
    compressBody s =
      Body.ofRes (buildTables { s with ft := countBytes x }) (emitStream (buildTables { s with ft := countBytes x }))
        fun r => noticeEmpty (setResult r.2 r.1 (buildTables { s with ft := countBytes x })) := by
  rw [compressBody, fcountBody_of_written h]

/-- The state in which COMPRESS of `x` ends when its stream fits OUT (R165, R168). -/
def compressed (s : State) (x : List Byte) : State :=
  { (buildTree { s with ft := countBytes x }).succeeded (stream (countBytes x) x)
      (trailer (codeString (tableCodes (countBytes x)) x)) with
    ct := tableCodes (countBytes x), status := if s.inLen = 0#32 then 0x04#8 else 0x00#8 }

/-- The state in which COMPRESS of `x` ends when its stream does not fit OUT (R165, R201). -/
def compressOverflowed (s : State) (x : List Byte) : State :=
  { (buildTree { s with ft := countBytes x }).failed .ioFailure with ct := tableCodes (countBytes x) }

/-- COMPRESS of an operand whose stream fits OUT (R165, R168). -/
theorem exec_compress_of_fits {s : State} {x : List Byte} (h : s.input = x.map some)
    (hfit : (stream (countBytes x) x).length ≤ s.params.outCap.toNat) :
    exec .compress s = .next (compressed s x) := by
  have emitted := emitStream_buildTables (s := beginCommand s) h
  rw [emitAll_of_le _ (by simpa using hfit), Res.bind_ok, List.nil_append] at emitted
  have body := compressBody_of_written (s := beginCommand s) h
  rw [emitted, Body.ofRes_ok] at body
  rw [exec_compress, runFrame_of_done body, endCommand_noticeEmpty rfl]
  rfl

/-- COMPRESS of an operand whose stream does not fit OUT (R165, R201). -/
theorem exec_compress_of_overflow {s : State} {x : List Byte} (h : s.input = x.map some)
    (hfull : s.params.outCap.toNat < (stream (countBytes x) x).length) :
    exec .compress s = .next (compressOverflowed s x) := by
  have emitted := emitStream_buildTables (s := beginCommand s) h
  rw [emitAll_of_lt _ (Nat.zero_le _) (by simpa using hfull), Res.bind_raise] at emitted
  have body := compressBody_of_written (s := beginCommand s) h
  rw [emitted, Body.ofRes_raise] at body
  rw [exec_compress, runFrame_of_raise body, endCommand_takeFailure (by decide) rfl]
  rfl

/-- A COMPRESS that ends has either made the stream or failed for want of room (R165, R167). -/
theorem exec_compress_cases {s t : State} {x : List Byte} (h : s.input = x.map some) (ht : exec .compress s = .next t) :
    ((stream (countBytes x) x).length ≤ s.params.outCap.toNat ∧ t = compressed s x) ∨ t = compressOverflowed s x := by
  rcases le_or_gt (stream (countBytes x) x).length s.params.outCap.toNat with hfit | hfull
  · exact .inl ⟨hfit, Host.Outcome.next.inj (ht.symm.trans (exec_compress_of_fits h hfit))⟩
  · exact .inr (Host.Outcome.next.inj (ht.symm.trans (exec_compress_of_overflow h hfull)))

/-- The successful end of COMPRESS, with or without the EmptyInput notice, has ERR = 0 (R12). -/
theorem errBit_compressed (s : State) (x : List Byte) : errBit (compressed s x).status = false := by
  change errBit (if s.inLen = 0#32 then 0x04#8 else 0x00#8) = false
  split <;> rfl

theorem errBit_compressOverflowed (s : State) (x : List Byte) : errBit (compressOverflowed s x).status = true := by
  change errBit 0x02#8 = true
  rfl

/-! ## The obligations on a written operand -/

/-- Settles O42: the table is the count of the operand. -/
theorem compressMakesTheStream : Obligations.CompressMakesTheStream := by
  intro s x h
  have counts : ∀ sym, sym < 256 → (ftGet (countBytes x) sym).toNat = x.count (BitVec.ofNat 8 sym) :=
    fun _ => toNat_ftGet_countBytes_of_lt (length_lt_of_input h)
  refine ⟨countBytes x, counts, ?_, exec_compress_of_fits h, exec_compress_of_overflow h⟩
  have bits : ((List.range 256).map fun sym =>
      (ftGet (countBytes x) sym).toNat * (ctGet (tableCodes (countBytes x)) sym).len.toNat).sum =
        (codeString (tableCodes (countBytes x)) x).length := by
    rw [codeString_length]
    exact congrArg List.sum (List.map_congr_left fun sym hs => by rw [counts sym (List.mem_range.1 hs)])
  simp only [bits]
  exact stream_length _ _

/-- Settles O43: the tables are those of the count of the operand, and the one failure is IOFailure. -/
theorem compressFailsOnlyOnAFullOutput : Obligations.CompressFailsOnlyOnAFullOutput := by
  intro s t x h ht
  have present := allPresent_countBytes (length_lt_of_input h)
  have coded := allCoded_countBytes h
  rcases exec_compress_cases h ht with ⟨-, rfl⟩ | rfl
  · exact ⟨present, coded, fun herr => absurd herr (by rw [errBit_compressed]; decide)⟩
  · exact ⟨present, coded, fun _ => rfl⟩

/-! ## The sequence of primitives -/

/-- An FCOUNT that ends has read its whole operand (U1). -/
theorem exists_input_of_exec_fcount {s t : State} (h : exec .fcount s = .next t) :
    ∃ x : List Byte, s.input = x.map some := by
  rcases fcountBody_eq (beginCommand s) with ⟨x, hx, -⟩ | ⟨-, hr⟩
  · exact ⟨x, hx⟩
  · rw [exec_fcount, runFrame_of_refuse (by rw [hr, Body.ofRes_refuse])] at h
    cases h

/-- PACK leaves the tables as they are (R130). -/
theorem exec_pack_tables {s t : State} (h : exec .pack s = .next t) :
    t.ft = s.ft ∧ t.node = s.node ∧ t.root = s.root ∧ t.ct = s.ct := by
  rcases runFrame_next_cases ((exec_pack s).symm.trans h) with ⟨u, hu, rfl⟩ | ⟨k, u, hu, rfl⟩
  · obtain ⟨r, rfl⟩ := Body.exists_write_of_ofRes_done hu
    exact ⟨rfl, rfl, rfl, rfl⟩
  · obtain rfl := Body.eq_of_ofRes_raise hu
    simp

/-- FCOUNT, BUILD and DERIVE make the tables of the operand and keep the operand (R166). -/
theorem tables_of_fcount_build_derive {s a b c : State} {x : List Byte} (h : s.input = x.map some)
    (ha : exec .fcount s = .next a) (hb : exec .build a = .next b) (hc : exec .derive b = .next c) :
    c.input = x.map some ∧ c.params = s.params ∧ c.ft = countBytes x ∧ c.node = (buildArena (countBytes x)).1 ∧
      c.root = rootOf (buildArena (countBytes x)).2 ∧ c.ct = tableCodes (countBytes x) := by
  cases (exec_fcount_of_written h).symm.trans ha
  cases exec_build_eq_next hb
  cases (exec_derive _).symm.trans hc
  exact ⟨h, rfl, rfl, rfl, rfl, rfl⟩

/-- Settles O45: after FCOUNT, BUILD and DERIVE the tables are those COMPRESS makes, and the packed bytes fit where the
stream does. -/
theorem compressIsTheSequenceOfPrimitives : Obligations.CompressIsTheSequenceOfPrimitives := by
  intro s a b c d t ha hb hc hd ht
  obtain ⟨x, h⟩ := exists_input_of_exec_fcount ha
  obtain ⟨input, params, ft, node, root, ct⟩ := tables_of_fcount_build_derive h ha hb hc
  obtain ⟨ft', node', root', ct'⟩ := exec_pack_tables hd
  rw [ft', node', root', ct', ft, node, root, ct]
  rcases exec_compress_cases h ht with ⟨hfit, rfl⟩ | rfl
  · refine ⟨rfl, rfl, rfl, rfl, fun _ => ?_⟩
    have coded : AllCoded c.ct x := ct ▸ allCoded_countBytes h
    have room : ((codeString c.ct x).length + 7) / 8 + 1 ≤ c.params.outCap.toNat := by
      rw [stream_length] at hfit
      rw [ct, params]
      omega
    cases (exec_pack_of_fits input coded room).symm.trans hd
    rw [ct]
    exact ⟨by rw [succeeded_status]; decide, rfl, _, rfl, rfl⟩
  · exact ⟨rfl, rfl, rfl, rfl, fun hok => absurd hok (by rw [errBit_compressOverflowed]; decide)⟩

/-! ## The empty input -/

/-- The stream of the empty input under the empty table (R168). -/
theorem stream_nil : stream [] [] = [0x01#8, 0x00#8, 0x00#8, 0x00#8] := by
  rw [stream, header, presentSymbols_nil]
  rfl

/-- The tree of the empty table (R102). -/
theorem buildTree_empty (s : State) :
    buildTree { s with ft := [] } = { s with ft := [], node := [], root := 0#16 } := by
  rw [buildTree, buildArena_of_empty presentSymbols_nil]
  rfl

theorem tableCodes_nil : tableCodes [] = [] := by
  rw [tableCodes, buildArena_of_empty presentSymbols_nil]
  exact codesOf_rootOf_nil _

/-- Settles O44: the stream of the empty input has four bytes. -/
theorem compressOfEmptyInput : Obligations.CompressOfEmptyInput := by
  intro s hs
  have h : s.input = ([] : List Byte).map some := List.length_eq_zero_iff.1 (by simp [hs])
  have fits := exec_compress_of_fits h
  have overflow := exec_compress_of_overflow h
  rw [compressed, countBytes_nil, stream_nil, buildTree_empty, tableCodes_nil, if_pos hs] at fits
  rw [compressOverflowed, countBytes_nil, stream_nil, buildTree_empty, tableCodes_nil] at overflow
  exact ⟨fits, overflow⟩

end Sys2Proof.Machine
end

section
/-! DECOMPRESS (`45_composite_and_system.md`, rules R171 to R175): the header of a canonical table passes the six tests
of R73, and once it is read the command is the decoder of UNPACK on the bytes after it. -/

namespace Sys2Proof.Machine

/-! ## The header of DECOMPRESS -/

@[simp] theorem entryBytes_length (e : Nat × Count) : (entryBytes e).length = 5 := rfl

/-- DECOMPRESS of an operand without a header, whole: the failure comes before FT is written (R173). -/
theorem exec_decompress_of_malformed {s : State} (h : parseHeader s.input = .raise .malformedHeader) :
    exec .decompress s = .next (s.failed .malformedHeader) := by
  have body : decompressBody (beginCommand s) = .raise .malformedHeader (beginCommand s) := by
    simp [decompressBody, h]
  rw [exec_decompress, runFrame_of_raise body, endCommand_takeFailure (by decide) rfl]
  rfl

/-- The header of a canonical table around entry `e`: the three leading bytes and the entries before it, its five bytes,
the entries after it (R72). -/
theorem exists_header_eq_append {l r : List (Nat × Count)} {e : Nat × Count} (h : Table.wf 256 0#32 (l ++ e :: r)) :
    ∃ u v, u.length = 3 + 5 * l.length ∧ header (l ++ e :: r) = u ++ entryBytes e ++ v := by
  obtain ⟨lead, hlead, hh⟩ : ∃ lead : List Byte, lead.length = 3 ∧
      header (l ++ e :: r) = lead ++ (l ++ e :: r).flatMap entryBytes := ⟨[_, _, _], rfl, header_eq h⟩
  refine ⟨lead ++ l.flatMap entryBytes, r.flatMap entryBytes, ?_, by simp [hh]⟩
  simp [List.length_flatMap, hlead, Nat.mul_comm]

/-- Entry `j` of the header of a canonical table stands at byte `3 + 5*j` (R72). -/
theorem getD_header_append {ft : List (Nat × Count)} (h : Table.wf 256 0#32 ft) {j i : Nat} (hj : j < ft.length)
    (hi : i < 5) (y : List Byte) :
    (header ft ++ y).getD (3 + 5 * j + i) 0#8 = (entryBytes ft[j]).getD i 0#8 := by
  have around : ft = ft.take j ++ ft[j] :: ft.drop (j + 1) := by simp
  obtain ⟨u, v, hu, huv⟩ := exists_header_eq_append (around ▸ h)
  rw [← around] at huv
  rw [List.length_take_of_le hj.le] at hu
  rw [huv, List.append_assoc, List.append_assoc, List.getD_append_right _ _ _ _ (by omega), hu, Nat.add_sub_cancel_left,
    List.getD_append _ _ _ _ (by simpa using hi)]

/-- The count of entry `j` of a header (R72). -/
theorem be32_header_append {ft : List (Nat × Count)} (h : Table.wf 256 0#32 ft) {j : Nat} (hj : j < ft.length)
    (y : List Byte) :
    be32 ((header ft ++ y).getD (4 + 5 * j) 0#8) ((header ft ++ y).getD (5 + 5 * j) 0#8)
      ((header ft ++ y).getD (6 + 5 * j) 0#8) ((header ft ++ y).getD (7 + 5 * j) 0#8) = ft[j].2 := by
  have byte := fun i (hi : i < 5) => getD_header_append h hj hi y
  rw [show 4 + 5 * j = 3 + 5 * j + 1 by omega, show 5 + 5 * j = 3 + 5 * j + 2 by omega,
    show 6 + 5 * j = 3 + 5 * j + 3 by omega, show 7 + 5 * j = 3 + 5 * j + 4 by omega,
    byte 1 (by decide), byte 2 (by decide), byte 3 (by decide), byte 4 (by decide)]
  exact be32_be32Bytes _

/-- The symbols of a header are strictly ascending (R72). -/
theorem symbol_header_append_lt {ft : List (Nat × Count)} (h : Table.wf 256 0#32 ft) {j : Nat} (hj : j + 1 < ft.length)
    (y : List Byte) :
    (header ft ++ y).getD (3 + 5 * j) 0#8 < (header ft ++ y).getD (3 + 5 * (j + 1)) 0#8 := by
  have ⟨sorted, below, _⟩ := h
  have symbol : ∀ i (hi : i < ft.length), ((header ft ++ y).getD (3 + 5 * i) 0#8).toNat = ft[i].1 := by
    intro i hi
    have byte : ft[i].1 < 256 := below _ (List.getElem_mem hi)
    rw [← Nat.add_zero (3 + 5 * i), getD_header_append h hi (by decide), entryBytes, List.getD_cons_zero,
      BitVec.toNat_ofNat, Nat.mod_eq_of_lt byte]
  rw [BitVec.lt_def, symbol j (by omega), symbol (j + 1) hj]
  exact List.pairwise_iff_getElem.1 sorted j (j + 1) (by omega) hj (by omega)

/-- The number of entries a header claims is the number of entries of its table (R72). -/
theorem claimed_header_append {ft : List (Nat × Count)} (h : Table.wf 256 0#32 ft) (y : List Byte) :
    be16 ((header ft ++ y).getD 1 0#8) ((header ft ++ y).getD 2 0#8) = ft.length := by
  have le := presentSymbols_length_le ft
  rw [presentSymbols_eq_map h, List.length_map] at le
  rw [header_eq h]
  exact (be16_eq_iff (by omega)).2 ⟨rfl, rfl⟩

/-- Settles O48: a sequence that begins with a header passes all six tests. -/
theorem malformedHeaderKeepsTheTables : Obligations.MalformedHeaderKeepsTheTables := by
  intro s x h n tests
  refine exec_decompress_of_malformed ?_
  rw [h]
  refine (parseHeader_cases x).resolve_left ?_
  rintro ⟨ft, y, hft, rfl⟩
  have ⟨_, _, noZero⟩ := hft
  have hn : n = ft.length := claimed_header_append hft y
  have entries : (presentSymbols ft).length = ft.length := by rw [presentSymbols_eq_map hft, List.length_map]
  have le := presentSymbols_length_le ft
  have len : (header ft ++ y).length = 3 + 5 * ft.length + y.length := by
    rw [List.length_append, header_length, entries]
  rcases tests with short | version | many | cut | ⟨j, hj, zero⟩ | ⟨j, hj, order⟩
  · omega
  · exact version rfl
  · omega
  · omega
  · rw [hn] at hj
    rw [be32_header_append hft hj] at zero
    exact noZero _ (List.getElem_mem hj) zero
  · rw [hn] at hj
    exact BitVec.not_le.2 (symbol_header_append_lt hft hj y) order

/-! ## DECOMPRESS with a valid header -/

/-- A test that raises was passed when the procedure gives a value. -/
theorem Res.ite_raise_eq_ok_iff {α : Type} {c : Prop} [Decidable c] {k : FailKind} {x : Res α} {a : α} :
    (if c then .raise k else x) = .ok a ↔ ¬ c ∧ x = .ok a := by
  split <;> simp [*]

/-- What follows the entries is not looked at by the entry loop (R73). -/
theorem parseEntries_append_of_ok {n : Nat} {x : List (Option Byte)} {prev : Option Byte} {t r : List (Nat × Count)}
    (h : parseEntries n x prev t = .ok r) (y : List (Option Byte)) : parseEntries n (x ++ y) prev t = .ok r := by
  induction n generalizing x prev t with
  | zero => exact h
  | succ n ih =>
    match x, h with
    | b0 :: b1 :: b2 :: b3 :: b4 :: x, h =>
      simp only [parseEntries, List.cons_append, Res.bind_eq_ok_iff, Res.ite_raise_eq_ok_iff] at h ⊢
      obtain ⟨sym, h0, c3, h1, c2, h2, c1, h3, c0, h4, positive, ascending, h⟩ := h
      exact ⟨sym, h0, c3, h1, c2, h2, c1, h3, c0, h4, positive, ascending, ih h⟩

/-- A header is read the same whatever follows it (R73). -/
theorem parseHeader_append_of_ok {x : List (Option Byte)} {r : List (Nat × Count) × Nat} (h : parseHeader x = .ok r)
    (y : List (Option Byte)) : parseHeader (x ++ y) = .ok r := by
  match x, h with
  | b0 :: b1 :: b2 :: x, h =>
    simp only [parseHeader, List.cons_append, Res.bind_eq_ok_iff, Res.ite_raise_eq_ok_iff] at h ⊢
    obtain ⟨version, h0, hv, n1, h1, n0, h2, hn, room, t, ht, h⟩ := h
    have room' : ¬ (x ++ y).length < 5 * be16 n1 n0 := by
      rw [List.length_append]
      omega
    exact ⟨version, h0, hv, n1, h1, n0, h2, hn, room', t, parseEntries_append_of_ok ht y, h⟩

/-- The header of a table, whatever follows it, written or not, is read back as the table (R73). -/
theorem parseHeader_of_header {ft : List (Nat × Count)} (h : Table.wf 256 0#32 ft) (y : List (Option Byte)) :
    parseHeader ((header ft).map some ++ y) = .ok (ft, (header ft).length) := by
  have alone := parseHeader_header_append h []
  rw [List.append_nil, ← header_length] at alone
  exact parseHeader_append_of_ok alone y

/-- The body of DECOMPRESS once the header is read: the tree of its table, then the decoder on the rest (R172). -/
theorem decompressBody_of_header {s : State} {ft : List (Nat × Count)} (hft : Table.wf 256 0#32 ft)
    {y : List (Option Byte)} (h : s.input = (header ft).map some ++ y) :
    decompressBody s = Body.ofRes (buildTree { s with ft := ft })
      (unpackBits s.params.outCap.toNat (buildArena ft).1 (rootOf (buildArena ft).2) y)
      fun r => setResult r.2 r.1 (buildTree { s with ft := ft }) := by
  have rest : s.input.drop (header ft).length = y := by simp [h]
  have parsed : parseHeader s.input = .ok (ft, (header ft).length) := h ▸ parseHeader_of_header hft y
  simp only [decompressBody, parsed, decodeStream, rest]
  rfl

/-- The walk raises no IllegalCommand (R146). -/
theorem walkBits_ne_raise_illegalCommand {cap : Nat} {node : List (Nat × Node)} {root : BitVec 16}
    (bits : List (Option Bool)) {cur : NodeIdx} {out : List Byte} :
    walkBits cap node root bits cur out ≠ .raise .illegalCommand := by
  induction bits generalizing cur out with
  | nil => simp [walkBits]
  | cons b bits ih =>
    cases b with
    | none => simp [walkBits]
    | some b =>
      unfold walkBits
      split
      · simp
      · split
        · exact ih
        · split
          · simp
          · simp [Res.bind_eq_raise_iff, emit_eq_raise_iff, ih]

/-- The decoder raises no IllegalCommand (R146). -/
theorem unpackBits_ne_raise_illegalCommand {cap : Nat} {node : List (Nat × Node)} {root : BitVec 16}
    {operand : List (Option Byte)} : unpackBits cap node root operand ≠ .raise .illegalCommand := by
  rcases operand.eq_nil_or_concat with rfl | ⟨pl, b, rfl⟩
  · simp [unpackBits]
  cases b with
  | none => simp [unpackBits]
  | some p =>
    rw [List.concat_eq_append, unpackBits_append]
    split
    · simp
    · intro h
      rcases Res.bind_eq_raise_iff.1 h with h | ⟨r, -, h⟩
      · exact walkBits_ne_raise_illegalCommand _ h
      · split at h <;> cases h

/-- Settles O50: both commands run the same decoder with the same tree on the same bytes. -/
theorem decompressIsUnpackOfTheRest : Obligations.DecompressIsUnpackOfTheRest := by
  rintro s u t _ _ hft h rfl rfl hp ht
  have body := decompressBody_of_header (s := beginCommand s) hft h
  have decoder : unpackBits (beginCommand s).params.outCap.toNat (buildArena u.ft).1 (rootOf (buildArena u.ft).2)
      u.input = unpackRes u := by
    rw [unpackRes, hp, beginCommand_params]
  rw [decoder] at body
  rw [exec_decompress] at ht
  cases hr : unpackRes u with
  | ok r =>
    rw [hr, Body.ofRes_ok] at body
    rw [runFrame_of_done body, endCommand_setResult rfl rfl] at ht
    cases ht
    exact ⟨_, exec_unpack_of_ok hr, rfl, rfl, rfl, rfl, rfl, rfl, rfl, rfl⟩
  | raise k =>
    have hk : k ≠ .illegalCommand := by
      rintro rfl
      exact unpackBits_ne_raise_illegalCommand hr
    rw [hr, Body.ofRes_raise] at body
    rw [runFrame_of_raise body, endCommand_takeFailure hk rfl] at ht
    cases ht
    exact ⟨_, exec_unpack_of_raise hk hr, rfl, rfl, rfl, rfl, rfl, rfl, rfl, rfl⟩
  | refuse r =>
    rw [hr, Body.ofRes_refuse] at body
    rw [runFrame_of_refuse body] at ht
    cases ht

end Sys2Proof.Machine
end

section
/-! The state after a failing command (`60_exceptions.md`, rules R200 and R201): each procedure raises the kinds of its
unit only, and each command that ends with ERR = 1 ends in one row of the table of R201. -/

namespace Sys2Proof.Machine

/-! ## The kinds a procedure can raise -/

/-- A procedure raises no failure but the listed kinds (R201, column "kind"). -/
def Res.RaisesOnly {α : Type} (kinds : List FailKind) (x : Res α) : Prop := ∀ k, x = .raise k → k ∈ kinds

section
variable {α β : Type} {kinds : List FailKind}

@[simp] theorem Res.raisesOnly_ok (a : α) : (Res.ok a).RaisesOnly kinds := nofun

@[simp] theorem Res.raisesOnly_refuse (r : Refusal) : (Res.refuse r : Res α).RaisesOnly kinds := nofun

@[simp] theorem Res.raisesOnly_raise {k : FailKind} : (Res.raise k : Res α).RaisesOnly kinds ↔ k ∈ kinds := by
  simp [Res.RaisesOnly]

/-- A sequence of two procedures raises what either of them raises. -/
theorem Res.RaisesOnly.bind {x : Res α} {f : α → Res β} (hx : x.RaisesOnly kinds) (hf : ∀ a, (f a).RaisesOnly kinds) :
    (x.bind f).RaisesOnly kinds := by
  intro k h
  rcases Res.bind_eq_raise_iff.1 h with h | ⟨a, -, h⟩
  · exact hx k h
  · exact hf a k h

/-- Reading a byte of IN raises no failure (R226). -/
@[simp] theorem readByte_raisesOnly (b : Option Byte) : (readByte b).RaisesOnly kinds := by
  cases b <;> simp

/-- `emit` raises IOFailure alone (R191). -/
theorem emit_raisesOnly (io : .ioFailure ∈ kinds) (cap : Nat) (out : List Byte) (v : Byte) :
    (emit cap out v).RaisesOnly kinds := by
  intro k h
  obtain ⟨-, rfl⟩ := emit_eq_raise_iff.1 h
  exact io

theorem drain_raisesOnly (io : .ioFailure ∈ kinds) (cap fuel : Nat) (buf : Bits) (out : List Byte) :
    (drain cap fuel buf out).RaisesOnly kinds := by
  induction fuel generalizing buf out with
  | zero => exact Res.raisesOnly_ok _
  | succ fuel ih =>
    rw [drain]
    split
    · exact (emit_raisesOnly io _ _ _).bind fun _ => ih _ _
    · exact Res.raisesOnly_ok _

theorem packTail_raisesOnly (io : .ioFailure ∈ kinds) (cap : Nat) (buf : Bits) (out : List Byte) :
    (packTail cap buf out).RaisesOnly kinds := by
  rw [packTail]
  split
  · exact (emit_raisesOnly io _ _ _).bind fun _ => (emit_raisesOnly io _ _ _).bind fun _ => Res.raisesOnly_ok _
  · exact (emit_raisesOnly io _ _ _).bind fun _ => Res.raisesOnly_ok _

end

/-- The kinds of PACK (R201). -/
def packKinds : List FailKind := [.missingCode, .ioFailure]

theorem packLoop_raisesOnly (cap : Nat) (ct : List (Nat × CodeEntry)) (input : List (Option Byte)) (buf : Bits)
    (out : List Byte) : (packLoop cap ct input buf out).RaisesOnly packKinds := by
  induction input generalizing buf out with
  | nil => exact Res.raisesOnly_ok _
  | cons b rest ih =>
    refine (readByte_raisesOnly b).bind fun v => ?_
    split
    · simp [packKinds]
    · exact (drain_raisesOnly (by decide) _ _ _ _).bind fun _ => ih _ _

/-- `pack_bits` raises MissingCode and IOFailure alone (R201, row PACK). -/
theorem packBits_raisesOnly (cap : Nat) (ct : List (Nat × CodeEntry)) (input : List (Option Byte)) (out : List Byte) :
    (packBits cap ct input out).RaisesOnly packKinds :=
  (packLoop_raisesOnly _ _ _ _ _).bind fun _ => packTail_raisesOnly (by decide) _ _ _

/-- The kinds of the decoder (R201, rows UNPACK and DECOMPRESS). -/
def decoderKinds : List FailKind := [.truncatedStream, .invalidPadding, .invalidCode, .ioFailure]

theorem walkBits_raisesOnly (cap : Nat) (node : List (Nat × Node)) (root : BitVec 16) (bits : List (Option Bool))
    (cur : NodeIdx) (out : List Byte) : (walkBits cap node root bits cur out).RaisesOnly decoderKinds := by
  induction bits generalizing cur out with
  | nil => exact Res.raisesOnly_ok _
  | cons b bits ih =>
    cases b with
    | none => exact Res.raisesOnly_refuse _
    | some b =>
      rw [walkBits]
      split
      · simp [decoderKinds]
      · split
        · exact ih _ _
        · split
          · simp [decoderKinds]
          · exact (emit_raisesOnly (by decide) _ _ _).bind fun _ => ih _ _

/-- `unpack_bits` raises the kinds of the decoder alone (R201, rows UNPACK and DECOMPRESS). -/
theorem unpackBits_raisesOnly (cap : Nat) (node : List (Nat × Node)) (root : BitVec 16) (operand : List (Option Byte)) :
    (unpackBits cap node root operand).RaisesOnly decoderKinds := by
  rw [unpackBits]
  split
  · simp [decoderKinds]
  · refine (readByte_raisesOnly _).bind fun p => ?_
    split
    · simp [decoderKinds]
    · refine (walkBits_raisesOnly _ _ _ _ _ _).bind fun r => ?_
      split <;> simp [decoderKinds]

theorem parseEntries_raisesOnly (n : Nat) (x : List (Option Byte)) (prev : Option Byte) (t : List (Nat × Count)) :
    (parseEntries n x prev t).RaisesOnly [.malformedHeader] := by
  fun_induction parseEntries n x prev t with
  | case1 => exact Res.raisesOnly_ok _
  | case2 n b0 b1 b2 b3 b4 rest prev t ih =>
    refine (readByte_raisesOnly b0).bind fun sym => (readByte_raisesOnly b1).bind fun c3 =>
      (readByte_raisesOnly b2).bind fun c2 => (readByte_raisesOnly b3).bind fun c1 =>
      (readByte_raisesOnly b4).bind fun c0 => ?_
    split
    · simp
    · split
      · simp
      · exact ih _ _ _ _ _
  | case3 => simp

/-- `parse_header` raises MalformedHeader alone (R192). -/
theorem parseHeader_raisesOnly (x : List (Option Byte)) : (parseHeader x).RaisesOnly [.malformedHeader] := by
  rw [parseHeader.eq_def]
  split
  · refine (readByte_raisesOnly _).bind fun version => ?_
    split
    · simp
    · refine (readByte_raisesOnly _).bind fun n1 => (readByte_raisesOnly _).bind fun n0 => ?_
      split
      · simp
      · split
        · simp
        · exact (parseEntries_raisesOnly _ _ _ _).bind fun _ => Res.raisesOnly_ok _
  · simp

/-! ## The failing end of each command -/

/-- A command whose last phase is a procedure run in state `u`, and whose results on a value leave ERR 0: when it ends
with ERR = 1 the procedure raised one of its kinds, and the failure was taken in `u` (R177, R200). -/
theorem exists_failed_of_runFrame {α : Type} {body : State → Body} {s t u : State} {x : Res α} {w : α → State}
    {kinds : List FailKind} (hbody : body (beginCommand s) = Body.ofRes u x w)
    (hu : u.status = statusWord true false false) (hw : ∀ a, errBit (w a).status = false)
    (hx : x.RaisesOnly kinds) (hkinds : .illegalCommand ∉ kinds) (ht : runFrame body s = .next t)
    (herr : errBit t.status = true) : ∃ k ∈ kinds, t = u.failed k := by
  cases x with
  | ok a =>
    cases (runFrame_of_done hbody).symm.trans ht
    simp [setBusy, hw] at herr
  | raise k =>
    have hk : k ∈ kinds := hx k rfl
    have taken : endCommand (takeFailure k u) = u.failed k :=
      endCommand_takeFailure (fun e => hkinds (e ▸ hk)) hu
    exact ⟨k, hk, Host.Outcome.next.inj (ht.symm.trans (taken ▸ runFrame_of_raise hbody))⟩
  | refuse r => cases (runFrame_of_refuse hbody).symm.trans ht

/-- A COMPRESS that ends has read its whole operand (U1). -/
theorem exists_input_of_exec_compress {s t : State} (h : exec .compress s = .next t) :
    ∃ x : List Byte, s.input = x.map some := by
  rcases fcountBody_eq (beginCommand s) with ⟨x, hx, -⟩ | ⟨-, hr⟩
  · exact ⟨x, hx⟩
  · have body : compressBody (beginCommand s) = .refuse .unwrittenInput := by rw [compressBody, hr]
    cases (runFrame_of_refuse body).symm.trans h

/-- A command that ends with ERR = 1 from state `s` is in one row of the table of R201, with the state the row gives. -/
inductive FailureEnd (s : State) : Instr → State → Prop
  | pack {k : FailKind} (hk : k ∈ packKinds) : FailureEnd s .pack (s.failed k)
  | unpack {k : FailKind} (hk : k ∈ decoderKinds) : FailureEnd s .unpack ((buildTree s).failed k)
  | compress {x : List Byte} (h : s.input = x.map some) : FailureEnd s .compress (compressOverflowed s x)
  | malformed : FailureEnd s .decompress (s.failed .malformedHeader)
  | decompress {ft : List (Nat × Count)} {h : Nat} {k : FailKind} (parsed : parseHeader s.input = .ok (ft, h))
      (hk : k ∈ decoderKinds) : FailureEnd s .decompress ((buildTree { s with ft := ft }).failed k)

section
variable {s t : State}

theorem errBit_ne_true_of_exec_fcount (ht : exec .fcount s = .next t) : errBit t.status ≠ true := by
  obtain ⟨x, h⟩ := exists_input_of_exec_fcount ht
  cases (exec_fcount_of_written h).symm.trans ht
  dsimp only
  split <;> decide

/-- A command known to end with STATUS 0x00 does not end with ERR = 1 (R12). -/
theorem errBit_ne_true_of_exec_eq {i : Instr} {u : State} (hu : exec i s = .next u) (h0 : u.status = 0x00#8)
    (ht : exec i s = .next t) : errBit t.status ≠ true := by
  cases hu.symm.trans ht
  rw [h0]
  decide

theorem failureEnd_of_exec_pack (ht : exec .pack s = .next t) (herr : errBit t.status = true) :
    FailureEnd s .pack t := by
  obtain ⟨k, hk, rfl⟩ := exists_failed_of_runFrame rfl rfl (fun _ => errBit_statusWord _ _ _)
    (packBits_raisesOnly _ _ _ _) (by decide) ((exec_pack s).symm.trans ht) herr
  exact .pack hk

theorem failureEnd_of_exec_unpack (ht : exec .unpack s = .next t) (herr : errBit t.status = true) :
    FailureEnd s .unpack t := by
  obtain ⟨k, hk, rfl⟩ := exists_failed_of_runFrame rfl rfl (fun _ => errBit_statusWord _ _ _)
    (unpackBits_raisesOnly _ _ _ _) (by decide) ((exec_unpack s).symm.trans ht) herr
  exact .unpack hk

theorem failureEnd_of_exec_compress (ht : exec .compress s = .next t) (herr : errBit t.status = true) :
    FailureEnd s .compress t := by
  obtain ⟨x, h⟩ := exists_input_of_exec_compress ht
  rcases exec_compress_cases h ht with ⟨-, rfl⟩ | rfl
  · rw [errBit_compressed] at herr
    cases herr
  · exact .compress h

/-- The header is parsed before any table is written (R173), so its failure and the decoder's are two rows of R201. -/
theorem failureEnd_of_exec_decompress (ht : exec .decompress s = .next t) (herr : errBit t.status = true) :
    FailureEnd s .decompress t := by
  cases parsed : parseHeader s.input with
  | ok r =>
    obtain ⟨ft, h⟩ := r
    have body : decompressBody (beginCommand s) = decodeStream (beginCommand s) ft h := by
      rw [decompressBody, beginCommand_input, parsed]
    obtain ⟨k, hk, rfl⟩ := exists_failed_of_runFrame body rfl (fun _ => errBit_statusWord _ _ _)
      (unpackBits_raisesOnly _ _ _ _) (by decide) ht herr
    exact .decompress parsed hk
  | raise k =>
    obtain rfl : k = .malformedHeader := List.mem_singleton.1 (parseHeader_raisesOnly _ k parsed)
    cases (exec_decompress_of_malformed parsed).symm.trans ht
    exact .malformed
  | refuse r =>
    have body : decompressBody (beginCommand s) = .refuse r := by
      rw [decompressBody, beginCommand_input, parsed]
    cases (runFrame_of_refuse body).symm.trans ht

/-- Every command that ends with ERR = 1 ends in a row of R201. -/
theorem failureEnd_of_exec {i : Instr} (ht : exec i s = .next t) (herr : errBit t.status = true) :
    FailureEnd s i t := by
  cases i with
  | fcount => exact absurd herr (errBit_ne_true_of_exec_fcount ht)
  | build => exact absurd herr (errBit_ne_true_of_exec_eq (exec_build s) rfl ht)
  | derive => exact absurd herr (errBit_ne_true_of_exec_eq (exec_derive s) rfl ht)
  | pack => exact failureEnd_of_exec_pack ht herr
  | unpack => exact failureEnd_of_exec_unpack ht herr
  | compress => exact failureEnd_of_exec_compress ht herr
  | decompress => exact failureEnd_of_exec_decompress ht herr
  | clear => exact absurd herr (errBit_ne_true_of_exec_eq (clearReturnsToReset s) rfl ht)

end

/-! ## The obligation -/

/-- The codes of the kinds of PACK (R190, R201). -/
theorem code_of_mem_packKinds : ∀ k ∈ packKinds, k.code = 5#8 ∨ k.code = 1#8 := by decide

/-- The codes of the kinds of the decoder (R190, R201). -/
theorem code_of_mem_decoderKinds :
    ∀ k ∈ decoderKinds, k.code = 3#8 ∨ k.code = 4#8 ∨ k.code = 6#8 ∨ k.code = 1#8 := by decide

/-- A word that selects no command is a reserved one (R63). -/
theorem not_wordWf_of_decode_ne {v : Byte} (h : ∀ i, decode v ≠ .ok i) : wordWf v = false := by
  refine Bool.eq_false_iff.2 fun hv => ?_
  obtain ⟨i, rfl⟩ := exists_encode_of_wordWf hv
  exact h i (decode_encode i)

/-- Settles O53, row by row of R201. -/
theorem failureLeavesTheStatedState : Obligations.FailureLeavesTheStatedState := by
  refine ⟨fun v s h => startCommand_of_not_wordWf (not_wordWf_of_decode_ne h) s, fun i s t ht herr => ?_⟩
  cases failureEnd_of_exec ht herr with
  | pack hk =>
    refine ⟨rfl, rfl, rfl, rfl, rfl, rfl, .inl rfl, fun _ => ?_, nofun, nofun, nofun⟩
    exact ⟨code_of_mem_packKinds _ hk, rfl, rfl, rfl, rfl⟩
  | unpack hk =>
    refine ⟨rfl, rfl, rfl, rfl, rfl, rfl, .inr (.inl rfl), nofun, fun _ => ?_, nofun, nofun⟩
    exact ⟨code_of_mem_decoderKinds _ hk, rfl, rfl, rfl, rfl⟩
  | compress h =>
    refine ⟨rfl, rfl, rfl, rfl, rfl, rfl, .inr (.inr (.inl rfl)), nofun, nofun, fun _ => ?_, nofun⟩
    exact ⟨rfl, _, h, fun _ => toNat_ftGet_countBytes_of_lt (length_lt_of_input h), rfl, rfl, rfl⟩
  | malformed =>
    refine ⟨rfl, rfl, rfl, rfl, rfl, rfl, .inr (.inr (.inr rfl)), nofun, nofun, nofun, fun _ => ?_⟩
    exact ⟨rfl, .inl ⟨rfl, rfl, rfl, rfl⟩⟩
  | decompress parsed hk =>
    refine ⟨rfl, rfl, rfl, rfl, rfl, rfl, .inr (.inr (.inr rfl)), nofun, nofun, nofun, fun _ => ?_⟩
    exact ⟨rfl, .inr ⟨code_of_mem_decoderKinds _ hk, ⟨_, parsed⟩, rfl, rfl⟩⟩

end Sys2Proof.Machine
end

section
/-! An operand byte that was never written (`70_reset_and_hazards.md`, rule R226; `93_implementation_defined.md` U1): a
command has no meaning exactly when its procedure has none, and each procedure stops where it reads the byte. -/

namespace Sys2Proof.Machine

/-! ## A procedure without a meaning inside the frame -/

/-- The frame has no meaning exactly when its body has none (R177, R226). -/
theorem runFrame_eq_refused_iff {body : State → Body} {s : State} {r : Refusal} :
    runFrame body s = .refused r ↔ body (beginCommand s) = .refuse r := by
  refine ⟨fun h => ?_, runFrame_of_refuse⟩
  unfold runFrame at h
  split at h
  · cases h
  · cases h
  · next hb =>
    cases h
    exact hb

theorem Body.ofRes_eq_refuse_iff {α : Type} {s : State} {x : Res α} {w : α → State} {r : Refusal} :
    Body.ofRes s x w = .refuse r ↔ x = .refuse r := by
  cases x <;> simp

theorem exec_pack_eq_refused_iff {s : State} {r : Refusal} :
    exec .pack s = .refused r ↔ packBits s.params.outCap.toNat s.ct s.input [] = .refuse r := by
  rw [exec_pack, runFrame_eq_refused_iff, Body.ofRes_eq_refuse_iff]
  rfl

theorem exec_unpack_eq_refused_iff {s : State} {r : Refusal} : exec .unpack s = .refused r ↔ unpackRes s = .refuse r := by
  rw [exec_unpack, runFrame_eq_refused_iff, Body.ofRes_eq_refuse_iff]
  rfl

/-- DECOMPRESS of a header that reads an unwritten byte. -/
theorem exec_decompress_of_refuse {s : State} {r : Refusal} (h : parseHeader s.input = .refuse r) :
    exec .decompress s = .refused r := by
  rw [exec_decompress]
  refine runFrame_of_refuse ?_
  rw [decompressBody, beginCommand_input, h]

/-! ## FCOUNT and COMPRESS -/

/-- The count reads every byte of the operand (R90). -/
theorem fcountBody_of_none_mem {s : State} (h : none ∈ s.input) : fcountBody s = .refuse .unwrittenInput := by
  rw [fcountBody, allWritten_eq_none_iff.2 h]

theorem exec_fcount_of_none_mem {s : State} (h : none ∈ s.input) : exec .fcount s = .refused .unwrittenInput := by
  rw [exec_fcount]
  refine runFrame_of_refuse ?_
  rw [fcountBody_of_none_mem (s := beginCommand s) h, Body.ofRes_refuse]

theorem exec_compress_of_none_mem {s : State} (h : none ∈ s.input) : exec .compress s = .refused .unwrittenInput := by
  rw [exec_compress]
  refine runFrame_of_refuse ?_
  rw [compressBody, fcountBody_of_none_mem (s := beginCommand s) h]

/-! ## PACK -/

/-- `pack_bits` reads the byte after those whose whole code bytes fit (R131). -/
theorem packBits_of_unwritten {cap : Nat} {ct : List (Nat × CodeEntry)} {x : List Byte} (hx : AllCoded ct x)
    (rest : List (Option Byte)) (hfit : (codeString ct x).length / 8 ≤ cap) :
    packBits cap ct (x.map some ++ none :: rest) [] = .refuse .unwrittenInput := by
  rw [packBits, packLoop_append cap hx _ (by decide), List.nil_append,
    emitAll_of_le _ (by rw [bytesOf_length]; simpa using hfit), Res.bind_ok]
  rfl

/-! ## UNPACK -/

/-- `unpack_bits` reads the trailer first (R146, R148). -/
theorem unpackBits_of_unwritten_trailer (cap : Nat) (node : List (Nat × Node)) (root : BitVec 16)
    (pl : List (Option Byte)) : unpackBits cap node root (pl ++ [none]) = .refuse .unwrittenInput := by
  simp [unpackBits]

/-- The bits before the end of a path lead to an internal node (R150). -/
theorem PathTo.exists_internal_of_isPrefix {node : List (Nat × Node)} {r k : NodeIdx} {p q : Bits}
    (hp : PathTo node r p k) (hq : q <+: p) (hne : q ≠ p) :
    ∃ j, PathTo node r q j ∧ (nodeGet node j.toNat).kind = .internal := by
  induction hp with
  | start => exact absurd (List.prefix_nil.1 hq) hne
  | @move p j h hj b ih =>
    have hqp : q <+: p := (List.prefix_concat_iff.1 hq).resolve_left hne
    by_cases he : q = p
    · exact ⟨j, he ▸ h, hj⟩
    · exact ih hqp he

/-- The walk along the codes of `x`, which fits, and a part of a code emits `x` and goes on from some node (R150). -/
theorem ArenaInv.exists_walkBits_of_codeString_append {node : List (Nat × Node)} {root : BitVec 16}
    (h : ArenaInv node root) {cap : Nat} {x : List Byte} {q : Bits} (hx : AllCoded (codesOf node root) x)
    (hq : q = [] ∨ ∃ sym c, codeOf (codesOf node root) sym = some c ∧ q <+: c ∧ q ≠ c) (hfit : x.length ≤ cap)
    (rest : List (Option Bool)) :
    ∃ k, walkBits cap node root ((codeString (codesOf node root) x ++ q).map some ++ rest) (rootIdx root) [] =
      walkBits cap node root rest k x := by
  simp only [List.map_append, List.append_assoc, h.walkBits_codeString cap hx]
  rw [emitAll_of_le _ (by simpa using hfit), Res.bind_ok, List.nil_append]
  rcases hq with rfl | ⟨sym, c, hc, hpre, hne⟩
  · exact ⟨rootIdx root, rfl⟩
  · obtain ⟨-, -, v, rfl, -⟩ := (codeOf_codesOf_iff h sym c).1 hc
    obtain ⟨present, path⟩ := (codeOf_codesOf_iff_pathTo h v c).1 hc
    obtain ⟨k, part, internal⟩ := path.exists_internal_of_isPrefix hpre hne
    exact ⟨k, part.walkBits_of_internal present internal cap rest x⟩

/-- The bits of the written bytes come before the first bit of an unwritten one (R149). -/
theorem exists_take_expandBytes_eq {w : List Byte} {n : Nat} (hn : 8 * w.length < n) (rest : List (Option Byte)) :
    ∃ bits, (expandBytes (w.map some ++ none :: rest)).take n = (w.flatMap bits8).map some ++ none :: bits := by
  have expand : expandBytes (w.map some ++ none :: rest) =
      (w.flatMap bits8).map some ++ none :: (List.replicate 7 none ++ expandBytes rest) := by
    rw [← expandBytes_some]
    simp [expandBytes, expandByte]
  have written : ((w.flatMap bits8).map some).length = 8 * w.length := by
    rw [List.length_map, length_flatMap_bits8]
  obtain ⟨m, hm⟩ : ∃ m, n - 8 * w.length = m + 1 := ⟨n - 8 * w.length - 1, by omega⟩
  rw [expand, List.take_append, List.take_of_length_le (by omega), written, hm, List.take_succ_cons]
  exact ⟨_, rfl⟩

/-- The decoder reads the payload byte after the codes of `x`, which fits, and a part of a code (R146). -/
theorem unpackRes_of_unwritten {s : State} {w x : List Byte} {rest : List (Option Byte)} {p : Byte} {q : Bits}
    (h : s.input = w.map some ++ none :: (rest ++ [some p])) (h7 : p.toNat ≤ 7) (hx : AllPresent s.ft x)
    (hbits : w.flatMap bits8 = codeString (tableCodes s.ft) x ++ q)
    (hq : q = [] ∨ ∃ sym c, codeOf (tableCodes s.ft) sym = some c ∧ q <+: c ∧ q ≠ c)
    (hfit : x.length ≤ s.params.outCap.toNat) : unpackRes s = .refuse .unwrittenInput := by
  have operand : s.input = (w.map some ++ none :: rest) ++ [some p] := by simp [h]
  have length : (w.map some ++ none :: rest).length = w.length + rest.length + 1 := by simp; omega
  obtain ⟨bits, hb⟩ := exists_take_expandBytes_eq (w := w) (n := 8 * (w.length + rest.length + 1) - p.toNat) (by omega)
    rest
  obtain ⟨k, hk⟩ := (arenaInv_buildArena s.ft).exists_walkBits_of_codeString_append (allCoded_tableCodes hx) hq hfit
    (none :: bits)
  rw [← tableCodes, ← hbits] at hk
  rw [unpackRes, operand, unpackBits_append, length, if_neg (by omega), hb, hk]
  rfl

/-! ## DECOMPRESS -/

/-- A turn of the entry loop reads all five bytes of the entry before it tests any (R73). -/
theorem parseEntries_of_none_mem (n : Nat) {x : List (Option Byte)} (hlen : 5 ≤ x.length) (h : none ∈ x.take 5)
    (prev : Option Byte) (t : List (Nat × Count)) : parseEntries (n + 1) x prev t = .refuse .unwrittenInput := by
  match x, hlen, h with
  | none :: _ :: _ :: _ :: _ :: _, _, _ => rfl
  | some _ :: none :: _ :: _ :: _ :: _, _, _ => rfl
  | some _ :: some _ :: none :: _ :: _ :: _, _, _ => rfl
  | some _ :: some _ :: some _ :: none :: _ :: _, _, _ => rfl
  | some _ :: some _ :: some _ :: some _ :: none :: _, _, _ => rfl
  | some _ :: some _ :: some _ :: some _ :: some _ :: _, _, h => simp at h

/-- The entries that lie whole in the bytes `w` pass the tests of the entry loop after symbol `prev` (R73). -/
structure EntriesLegal (prev : Option Byte) (w : List Byte) : Prop where
  counts    : ∀ j, 5 + 5 * j ≤ w.length →
                be32 (w.getD (1 + 5 * j) 0#8) (w.getD (2 + 5 * j) 0#8) (w.getD (3 + 5 * j) 0#8) (w.getD (4 + 5 * j) 0#8) ≠
                  0#32
  first     : 5 ≤ w.length → ascends prev (w.getD 0 0#8) = true
  ascending : ∀ j, 5 + 5 * (j + 1) ≤ w.length → w.getD (5 * j) 0#8 < w.getD (5 * (j + 1)) 0#8

theorem EntriesLegal.tail {prev : Option Byte} {b0 b1 b2 b3 b4 : Byte} {w : List Byte}
    (h : EntriesLegal prev (b0 :: b1 :: b2 :: b3 :: b4 :: w)) : EntriesLegal (some b0) w where
  counts j hj := by simpa [Nat.mul_add, ← Nat.add_assoc] using h.counts (j + 1) (by simp; omega)
  first hw := decide_eq_true (by simpa using h.ascending 0 (by simp; omega))
  ascending j hj := by simpa [Nat.mul_add] using h.ascending (j + 1) (by simp; omega)

/-- The entry loop reads the byte after legal entries and a part of one (R73). -/
theorem parseEntries_of_unwritten {n : Nat} {w : List Byte} {prev : Option Byte} (legal : EntriesLegal prev w)
    (hw : w.length < 5 * n) (rest : List (Option Byte)) (hlen : 5 * n ≤ w.length + 1 + rest.length)
    (t : List (Nat × Count)) : parseEntries n (w.map some ++ none :: rest) prev t = .refuse .unwrittenInput := by
  induction n generalizing w prev t with
  | zero => omega
  | succ n ih =>
    by_cases h5 : 5 ≤ w.length
    · match w, h5 with
      | b0 :: b1 :: b2 :: b3 :: b4 :: w, _ =>
        have count : be32 b1 b2 b3 b4 ≠ 0#32 := legal.counts 0 (by simp)
        have symbol : ascends prev b0 = true := legal.first (by simp)
        simp only [List.length_cons] at hw hlen
        simp only [List.map_cons, List.cons_append, parseEntries, readByte_some, Res.bind_ok, if_neg count, symbol]
        exact ih legal.tail (by omega) (by omega) _
    · refine parseEntries_of_none_mem n (by simp; omega) ?_ prev t
      rw [List.mem_take_iff_getElem]
      exact ⟨w.length, by simp; omega, by simp⟩

/-- `parse_header` reads the version byte first (R73). -/
theorem parseHeader_of_unwritten_version {x : List (Option Byte)} (h : 2 ≤ x.length) :
    parseHeader (none :: x) = .refuse .unwrittenInput := by
  match x, h with
  | _ :: _ :: _, _ => rfl

/-- `parse_header` reads both bytes of the number of entries after the version 1 (R73). -/
theorem parseHeader_of_unwritten_number {b1 b2 : Option Byte} (h : b1 = none ∨ b2 = none) (y : List (Option Byte)) :
    parseHeader (some 0x01#8 :: b1 :: b2 :: y) = .refuse .unwrittenInput := by
  match b1, b2, h with
  | none, _, _ => rfl
  | some _, none, _ => rfl
  | some _, some _, h => simp at h

/-- `parse_header` reads the byte after legal entries and a part of one, when the operand is long enough (R73). -/
theorem parseHeader_of_unwritten_entry {n1 n0 : Byte} {w : List Byte} {rest : List (Option Byte)}
    (hn : be16 n1 n0 ≤ 256) (hw : w.length < 5 * be16 n1 n0) (hlen : 5 * be16 n1 n0 ≤ w.length + 1 + rest.length)
    (legal : EntriesLegal none w) :
    parseHeader (some 0x01#8 :: some n1 :: some n0 :: (w.map some ++ none :: rest)) = .refuse .unwrittenInput := by
  have long : ¬ (w.map some ++ none :: rest).length < 5 * be16 n1 n0 := by simp; omega
  simp only [parseHeader, readByte_some, Res.bind_ok, if_neg (Nat.not_lt.2 hn), if_neg long,
    parseEntries_of_unwritten legal hw rest hlen, Res.bind_refuse]
  rfl

/-- DECOMPRESS when the first unwritten byte lies in an entry after legal ones (R73). -/
theorem exec_decompress_of_unwritten_entry {s : State} {w : List Byte} {rest : List (Option Byte)}
    (h : s.input = w.map some ++ none :: rest) (h3 : 3 ≤ w.length) (hv : w.getD 0 0#8 = 0x01#8)
    (hn : be16 (w.getD 1 0#8) (w.getD 2 0#8) ≤ 256) (hw : w.length < 3 + 5 * be16 (w.getD 1 0#8) (w.getD 2 0#8))
    (hlen : 3 + 5 * be16 (w.getD 1 0#8) (w.getD 2 0#8) ≤ s.input.length)
    (counts : ∀ j, 8 + 5 * j ≤ w.length →
      be32 (w.getD (4 + 5 * j) 0#8) (w.getD (5 + 5 * j) 0#8) (w.getD (6 + 5 * j) 0#8) (w.getD (7 + 5 * j) 0#8) ≠ 0#32)
    (ascending : ∀ j, 8 + 5 * (j + 1) ≤ w.length → w.getD (3 + 5 * j) 0#8 < w.getD (3 + 5 * (j + 1)) 0#8) :
    exec .decompress s = .refused .unwrittenInput := by
  match w, h3 with
  | v :: n1 :: n0 :: w, _ =>
    obtain rfl : v = 0x01#8 := hv
    have shift : ∀ a i, ((0x01#8 : Byte) :: n1 :: n0 :: w).getD (a + 3 + i) 0#8 = w.getD (a + i) 0#8 := fun a i => by
      rw [Nat.add_right_comm]
      rfl
    have legal : EntriesLegal none w :=
      { counts j hj := by simpa only [shift] using counts j (by simp; omega)
        first _ := rfl
        ascending j hj := by simpa only [shift 0, Nat.zero_add] using ascending j (by simp; omega) }
    simp only [h, List.length_cons, List.length_append, List.length_map, List.getD_cons_succ, List.getD_cons_zero]
      at hn hw hlen
    exact exec_decompress_of_refuse
      (h ▸ parseHeader_of_unwritten_entry hn (by omega) (by omega) legal)

/-- DECOMPRESS with a valid header has no meaning when UNPACK of the rest with its table has none (R174). -/
theorem exec_decompress_of_unpack_refused {s u : State} {r : Refusal} (hft : Table.wf 256 0#32 u.ft)
    (h : s.input = (header u.ft).map some ++ u.input) (hp : u.params = s.params) (hu : exec .unpack u = .refused r) :
    exec .decompress s = .refused r := by
  rw [exec_decompress]
  refine runFrame_of_refuse ?_
  rw [decompressBody_of_header (s := beginCommand s) hft h, Body.ofRes_eq_refuse_iff, beginCommand_params, ← hp]
  exact exec_unpack_eq_refused_iff.1 hu

/-- Settles O18: in each clause the procedure of the command has passed all its tests when it reads the byte. -/
theorem unwrittenOperandByteStops : Obligations.UnwrittenOperandByteStops := by
  refine fun s => ⟨fun h => ⟨exec_fcount_of_none_mem h, exec_compress_of_none_mem h⟩, fun x rest h hx hfit => ?_,
    fun pl h => ?_, fun w x rest p q h h7 hx hbits hq hfit => ?_, fun y h h3 => ?_, fun b y h => ?_,
    fun _ _ => exec_decompress_of_unwritten_entry, fun u ft y r hft h hu hy hp hr => ?_⟩
  · exact exec_pack_eq_refused_iff.2 (h ▸ packBits_of_unwritten hx rest hfit)
  · rw [exec_unpack_eq_refused_iff, unpackRes, h]
    exact unpackBits_of_unwritten_trailer _ _ _ pl
  · exact exec_unpack_eq_refused_iff.2 (unpackRes_of_unwritten h h7 hx hbits hq hfit)
  · refine exec_decompress_of_refuse (h ▸ parseHeader_of_unwritten_version ?_)
    simpa [h] using h3
  · refine exec_decompress_of_refuse ?_
    rcases h with h | h
    · exact h ▸ parseHeader_of_unwritten_number (.inl rfl) y
    · exact h ▸ parseHeader_of_unwritten_number (.inr rfl) y
  · subst hu hy
    exact exec_decompress_of_unpack_refused hft h hp hr

end Sys2Proof.Machine
end

section
/-! The commands right after reset (`70_reset_and_hazards.md`, rule R224): the operand and the tables are empty. -/

namespace Sys2Proof.Machine

/-- The empty arena with the absent root meets R32. -/
theorem arenaInv_empty : ArenaInv [] 0#16 := by
  have h := arenaInv_buildArena []
  rwa [buildArena_of_empty presentSymbols_nil] at h

/-- BUILD of the empty table makes the absent tree (R102). -/
theorem exec_build_of_empty {s : State} (h : presentSymbols s.ft = []) :
    exec .build s = .next { s with node := [], root := 0#16, status := 0x00#8, errcode := 0#8 } := by
  rw [exec_build, buildArena_of_empty h]
  rfl

/-- DERIVE of the absent tree makes no codes (R102, R121). -/
theorem exec_derive_of_absent {s : State} (h : rootPresent s.root = false) :
    exec .derive s = .next { s with ct := [], status := 0x00#8, errcode := 0#8 } := by
  rw [exec_derive, codesOf, h]

/-- PACK of the empty operand: the trailer alone (R134), when OUT has a byte for it (R49). -/
theorem exec_pack_of_nil {s : State} (h : s.input = []) :
    exec .pack s = .next (if 1 ≤ s.params.outCap.toNat then s.succeeded [0x00#8] 0#8 else s.failed .ioFailure) := by
  have coded : AllCoded s.ct [] := List.forall_mem_nil _
  have alone : packed s.ct [] = [0x00#8] := by
    rw [packed, codeString_nil]
    rfl
  have fits := exec_pack_of_fits (x := []) h coded
  have full := exec_pack_of_overflow (x := []) h coded
  rw [alone] at fits
  rw [codeString_nil] at fits full
  split
  · next hcap => exact fits hcap
  · next hcap => exact full (Nat.not_le.1 hcap)

/-- UNPACK of the empty operand with the empty table: no trailer, and the absent tree (R102, R147). -/
theorem exec_unpack_of_empty {s : State} (h : s.inLen = 0#32) (hft : presentSymbols s.ft = []) :
    exec .unpack s = .next ({ s with node := [], root := 0#16 }.failed .truncatedStream) := by
  rw [missingTrailerIsTruncatedStream.1 s h, buildTree, buildArena_of_empty hft]
  rfl

/-- COMPRESS of the empty operand in one case split on the room in OUT (R168). -/
theorem exec_compress_of_empty {s : State} (h : s.inLen = 0#32) :
    exec .compress s = .next { (if 4 ≤ s.params.outCap.toNat then
        { s.succeeded [0x01#8, 0x00#8, 0x00#8, 0x00#8] 0#8 with status := 0x04#8 }
      else s.failed .ioFailure) with ft := [], node := [], root := 0#16, ct := [] } := by
  obtain ⟨fits, full⟩ := compressOfEmptyInput s h
  split
  · next hcap => exact fits hcap
  · next hcap => exact full (Nat.not_le.1 hcap)

/-- Settles O15: the operand is empty, and the empty tables of the result are those of the reset state. -/
theorem commandsRightAfterReset : Obligations.CommandsRightAfterReset := by
  intro p s
  have absent : rootPresent 0#16 = false := by decide
  refine ⟨arenaInv_empty, exec_fcount_of_written (x := []) rfl, exec_build_of_empty presentSymbols_nil,
    exec_derive_of_absent absent, exec_pack_of_nil rfl, exec_unpack_of_empty rfl presentSymbols_nil, ?_,
    exec_decompress_of_malformed rfl, clearReturnsToReset s⟩
  rw [exec_compress_of_empty rfl]
  split <;> rfl

end Sys2Proof.Machine
end

section
/-! The tree as BUILD makes it and DERIVE reads it (`41_tree_builder.md` rule R100, `42_code_deriver.md` rule R124): the
arena meets R32, and in an arena that does a code is the path to its leaf, which no other leaf lies on. -/

namespace Sys2Proof.Machine

/-- Settles O19: the arena is the final state of the merge loop, and no merge writes a leaf. -/
theorem buildMakesTheArena : Obligations.BuildMakesTheArena := by
  intro s
  obtain ⟨q, next, h⟩ := buildReaches_buildArena s.ft
  refine ⟨_, _, exec_build s, arenaInv_buildArena s.ft, fun sym hs => ⟨?_, h.toNat_freq_of_lt hs⟩⟩
  rw [h.valid_iff, mem_seedArena_iff hs]
  exact or_iff_left (by omega)

/-! ## The path of a code -/

section
variable {node : List (Nat × Node)} {root : BitVec 16}

/-- The walk along a path ends where the path leads (R150). -/
theorem PathTo.walkPath_eq {r k : NodeIdx} {p : Bits} (hp : PathTo node r p k) : walkPath node r p = k := by
  induction hp with
  | start => rfl
  | move _ _ b ih =>
    rw [← ih]
    exact List.foldl_append

/-- A code of any index is the path to the leaf of a symbol (R121). -/
theorem exists_pathTo_of_codeOf (h : ArenaInv node root) {sym : Nat} {c : Bits}
    (hc : codeOf (codesOf node root) sym = some c) :
    ∃ v : Byte, v.toNat = sym ∧ rootPresent root = true ∧ PathTo node (rootIdx root) c (v.setWidth 9) := by
  obtain ⟨-, -, v, rfl, -⟩ := (codeOf_codesOf_iff h sym c).1 hc
  exact ⟨v, rfl, (codeOf_codesOf_iff_pathTo h v c).1 hc⟩

/-- The walk along a code ends at the leaf of its symbol (R150). -/
theorem walkPath_of_codeOf (h : ArenaInv node root) {sym : Nat} {c : Bits}
    (hc : codeOf (codesOf node root) sym = some c) :
    (walkPath node (rootIdx root) c).toNat = sym ∧ (nodeGet node sym).kind = .leaf := by
  obtain ⟨v, rfl, -, path⟩ := exists_pathTo_of_codeOf h hc
  rw [path.walkPath_eq]
  exact ⟨by bv_omega, h.kind_leaf_of_lt (v.isLt.trans (by decide))⟩

/-- The walk along a part of a code is at an internal node (R150). -/
theorem kind_walkPath_of_isPrefix (h : ArenaInv node root) {sym : Nat} {c q : Bits}
    (hc : codeOf (codesOf node root) sym = some c) (hq : q <+: c) (hne : q ≠ c) :
    (nodeGet node (walkPath node (rootIdx root) q).toNat).kind = .internal := by
  obtain ⟨v, -, -, path⟩ := exists_pathTo_of_codeOf h hc
  obtain ⟨j, part, internal⟩ := path.exists_internal_of_isPrefix hq hne
  rwa [part.walkPath_eq]

/-- In an arena that meets R32 no code begins another (R124 item 2): a code ends at a leaf, a part of a code does
not. -/
theorem prefixFree_codesOf (h : ArenaInv node root) : PrefixFree (codesOf node root) := by
  intro a b p q hab hp hq hpre
  obtain ⟨ha, leaf⟩ := walkPath_of_codeOf h hp
  by_cases e : p = q
  · subst e
    exact hab (ha.symm.trans (walkPath_of_codeOf h hq).1)
  · have internal := kind_walkPath_of_isPrefix h hq hpre e
    rw [ha, leaf] at internal
    cases internal

end

/-- DERIVE makes the codes of the arena (R121). -/
theorem ct_of_exec_derive {s t : State} (h : exec .derive s = .next t) : t.ct = codesOf s.node s.root := by
  cases (exec_derive s).symm.trans h
  rfl

/-- Settles O28: the codes are those of an arena that meets R32. -/
theorem derivedCodesArePrefixFree : Obligations.DerivedCodesArePrefixFree := by
  intro s t h ht
  rw [ct_of_exec_derive ht]
  exact prefixFree_codesOf h

/-- Settles O30: a code leads to its leaf, and a part of it to an internal node. -/
theorem codeWalkEndsAtItsLeaf : Obligations.CodeWalkEndsAtItsLeaf := by
  intro s t sym c h ht hc
  rw [ct_of_exec_derive ht] at hc
  obtain ⟨ends, leaf⟩ := walkPath_of_codeOf h hc
  exact ⟨ends, leaf, fun p => kind_walkPath_of_isPrefix h hc⟩

/-! ## The Kraft sum -/

/-- No leaf is listed twice among the codes of a tree: the edges above it tell the paths apart (R77). -/
theorem HuffTree.codes_nodup (tr : HuffTree) : tr.codes.Nodup := by
  induction tr with
  | leaf s f => cases s <;> simp [codes]
  | internal f l r ihl ihr =>
    have behind : ∀ b : Bool, Function.Injective fun e : Byte × Bits => (e.1, b :: e.2) := fun b e e' h => by
      simpa [Prod.ext_iff] using h
    refine List.nodup_append.2 ⟨ihl.map (behind false), ihr.map (behind true), fun e he e' he' => ?_⟩
    obtain ⟨-, -, rfl⟩ := List.mem_map.1 he
    obtain ⟨-, -, rfl⟩ := List.mem_map.1 he'
    simp

/-- The Kraft sum of a list of codes, scaled by `2^n` (R124 item 4). -/
def kraftSum (n : Nat) (l : List (Byte × Bits)) : Nat := (l.map fun e => 2 ^ (n - e.2.length)).sum

/-- The codes of an internal node are one bit longer than those of its children, and so weigh half as much. -/
theorem kraftSum_codes_internal (n f : Nat) (l r : HuffTree) :
    kraftSum (n + 1) (HuffTree.internal f l r).codes = kraftSum n l.codes + kraftSum n r.codes := by
  simp [kraftSum, HuffTree.codes, Function.comp_def]

theorem kraftSum_treeAt_of_leaf {node : List (Nat × Node)} {k : Nat} (h : (nodeGet node k).kind = .leaf)
    (n fuel : Nat) : kraftSum n (treeAt node fuel k).codes = if k ≤ 255 then 2 ^ n else 0 := by
  rw [treeAt_of_leaf h]
  split <;> simp [kraftSum, HuffTree.codes]

/-- The sum over the symbols is the sum over the codes recorded, when the table holds just these. -/
theorem sum_kraftTerm_eq {ct : List (Nat × CodeEntry)} {l : List (Byte × Bits)} (nodup : l.Nodup)
    (h : ∀ sym c, codeOf ct sym = some c ↔ ∃ s : Byte, s.toNat = sym ∧ (s, c) ∈ l) :
    ((List.range 256).map fun sym => kraftTerm (codeOf ct sym)).sum = kraftSum 255 l := by
  have term : ∀ sym, kraftTerm (codeOf ct sym) =
      ∑ e ∈ l.toFinset with e.1.toNat = sym, 2 ^ (255 - e.2.length) := by
    intro sym
    cases hc : codeOf ct sym with
    | none =>
      refine (Finset.sum_eq_zero fun e he => ?_).symm
      obtain ⟨hm, hs⟩ := Finset.mem_filter.1 he
      have := (h sym e.2).2 ⟨e.1, hs, List.mem_toFinset.1 hm⟩
      simp [hc] at this
    | some c =>
      obtain ⟨s, hs, hm⟩ := (h sym c).1 hc
      have only : l.toFinset.filter (fun e => e.1.toNat = sym) = {(s, c)} := by
        ext ⟨s', c'⟩
        rw [Finset.mem_filter, List.mem_toFinset, Finset.mem_singleton]
        constructor
        · rintro ⟨hm', hs'⟩
          have hc' := (h sym c').2 ⟨s', hs', hm'⟩
          obtain rfl : s' = s := BitVec.eq_of_toNat_eq (hs'.trans hs.symm)
          obtain rfl : c = c' := Option.some.inj (hc.symm.trans hc')
          rfl
        · rintro ⟨⟩
          exact ⟨hm, hs⟩
      rw [only, Finset.sum_singleton]
      rfl
  have below : ∀ e ∈ l.toFinset, e.1.toNat ∈ Finset.range 256 := fun e _ => Finset.mem_range.2 e.1.isLt
  calc ((List.range 256).map fun sym => kraftTerm (codeOf ct sym)).sum
    _ = ∑ sym ∈ Finset.range 256, kraftTerm (codeOf ct sym) := rfl
    _ = ∑ sym ∈ Finset.range 256, ∑ e ∈ l.toFinset with e.1.toNat = sym, 2 ^ (255 - e.2.length) :=
      Finset.sum_congr rfl fun sym _ => term sym
    _ = ∑ e ∈ l.toFinset, 2 ^ (255 - e.2.length) := Finset.sum_fiberwise_of_maps_to below _
    _ = kraftSum 255 l := List.sum_toFinset _ nodup

section
variable {node : List (Nat × Node)} {root : BitVec 16}

/-- The Kraft sum is 1 when every leaf is a symbol: it is halved on both sides of each internal node (R124 item 4). -/
theorem ArenaInv.kraftSum_treeAt (h : ArenaInv node root) (noSynth : (nodeGet node 256).valid = false) {n : Nat}
    {k : NodeIdx} (hv : (nodeGet node k.toNat).valid = true) (hk : k.toNat ≤ 256 + n) :
    kraftSum n (treeAt node n k.toNat).codes = 2 ^ n := by
  induction n generalizing k with
  | zero =>
    have hne : k.toNat ≠ 256 := fun e => by simp [e, noSynth] at hv
    rw [kraftSum_treeAt_of_leaf (h.kind_leaf_of_lt (by omega)), if_pos (by omega)]
  | succ n ih =>
    cases hkind : (nodeGet node k.toNat).kind with
    | leaf =>
      have hne : k.toNat ≠ 256 := fun e => by simp [e, noSynth] at hv
      have hlt : k.toNat < 257 := by
        by_contra hge
        simp [(h.children _ (Nat.le_of_not_lt hge) hv).1] at hkind
      rw [kraftSum_treeAt_of_leaf hkind, if_pos (by omega)]
    | internal =>
      obtain ⟨left, leftValid⟩ := h.walkMove_lt hkind false
      obtain ⟨right, rightValid⟩ := h.walkMove_lt hkind true
      rw [treeAt_of_internal hkind, kraftSum_codes_internal]
      change kraftSum n (treeAt node n (walkMove node k false).toNat).codes +
        kraftSum n (treeAt node n (walkMove node k true).toNat).codes = _
      rw [ih leftValid (by omega), ih rightValid (by omega), pow_succ]
      omega

/-- With the synthetic leaf there are two leaves (R32 items 2 and 5). -/
theorem ArenaInv.leafTotal_of_synth (h : ArenaInv node root) (synth : (nodeGet node 256).valid = true) :
    leafTotal node = 2 := by
  have one := h.synthetic.1 synth
  rw [Config.nSym] at one
  rw [leafTotal, Config.intBase, List.range_succ, List.filter_append, List.length_append, one]
  simp [synth]

/-- With the synthetic leaf the root has it and the lone symbol as its children (R32 items 2, 3 and 5). -/
theorem ArenaInv.children_root_of_synth (h : ArenaInv node root) (present : rootPresent root = true)
    (synth : (nodeGet node 256).valid = true) :
    ((nodeGet node (rootIdx root).toNat).left.toNat < 256 ∧ (nodeGet node (rootIdx root).toNat).right.toNat = 256) ∨
      ((nodeGet node (rootIdx root).toNat).left.toNat = 256 ∧ (nodeGet node (rootIdx root).toNat).right.toNat < 256) := by
  have root257 : (rootIdx root).toNat = 257 := by rw [(h.twoLeaves present).2, h.leafTotal_of_synth synth]
  have valid := (h.valid_of_internal (h.kind_root present)).2
  obtain ⟨-, left, right, hne, leftValid, rightValid, -⟩ := h.children _ (root257 ▸ le_rfl) valid
  have differ := mt BitVec.eq_of_toNat_eq hne
  obtain ⟨sym, hsym⟩ := List.length_eq_one_iff.1 (h.synthetic.1 synth)
  have only : ∀ k, k < 256 → (nodeGet node k).valid = true → k = sym := fun k hk hv => by
    have hm : k ∈ (List.range Config.nSym).filter fun k => (nodeGet node k).valid :=
      List.mem_filter.2 ⟨List.mem_range.2 hk, hv⟩
    simpa [hsym] using hm
  by_contra hno
  exact differ ((only _ (by omega) leftValid).trans (only _ (by omega) rightValid).symm)

/-- With the synthetic leaf the Kraft sum is 1/2: it takes the place of one of the two codes of one bit (R124 item 4). -/
theorem ArenaInv.kraftSum_of_synth (h : ArenaInv node root) (present : rootPresent root = true)
    (synth : (nodeGet node 256).valid = true) :
    kraftSum 255 (treeAt node Config.codeMax (rootIdx root).toNat).codes = 2 ^ 254 := by
  rw [treeAt_codeMax_of_internal (h.kind_root present), kraftSum_codes_internal]
  rcases h.children_root_of_synth present synth with ⟨hl, hr⟩ | ⟨hl, hr⟩
  · rw [kraftSum_treeAt_of_leaf (h.kind_leaf_of_lt (by omega)), kraftSum_treeAt_of_leaf (h.kind_leaf_of_lt (by omega)),
      if_pos (by omega), if_neg (by omega), Nat.add_zero]
  · rw [kraftSum_treeAt_of_leaf (h.kind_leaf_of_lt (by omega)), kraftSum_treeAt_of_leaf (h.kind_leaf_of_lt (by omega)),
      if_neg (by omega), if_pos (by omega), Nat.zero_add]

end

/-- Settles O29: the sum over the symbols is the sum over the codes of the tree, halved at each internal node. -/
theorem derivedCodesKraftSum : Obligations.DerivedCodesKraftSum := by
  intro s t h present ht
  have recorded : ∀ sym c, codeOf (codesOf s.node s.root) sym = some c ↔
      ∃ v : Byte, v.toNat = sym ∧ (v, c) ∈ (treeAt s.node Config.codeMax (rootIdx s.root).toNat).codes := by
    intro sym c
    rw [codeOf_codesOf_iff h]
    simp [treeValue, present]
  rw [ct_of_exec_derive ht, sum_kraftTerm_eq (HuffTree.codes_nodup _) recorded]
  split
  · next synth => exact h.kraftSum_of_synth present synth
  · next noSynth =>
    have bound : (rootIdx s.root).toNat ≤ 256 + 255 := by
      have := (rootIdx s.root).isLt
      omega
    exact h.kraftSum_treeAt (Bool.eq_false_iff.2 noSynth) (h.valid_of_internal (h.kind_root present)).2 bound

end Sys2Proof.Machine
end

section
/-! The bit length of a PACK (`43_bit_packer.md` rule R137), the failing ends of the decoder inside and after a code
(`44_bit_unpacker.md`, rules R149 to R154), and DECOMPRESS as the inverse of COMPRESS (`45_composite_and_system.md`, rules
R172 and R178). -/

namespace Sys2Proof.Machine

/-! ## PACK -/

/-- Settles O33: a PACK that ends well has made the packed bytes, whose length is known. -/
theorem packBitLengthLaw : Obligations.PackBitLengthLaw := by
  intro s t x h ht hok
  obtain ⟨-, -, -, success⟩ := packFailsInInputOrder s
  obtain ⟨-, room⟩ := (success x t h ht).1 hok
  cases exec_pack_of_success h ht hok
  have cap := s.params.outCap.isLt
  have outLen : (s.succeeded (packed s.ct x) (trailer (codeString s.ct x))).outLen.toNat =
      ((codeString s.ct x).length + 7) / 8 + 1 := by
    change (BitVec.ofNat 32 (packed s.ct x).length).toNat = _
    rw [packed_length, BitVec.toNat_ofNat, Nat.mod_eq_of_lt (by omega)]
  have pad : (s.succeeded (packed s.ct x) (trailer (codeString s.ct x))).pad.toNat = padOf (codeString s.ct x).length :=
    toNat_trailer _
  have bits := codeString_length s.ct x
  rw [outLen, pad]
  refine ⟨by omega, padOf_le _, ?_⟩
  simp only [State.ctAt, ← bits]
  unfold padOf
  omega

/-! ## UNPACK -/

/-- Settles O38: the walk ends at an internal node other than the root. -/
theorem bitsEndingMidPathAreTruncated : Obligations.BitsEndingMidPathAreTruncated := by
  intro s x pl p sym c q h h7 hp hx hc hpre hne hq hbits hfit
  have inv := arenaInv_buildArena s.ft
  obtain ⟨v, -, present, path⟩ := exists_pathTo_of_codeOf inv hc
  obtain ⟨k, part, internal⟩ := path.exists_internal_of_isPrefix hpre hne
  have notRoot : k ≠ rootIdx (rootOf (buildArena s.ft).2) := by
    rintro rfl
    exact hq (part.unique inv .start)
  have walk := part.walkBits_of_internal present internal s.params.outCap.toNat [] x
  rw [List.append_nil] at walk
  refine exec_unpack_of_raise (by decide) ?_
  rw [unpackRes_of_codeString h h7 hp (allCoded_tableCodes hx) hbits hfit, walk]
  simp [walkBits, notRoot]

/-- Settles O39: the walk along the codes of `x` is one `emitAll` of `x`, which stops at the capacity. -/
theorem decodedSequenceTooLongIsIOFailure : Obligations.DecodedSequenceTooLongIsIOFailure := by
  intro s x pl p rest h h7 hp hx hbits hfull
  refine exec_unpack_of_raise (by decide) ?_
  rw [unpackRes, h, unpackBits_of_legal_trailer _ _ _ h7 hp, hbits, List.map_append, tableCodes,
    (arenaInv_buildArena s.ft).walkBits_codeString _ (allCoded_tableCodes hx),
    emitAll_of_lt _ (Nat.zero_le _) (by simpa using hfull), Res.bind_raise, Res.bind_raise]

/-- The outcome of UNPACK is that of its decoder (R145): on a state with another IN but the same outcome of the decoder
it is the same but for IN. -/
theorem exec_unpack_congr {s t : State} {m : List Host.Cell} (hres : unpackRes { s with inMem := m } = unpackRes s)
    (ht : exec .unpack s = .next t) : exec .unpack { s with inMem := m } = .next { t with inMem := m } := by
  cases hr : unpackRes s with
  | ok r =>
    cases (exec_unpack_of_ok hr).symm.trans ht
    exact exec_unpack_of_ok (hres.trans hr)
  | raise k =>
    have hk : k ≠ .illegalCommand := by
      rintro rfl
      exact unpackBits_ne_raise_illegalCommand hr
    cases (exec_unpack_of_raise hk hr).symm.trans ht
    exact exec_unpack_of_raise hk (hres.trans hr)
  | refuse r => cases (exec_unpack_eq_refused_iff.2 hr).symm.trans ht

/-- Settles O40: the two operands are equally long, so a bad trailer is bad in both, and a legal one leaves the same
bits. -/
theorem paddingBitsAreNotExamined : Obligations.PaddingBitsAreNotExamined := by
  intro s t m pl pl' p h h' hbits ht
  refine exec_unpack_congr ?_ ht
  have len : pl'.length = pl.length := by
    have e := (length_eq_of_input h').trans (length_eq_of_input h).symm
    simpa using e
  rw [len] at hbits
  rw [unpackRes, unpackRes, h, h']
  by_cases legal : p.toNat ≤ 7 ∧ p.toNat ≤ 8 * pl.length
  · obtain ⟨h7, hp⟩ := legal
    rw [unpackBits_of_legal_trailer _ _ _ h7 hp, unpackBits_of_legal_trailer _ _ _ h7 (len ▸ hp), hbits, len]
  · simp only [List.map_append, List.map_singleton, unpackBits_append, List.length_map, len]
    rw [if_pos (by omega), if_pos (by omega)]

/-! ## DECOMPRESS -/

/-- The decoder, under the tree of a table, of the bits that are the codes of a sequence that fits OUT (R149). -/
theorem unpackBits_of_codeString {cap : Nat} {ft : List (Nat × Count)} {x pl : List Byte} {p : Byte} (h7 : p.toNat ≤ 7)
    (hp : p.toNat ≤ 8 * pl.length) (hx : AllPresent ft x)
    (hbits : (pl.flatMap bits8).take (8 * pl.length - p.toNat) = codeString (tableCodes ft) x) (hfit : x.length ≤ cap) :
    unpackBits cap (buildArena ft).1 (rootOf (buildArena ft).2) ((pl ++ [p]).map some) = .ok (p, x) := by
  have walk := (arenaInv_buildArena ft).walkBits_codeString cap (allCoded_tableCodes hx) [] []
  rw [List.append_nil, emitAll_of_le _ (by simpa using hfit), Res.bind_ok, List.nil_append] at walk
  rw [unpackBits_of_legal_trailer _ _ _ h7 hp, hbits, tableCodes, walk]
  simp [walkBits]

/-- The decoder as DECOMPRESS runs it once the header gave the table `ft` and its own length `h` (R172). -/
def decodeRes (s : State) (ft : List (Nat × Count)) (h : Nat) : Res (Byte × List Byte) :=
  unpackBits s.params.outCap.toNat (buildArena ft).1 (rootOf (buildArena ft).2) (s.input.drop h)

/-- The body of DECOMPRESS once the header is read (R172, R174). -/
theorem decompressBody_of_parsed {s : State} {ft : List (Nat × Count)} {h : Nat}
    (parsed : parseHeader s.input = .ok (ft, h)) :
    decompressBody s =
      Body.ofRes (buildTree { s with ft := ft }) (decodeRes s ft h) fun r =>
        setResult r.2 r.1 (buildTree { s with ft := ft }) := by
  rw [decompressBody, parsed]
  rfl

/-- DECOMPRESS when the decoder gives a value, whole (R172). -/
theorem exec_decompress_of_ok {s : State} {ft : List (Nat × Count)} {h : Nat} {p : Byte} {out : List Byte}
    (parsed : parseHeader s.input = .ok (ft, h)) (hr : decodeRes s ft h = .ok (p, out)) :
    exec .decompress s = .next ((buildTree { s with ft := ft }).succeeded out p) := by
  have body := decompressBody_of_parsed (s := beginCommand s) parsed
  rw [show decodeRes (beginCommand s) ft h = .ok (p, out) from hr, Body.ofRes_ok] at body
  rw [exec_decompress, runFrame_of_done body, endCommand_setResult rfl rfl]
  rfl

/-- DECOMPRESS when the decoder raises, whole (R200, R201). -/
theorem exec_decompress_of_raise {s : State} {ft : List (Nat × Count)} {h : Nat} {k : FailKind}
    (parsed : parseHeader s.input = .ok (ft, h)) (hr : decodeRes s ft h = .raise k) :
    exec .decompress s = .next ((buildTree { s with ft := ft }).failed k) := by
  have hk : k ≠ .illegalCommand := by
    rintro rfl
    exact unpackBits_ne_raise_illegalCommand hr
  have body := decompressBody_of_parsed (s := beginCommand s) parsed
  rw [show decodeRes (beginCommand s) ft h = .raise k from hr, Body.ofRes_raise] at body
  rw [exec_decompress, runFrame_of_raise body, endCommand_takeFailure hk rfl]
  rfl

/-- DECOMPRESS when the decoder reads an unwritten byte (R226). -/
theorem exec_decompress_of_decoder_refuse {s : State} {ft : List (Nat × Count)} {h : Nat} {r : Refusal}
    (parsed : parseHeader s.input = .ok (ft, h)) (hr : decodeRes s ft h = .refuse r) :
    exec .decompress s = .refused r := by
  have body := decompressBody_of_parsed (s := beginCommand s) parsed
  rw [show decodeRes (beginCommand s) ft h = .refuse r from hr, Body.ofRes_refuse] at body
  rw [exec_decompress, runFrame_of_refuse body]

/-- Settles O49: the header gives the table, and the decoder the sequence. -/
theorem decompressDecodesTheStream : Obligations.DecompressDecodesTheStream := by
  intro s ft x pl p hft h h7 hp hx hbits hfit
  rw [List.map_append] at h
  have rest : s.input.drop (header ft).length = (pl ++ [p]).map some := by simp [h]
  refine exec_decompress_of_ok (h ▸ parseHeader_of_header hft _) ?_
  rw [decodeRes, rest]
  exact unpackBits_of_codeString h7 hp hx hbits hfit

/-- Settles O51: a COMPRESS that ends well has made the stream of `x`, whose table is the count of `x` and whose payload
holds the codes of `x`. -/
theorem decompressInvertsCompress : Obligations.DecompressInvertsCompress := by
  intro s t u x y h ht hok hout hu hfit
  rcases exec_compress_cases h ht with ⟨-, rfl⟩ | rfl
  · obtain rfl : stream (countBytes x) x = y := Memory.ofBytes_injective hout
    have bound := eight_mul_payload_length (codeString (tableCodes (countBytes x)) x)
    refine decompressDecodesTheStream u (countBytes x) x _ (trailer _) (countBytes_wf x) hu ?_ ?_
      (allPresent_countBytes (length_lt_of_input h)) (take_flatMap_bits8_payload _) hfit
    · rw [toNat_trailer]
      exact padOf_le _
    · rw [toNat_trailer]
      omega
  · rw [errBit_compressOverflowed] at hok
    cases hok

end Sys2Proof.Machine
end

section
/-! How a command ends (`45_composite_and_system.md` rule R177): one case per command that ends well, and the failing ends
of R201. The frame of each command (`20_memory.md` rule R45) and the EmptyInput notice follow from it. -/

namespace Sys2Proof.Machine

/-! ## The procedures that end well -/

theorem readByte_eq_ok_iff {b : Option Byte} {v : Byte} : readByte b = .ok v ↔ b = some v := by
  cases b <;> simp

/-- A loop of `pack_bits` that ends well has read its whole operand (U1). -/
theorem exists_input_of_packLoop {cap : Nat} {ct : List (Nat × CodeEntry)} {input : List (Option Byte)} {buf : Bits}
    {out : List Byte} {r : Bits × List Byte} (h : packLoop cap ct input buf out = .ok r) :
    ∃ x : List Byte, input = x.map some := by
  induction input generalizing buf out with
  | nil => exact ⟨[], rfl⟩
  | cons b rest ih =>
    obtain ⟨v, hv, h⟩ := Res.bind_eq_ok_iff.1 h
    obtain ⟨-, h⟩ := Res.ite_raise_eq_ok_iff.1 h
    obtain ⟨d, -, h⟩ := Res.bind_eq_ok_iff.1 h
    obtain ⟨x, rfl⟩ := ih h
    exact ⟨v :: x, by rw [readByte_eq_ok_iff.1 hv, List.map_cons]⟩

/-- A PACK that ends well has read its whole operand (U1). -/
theorem exists_input_of_exec_pack {s t : State} (ht : exec .pack s = .next t) (hok : errBit t.status = false) :
    ∃ x : List Byte, s.input = x.map some := by
  rcases runFrame_next_cases ((exec_pack s).symm.trans ht) with ⟨u, hu, rfl⟩ | ⟨k, u, -, rfl⟩
  · obtain ⟨r, hr, -⟩ := Body.exists_ok_of_ofRes_done hu
    obtain ⟨l, hl, -⟩ := Res.bind_eq_ok_iff.1 hr
    exact exists_input_of_packLoop hl
  · rw [errBit_endCommand_takeFailure] at hok
    cases hok

/-- The bytes decoded fit OUT (R153). -/
theorem length_le_of_walkBits {cap : Nat} {node : List (Nat × Node)} {root : BitVec 16} {bits : List (Option Bool)}
    {cur : NodeIdx} {out : List Byte} {r : NodeIdx × List Byte} (h : walkBits cap node root bits cur out = .ok r)
    (hout : out.length ≤ cap) : r.2.length ≤ cap := by
  induction bits generalizing cur out with
  | nil => cases h; exact hout
  | cons b bits ih =>
    cases b with
    | none => cases h
    | some b =>
      rw [walkBits] at h
      obtain ⟨-, h⟩ := Res.ite_raise_eq_ok_iff.1 h
      split at h
      · exact ih h hout
      · obtain ⟨-, h⟩ := Res.ite_raise_eq_ok_iff.1 h
        obtain ⟨o, ho, h⟩ := Res.bind_eq_ok_iff.1 h
        obtain ⟨hne, rfl⟩ := emit_eq_ok_iff.1 ho
        exact ih h (by simp; omega)

/-- A decoder that ends well gives a legal trailer and bytes that fit OUT (R148, R153). -/
theorem bounds_of_unpackBits {cap : Nat} {node : List (Nat × Node)} {root : BitVec 16} {operand : List (Option Byte)}
    {p : Byte} {out : List Byte} (h : unpackBits cap node root operand = .ok (p, out)) :
    out.length ≤ cap ∧ p.toNat ≤ 7 := by
  rw [unpackBits] at h
  split at h
  · cases h
  · obtain ⟨q, -, h⟩ := Res.bind_eq_ok_iff.1 h
    obtain ⟨legal, h⟩ := Res.ite_raise_eq_ok_iff.1 h
    obtain ⟨r, hr, h⟩ := Res.bind_eq_ok_iff.1 h
    split at h
    · cases h
      exact ⟨length_le_of_walkBits hr (Nat.zero_le _), by omega⟩
    · cases h

/-! ## The end of a command -/

/-- The states in which a command ends from state `s` (R177): the results of the command, or a failure of R201. -/
inductive CommandEnd (s : State) : Instr → State → Prop
  | failed {i : Instr} {t : State} (h : FailureEnd s i t) : CommandEnd s i t
  | fcount {x : List Byte} (h : s.input = x.map some) :
      CommandEnd s .fcount
        { s with ft := countBytes x, status := if s.inLen = 0#32 then 0x04#8 else 0x00#8, errcode := 0#8 }
  | build : CommandEnd s .build { buildTree s with status := 0x00#8, errcode := 0#8 }
  | derive : CommandEnd s .derive { deriveCodes s with status := 0x00#8, errcode := 0#8 }
  | pack {out : List Byte} {p : Byte} (fits : out.length ≤ s.params.outCap.toNat) (hp : p.toNat ≤ 7) :
      CommandEnd s .pack (s.succeeded out p)
  | unpack {out : List Byte} {p : Byte} (fits : out.length ≤ s.params.outCap.toNat) (hp : p.toNat ≤ 7) :
      CommandEnd s .unpack ((buildTree s).succeeded out p)
  | compress {x : List Byte} (h : s.input = x.map some)
      (fits : (stream (countBytes x) x).length ≤ s.params.outCap.toNat) : CommandEnd s .compress (compressed s x)
  | decompress {ft : List (Nat × Count)} {h : Nat} {out : List Byte} {p : Byte}
      (parsed : parseHeader s.input = .ok (ft, h)) (fits : out.length ≤ s.params.outCap.toNat) (hp : p.toNat ≤ 7) :
      CommandEnd s .decompress ((buildTree { s with ft := ft }).succeeded out p)
  | clear : CommandEnd s .clear { clearBody s with status := 0x00#8, errcode := 0#8 }

section
variable {s t : State}

theorem commandEnd_of_exec_fcount (ht : exec .fcount s = .next t) : CommandEnd s .fcount t := by
  obtain ⟨x, h⟩ := exists_input_of_exec_fcount ht
  cases (exec_fcount_of_written h).symm.trans ht
  exact .fcount h

theorem toNat_trailer_le (b : Bits) : (trailer b).toNat ≤ 7 := toNat_trailer b ▸ padOf_le _

theorem commandEnd_of_exec_pack (ht : exec .pack s = .next t) (hok : errBit t.status = false) :
    CommandEnd s .pack t := by
  obtain ⟨x, h⟩ := exists_input_of_exec_pack ht hok
  obtain ⟨-, -, -, success⟩ := packFailsInInputOrder s
  obtain ⟨-, room⟩ := (success x t h ht).1 hok
  cases exec_pack_of_success h ht hok
  exact .pack (packed_length _ _ ▸ room) (toNat_trailer_le _)

theorem commandEnd_of_exec_unpack (ht : exec .unpack s = .next t) (hok : errBit t.status = false) :
    CommandEnd s .unpack t := by
  rcases runFrame_next_cases ((exec_unpack s).symm.trans ht) with ⟨u, hu, rfl⟩ | ⟨k, u, -, rfl⟩
  · obtain ⟨⟨p, out⟩, hr, rfl⟩ := Body.exists_ok_of_ofRes_done hu
    obtain ⟨fits, hp⟩ := bounds_of_unpackBits hr
    rw [endCommand_setResult rfl rfl]
    exact .unpack fits hp
  · rw [errBit_endCommand_takeFailure] at hok
    cases hok

theorem commandEnd_of_exec_compress (ht : exec .compress s = .next t) : CommandEnd s .compress t := by
  obtain ⟨x, h⟩ := exists_input_of_exec_compress ht
  rcases exec_compress_cases h ht with ⟨fits, rfl⟩ | rfl
  · exact .compress h fits
  · exact .failed (.compress h)

theorem commandEnd_of_exec_decompress (ht : exec .decompress s = .next t) (hok : errBit t.status = false) :
    CommandEnd s .decompress t := by
  rcases runFrame_next_cases ((exec_decompress s).symm.trans ht) with ⟨u, hu, rfl⟩ | ⟨k, u, -, rfl⟩
  · cases parsed : parseHeader s.input with
    | ok r =>
      obtain ⟨ft, h⟩ := r
      rw [decompressBody_of_parsed (s := beginCommand s) parsed] at hu
      obtain ⟨⟨p, out⟩, hr, rfl⟩ := Body.exists_ok_of_ofRes_done hu
      obtain ⟨fits, hp⟩ := bounds_of_unpackBits hr
      rw [endCommand_setResult rfl rfl]
      exact .decompress parsed fits hp
    | raise k => rw [decompressBody, beginCommand_input, parsed] at hu; cases hu
    | refuse r => rw [decompressBody, beginCommand_input, parsed] at hu; cases hu
  · rw [errBit_endCommand_takeFailure] at hok
    cases hok

/-- Everything a command can do when it answers a next state. -/
theorem commandEnd_of_exec {i : Instr} (ht : exec i s = .next t) : CommandEnd s i t := by
  by_cases herr : errBit t.status = true
  · exact .failed (failureEnd_of_exec ht herr)
  have hok := Bool.eq_false_iff.2 herr
  cases i with
  | fcount => exact commandEnd_of_exec_fcount ht
  | build => cases (exec_build s).symm.trans ht; exact .build
  | derive => cases (exec_derive s).symm.trans ht; exact .derive
  | pack => exact commandEnd_of_exec_pack ht hok
  | unpack => exact commandEnd_of_exec_unpack ht hok
  | compress => exact commandEnd_of_exec_compress ht
  | decompress => exact commandEnd_of_exec_decompress ht hok
  | clear => cases (clearReturnsToReset s).symm.trans ht; exact .clear

end

/-- Settles O52, end by end. -/
theorem commandsWriteOnlyTheirState : Obligations.CommandsWriteOnlyTheirState := by
  intro i s t ht
  cases commandEnd_of_exec ht with
  | failed h => cases h <;> simp [State.failed, compressOverflowed]
  | fcount | build | derive | clear => simp
  | pack | unpack | compress | decompress => simp [State.succeeded, compressed]

/-! ## The EmptyInput notice -/

/-- A failing command gives no notice (R12, R200). -/
theorem FailureEnd.status {s t : State} {i : Instr} (h : FailureEnd s i t) : t.status = 0x02#8 := by
  cases h <;> rfl

/-- The STATUS of an FCOUNT or COMPRESS that ends well tells an empty input (R92, R168). -/
theorem emptyBit_notice (c : Prop) [Decidable c] :
    (emptyBit (if c then 0x04#8 else 0x00#8) = true ↔ c) ∧ errBit (if c then 0x04#8 else 0x00#8) = false := by
  by_cases hc : c
  · simp only [hc, if_true, iff_true]
    decide
  · simp only [hc, if_false, iff_false]
    decide

/-- Settles O54: the two commands that give the notice end with it or with STATUS 0x00, every other success with STATUS
0x00, and a failure with STATUS 0x02. -/
theorem emptyNoticeOnlyFromCountAndCompress : Obligations.EmptyNoticeOnlyFromCountAndCompress := by
  intro i s t ht
  have silent : emptyBit 0x00#8 = false ∧ emptyBit 0x02#8 = false ∧ errBit 0x02#8 = true := by decide
  obtain ⟨success, failure, err⟩ := silent
  obtain ⟨notice, noErr⟩ := emptyBit_notice (s.inLen = 0#32)
  cases commandEnd_of_exec ht with
  | failed h => simp [h.status, failure, err]
  | fcount => simp [notice, noErr]
  | compress => simp [compressed, notice, noErr]
  | build | derive | clear => simp [success]
  | pack | unpack | decompress => simp [success]

/-! ## The old tables -/

/-- Two COMPRESS commands on the same operand with the same capacities end alike (R28). -/
theorem compress_ignores_old_tables {s s' t t' : State} (hp : s.params = s'.params) (hl : s.inLen = s'.inLen)
    (hm : s.inMem = s'.inMem) (ht : exec .compress s = .next t) (ht' : exec .compress s' = .next t') :
    t.ft = t'.ft ∧ t.node = t'.node ∧ t.root = t'.root ∧ t.ct = t'.ct ∧ t.outMem = t'.outMem ∧ t.outLen = t'.outLen ∧
      t.pad = t'.pad ∧ t.status = t'.status ∧ t.errcode = t'.errcode := by
  obtain ⟨x, h⟩ := exists_input_of_exec_compress ht
  have h' : s'.input = x.map some := input_congr hl hm ▸ h
  rcases le_or_gt (stream (countBytes x) x).length s.params.outCap.toNat with fits | full
  · cases (exec_compress_of_fits h fits).symm.trans ht
    cases (exec_compress_of_fits h' (hp ▸ fits)).symm.trans ht'
    simp [compressed, State.succeeded, hl]
  · cases (exec_compress_of_overflow h full).symm.trans ht
    cases (exec_compress_of_overflow h' (hp ▸ full)).symm.trans ht'
    simp [compressOverflowed, State.failed]

/-- Two DECOMPRESS commands on the same operand with the same capacities end alike, but for the tables, which stay when
the header is malformed (R28, R173). -/
theorem decompress_ignores_old_tables {s s' t t' : State} (hp : s.params = s'.params) (hl : s.inLen = s'.inLen)
    (hm : s.inMem = s'.inMem) (ht : exec .decompress s = .next t) (ht' : exec .decompress s' = .next t') :
    t.errcode = t'.errcode ∧ t.status = t'.status ∧ t.outMem = t'.outMem ∧ t.outLen = t'.outLen ∧ t.pad = t'.pad ∧
      (t.errcode ≠ 2#8 → t.ft = t'.ft ∧ t.node = t'.node ∧ t.root = t'.root) := by
  have input : s'.input = s.input := (input_congr hl hm).symm
  cases parsed : parseHeader s.input with
  | ok r =>
    obtain ⟨ft, h⟩ := r
    have parsed' : parseHeader s'.input = .ok (ft, h) := input ▸ parsed
    have res : decodeRes s' ft h = decodeRes s ft h := by rw [decodeRes, decodeRes, input, hp]
    cases hr : decodeRes s ft h with
    | ok r =>
      cases (exec_decompress_of_ok parsed hr).symm.trans ht
      cases (exec_decompress_of_ok parsed' (res.trans hr)).symm.trans ht'
      simp [State.succeeded]
    | raise k =>
      cases (exec_decompress_of_raise parsed hr).symm.trans ht
      cases (exec_decompress_of_raise parsed' (res.trans hr)).symm.trans ht'
      simp [State.failed]
    | refuse r => cases (exec_decompress_of_decoder_refuse parsed hr).symm.trans ht
  | raise k =>
    obtain rfl : k = .malformedHeader := List.mem_singleton.1 (parseHeader_raisesOnly _ k parsed)
    cases (exec_decompress_of_malformed parsed).symm.trans ht
    cases (exec_decompress_of_malformed (input ▸ parsed)).symm.trans ht'
    exact ⟨rfl, rfl, rfl, rfl, rfl, fun hne => absurd rfl hne⟩
  | refuse r => cases (exec_decompress_of_refuse parsed).symm.trans ht

/-- Settles O46, command by command. -/
theorem compositeCommandsIgnoreOldTables : Obligations.CompositeCommandsIgnoreOldTables :=
  fun _ _ _ _ hp hl hm => ⟨compress_ignores_old_tables hp hl hm, decompress_ignores_old_tables hp hl hm⟩

end Sys2Proof.Machine
end

section
/-! The termination of every command (`70_reset_and_hazards.md` rule R236): a command is its body inside the frame, so it
faults never and ends idle, and a procedure without a meaning has read an operand byte that was never written (U1). -/

namespace Sys2Proof.Machine

/-! ## The procedures without a meaning -/

/-- A procedure on an operand has no meaning only when it reads a byte of it that was never written (U1). -/
def Res.RefusesUnwritten {α : Type} (operand : List (Option Byte)) (x : Res α) : Prop :=
  ∀ r, x = .refuse r → r = .unwrittenInput ∧ none ∈ operand

section
variable {α β : Type} {operand : List (Option Byte)}

@[simp] theorem Res.refusesUnwritten_ok (a : α) : (Res.ok a).RefusesUnwritten operand := nofun

@[simp] theorem Res.refusesUnwritten_raise (k : FailKind) : (Res.raise k : Res α).RefusesUnwritten operand := nofun

/-- A sequence of two procedures has no meaning where either of them has none. -/
theorem Res.RefusesUnwritten.bind {x : Res α} {f : α → Res β} (hx : x.RefusesUnwritten operand)
    (hf : ∀ a, (f a).RefusesUnwritten operand) : (x.bind f).RefusesUnwritten operand := by
  intro r h
  rcases Res.bind_eq_refuse_iff.1 h with h | ⟨a, -, h⟩
  · exact hx r h
  · exact hf a r h

/-- A longer operand has the unwritten bytes of the shorter one. -/
theorem Res.RefusesUnwritten.mono {x : Res α} {part : List (Option Byte)} (hx : x.RefusesUnwritten part)
    (h : part ⊆ operand) : x.RefusesUnwritten operand := fun r hr => (hx r hr).imp_right fun hm => h hm

theorem readByte_refusesUnwritten {b : Option Byte} (hb : b ∈ operand) : (readByte b).RefusesUnwritten operand := by
  cases b with
  | none => exact fun r h => by cases h; exact ⟨rfl, hb⟩
  | some v => exact Res.refusesUnwritten_ok v

theorem emit_refusesUnwritten (cap : Nat) (out : List Byte) (v : Byte) :
    (emit cap out v).RefusesUnwritten operand := fun _ h => absurd h emit_ne_refuse

theorem drain_refusesUnwritten (cap fuel : Nat) (buf : Bits) (out : List Byte) :
    (drain cap fuel buf out).RefusesUnwritten operand := by
  induction fuel generalizing buf out with
  | zero => exact Res.refusesUnwritten_ok _
  | succ fuel ih =>
    rw [drain]
    split
    · exact (emit_refusesUnwritten _ _ _).bind fun _ => ih _ _
    · exact Res.refusesUnwritten_ok _

theorem packTail_refusesUnwritten (cap : Nat) (buf : Bits) (out : List Byte) :
    (packTail cap buf out).RefusesUnwritten operand := by
  rw [packTail]
  split
  · exact (emit_refusesUnwritten _ _ _).bind fun _ => (emit_refusesUnwritten _ _ _).bind fun _ =>
      Res.refusesUnwritten_ok _
  · exact (emit_refusesUnwritten _ _ _).bind fun _ => Res.refusesUnwritten_ok _

end

theorem packLoop_refusesUnwritten (cap : Nat) (ct : List (Nat × CodeEntry)) (input : List (Option Byte)) (buf : Bits)
    (out : List Byte) : (packLoop cap ct input buf out).RefusesUnwritten input := by
  induction input generalizing buf out with
  | nil => exact Res.refusesUnwritten_ok _
  | cons b rest ih =>
    refine (readByte_refusesUnwritten List.mem_cons_self).bind fun v => ?_
    split
    · exact Res.refusesUnwritten_raise _
    · exact (drain_refusesUnwritten _ _ _ _).bind fun _ => (ih _ _).mono (List.subset_cons_self _ _)

/-- `pack_bits` stops at an unwritten byte of its operand alone (R131). -/
theorem packBits_refusesUnwritten (cap : Nat) (ct : List (Nat × CodeEntry)) (input : List (Option Byte))
    (out : List Byte) : (packBits cap ct input out).RefusesUnwritten input :=
  (packLoop_refusesUnwritten _ _ _ _ _).bind fun _ => packTail_refusesUnwritten _ _ _

theorem walkBits_refusesUnwritten (cap : Nat) (node : List (Nat × Node)) (root : BitVec 16) {bits : List (Option Bool)}
    {operand : List (Option Byte)} (h : none ∈ bits → none ∈ operand) (cur : NodeIdx) (out : List Byte) :
    (walkBits cap node root bits cur out).RefusesUnwritten operand := by
  induction bits generalizing cur out with
  | nil => exact Res.refusesUnwritten_ok _
  | cons b bits ih =>
    have later := ih fun hm => h (List.mem_cons_of_mem _ hm)
    cases b with
    | none => exact fun r hr => by cases hr; exact ⟨rfl, h List.mem_cons_self⟩
    | some b =>
      rw [walkBits]
      split
      · exact Res.refusesUnwritten_raise _
      · split
        · exact later _ _
        · split
          · exact Res.refusesUnwritten_raise _
          · exact (emit_refusesUnwritten _ _ _).bind fun _ => later _ _

/-- A bit without a value is a bit of an unwritten byte (R149). -/
theorem none_mem_of_none_mem_expandBytes {pl : List (Option Byte)} (h : none ∈ expandBytes pl) : none ∈ pl := by
  obtain ⟨b, hb, h⟩ := List.mem_flatMap.1 h
  cases b with
  | none => exact hb
  | some v => simp [expandByte] at h

/-- `unpack_bits` stops at an unwritten byte of its operand alone (R146). -/
theorem unpackBits_refusesUnwritten (cap : Nat) (node : List (Nat × Node)) (root : BitVec 16)
    (operand : List (Option Byte)) : (unpackBits cap node root operand).RefusesUnwritten operand := by
  rw [unpackBits]
  split
  · exact Res.refusesUnwritten_raise _
  · next trailer last =>
    refine (readByte_refusesUnwritten (List.mem_of_getLast? last)).bind fun p => ?_
    split
    · exact Res.refusesUnwritten_raise _
    · refine (walkBits_refusesUnwritten _ _ _ (fun hm => ?_) _ _).bind fun r => ?_
      · exact List.mem_of_mem_dropLast (none_mem_of_none_mem_expandBytes (List.mem_of_mem_take hm))
      · split <;> simp

theorem parseEntries_refusesUnwritten (n : Nat) (x : List (Option Byte)) (prev : Option Byte) (t : List (Nat × Count)) :
    (parseEntries n x prev t).RefusesUnwritten x := by
  fun_induction parseEntries n x prev t with
  | case1 => exact Res.refusesUnwritten_ok _
  | case2 n b0 b1 b2 b3 b4 rest prev t ih =>
    refine (readByte_refusesUnwritten (by simp)).bind fun sym => (readByte_refusesUnwritten (by simp)).bind fun c3 =>
      (readByte_refusesUnwritten (by simp)).bind fun c2 => (readByte_refusesUnwritten (by simp)).bind fun c1 =>
      (readByte_refusesUnwritten (by simp)).bind fun c0 => ?_
    split
    · exact Res.refusesUnwritten_raise _
    · split
      · exact Res.refusesUnwritten_raise _
      · exact (ih _ _ _ _ _).mono fun b hb => by simp [hb]
  | case3 => exact Res.refusesUnwritten_raise _

/-- `parse_header` stops at an unwritten byte alone (R73). -/
theorem parseHeader_refusesUnwritten (x : List (Option Byte)) : (parseHeader x).RefusesUnwritten x := by
  rw [parseHeader.eq_def]
  split
  · refine (readByte_refusesUnwritten (by simp)).bind fun version => ?_
    split
    · exact Res.refusesUnwritten_raise _
    · refine (readByte_refusesUnwritten (by simp)).bind fun n1 => (readByte_refusesUnwritten (by simp)).bind fun n0 => ?_
      split
      · exact Res.refusesUnwritten_raise _
      · split
        · exact Res.refusesUnwritten_raise _
        · refine ((parseEntries_refusesUnwritten _ _ _ _).mono fun b hb => ?_).bind fun _ => Res.refusesUnwritten_ok _
          simp [hb]
  · exact Res.refusesUnwritten_raise _

/-! ## The commands -/

/-- Every command is a body inside the command frame (R177). -/
theorem exists_exec_eq_runFrame : ∀ i : Instr, ∃ body, ∀ s, exec i s = runFrame body s
  | .fcount => ⟨_, exec_fcount⟩
  | .build => ⟨fun s => .done (buildTree s), fun _ => rfl⟩
  | .derive => ⟨fun s => .done (deriveCodes s), fun _ => rfl⟩
  | .pack => ⟨_, exec_pack⟩
  | .unpack => ⟨_, exec_unpack⟩
  | .compress => ⟨_, exec_compress⟩
  | .decompress => ⟨_, exec_decompress⟩
  | .clear => ⟨fun s => .done (clearBody s), fun _ => rfl⟩

/-- No command faults (R208). -/
theorem exec_ne_fault {i : Instr} {s : State} {r : Fault} : exec i s ≠ .fault r := by
  obtain ⟨body, h⟩ := exists_exec_eq_runFrame i
  rw [h]
  exact runFrame_ne_fault

/-- Every command ends with BUSY 0 (R177). -/
theorem busy_of_exec {i : Instr} {s t : State} (ht : exec i s = .next t) : t.busy = false := by
  have idle : ∀ u, (endCommand u).busy = false := fun u => by simp [State.busy, setBusy]
  obtain ⟨body, h⟩ := exists_exec_eq_runFrame i
  rw [h] at ht
  rcases runFrame_next_cases ht with ⟨u, -, rfl⟩ | ⟨k, u, -, rfl⟩
  · exact idle _
  · exact idle _

/-- A command without a meaning is one that reads its operand, on an operand with an unwritten byte (U1). -/
theorem refusal_of_exec {i : Instr} {s : State} {r : Refusal} (h : exec i s = .refused r) :
    r = .unwrittenInput ∧ none ∈ s.input ∧
      (i = .fcount ∨ i = .pack ∨ i = .unpack ∨ i = .compress ∨ i = .decompress) := by
  cases i with
  | fcount =>
    rcases fcountBody_eq s with ⟨x, hx, -⟩ | ⟨hm, -⟩
    · cases (exec_fcount_of_written hx).symm.trans h
    · cases (exec_fcount_of_none_mem hm).symm.trans h
      exact ⟨rfl, hm, by simp⟩
  | build => cases (exec_build s).symm.trans h
  | derive => cases (exec_derive s).symm.trans h
  | pack =>
    obtain ⟨hr, hm⟩ := packBits_refusesUnwritten _ _ _ _ r (exec_pack_eq_refused_iff.1 h)
    exact ⟨hr, hm, by simp⟩
  | unpack =>
    obtain ⟨hr, hm⟩ := unpackBits_refusesUnwritten _ _ _ _ r (exec_unpack_eq_refused_iff.1 h)
    exact ⟨hr, hm, by simp⟩
  | compress =>
    rcases fcountBody_eq s with ⟨x, hx, -⟩ | ⟨hm, -⟩
    · rcases le_or_gt (stream (countBytes x) x).length s.params.outCap.toNat with fits | full
      · cases (exec_compress_of_fits hx fits).symm.trans h
      · cases (exec_compress_of_overflow hx full).symm.trans h
    · cases (exec_compress_of_none_mem hm).symm.trans h
      exact ⟨rfl, hm, by simp⟩
  | decompress =>
    have body := runFrame_eq_refused_iff.1 ((exec_decompress s).symm.trans h)
    cases parsed : parseHeader s.input with
    | ok p =>
      rw [decompressBody_of_parsed (s := beginCommand s) parsed, Body.ofRes_eq_refuse_iff] at body
      obtain ⟨hr, hm⟩ := (unpackBits_refusesUnwritten _ _ _ _).mono (List.drop_subset _ _) r body
      exact ⟨hr, hm, by simp⟩
    | raise k =>
      rw [decompressBody, beginCommand_input, parsed] at body
      cases body
    | refuse r' =>
      cases (exec_decompress_of_refuse parsed).symm.trans h
      obtain ⟨hr, hm⟩ := parseHeader_refusesUnwritten _ r parsed
      exact ⟨hr, hm, by simp⟩
  | clear => cases (clearReturnsToReset s).symm.trans h

/-- Settles O55: of the three outcomes of a command a fault never comes, and a refusal only of an unwritten byte. -/
theorem everyCommandEndsIdle : Obligations.EveryCommandEndsIdle := by
  refine fun i s => ⟨fun x hx => ?_, fun _ => busy_of_exec, fun _ => exec_ne_fault, fun _ => refusal_of_exec⟩
  cases h : exec i s with
  | next t => exact ⟨t, rfl⟩
  | fault r => exact absurd h exec_ne_fault
  | refused r =>
    obtain ⟨-, hm, -⟩ := refusal_of_exec h
    simp [hx] at hm

end Sys2Proof.Machine
end

section
/-! What every step keeps (`10_state.md`, rules R12 to R24 and R32; `42_code_deriver.md` rule R124): one case per thing a
host move can do, and each part of the invariant case by case. -/

namespace Sys2Proof.Machine

/-! ## What a step does -/

/-- The states in which a host move ends from state `s` when it has a meaning (R50). -/
inductive MoveEnd (s : State) : State → Prop
  | ignored : MoveEnd s s
  | read (v : Nat) : MoveEnd s (giveHost v s)
  | command {i : Instr} {t : State} (h : CommandEnd s i t) : MoveEnd s t
  | illegalCommand : MoveEnd s { s with status := 0x02#8, errcode := 7#8 }
  | writeInLen {v : Len} (hv : v.toNat ≤ s.params.inCap.toNat) : MoveEnd s { s with inLen := v }
  | writeIn {i : Nat} (hi : i < s.params.inCap.toNat) (v : Byte) : MoveEnd s (writeIn i v s)
  | writeFt {sym : Nat} (hs : sym < 256) (v : Count) : MoveEnd s (writeFt sym v s)
  | reset : MoveEnd s (resetBlock s)

section
variable {s t : State}

theorem moveEnd_of_startCommand {v : Byte} (h : startCommand v s = .next t) : MoveEnd s t := by
  rw [startCommand] at h
  split at h
  · exact .command (commandEnd_of_exec h)
  · cases (illegalCommand_eq s).symm.trans h
    exact .illegalCommand

/-- A write is ignored, or takes effect on a location that exists (R26, R52). -/
theorem moveEnd_of_hostWrite {l : Loc} {w : State → Host.Outcome State Fault Refusal} (h : hostWrite l w s = .next t)
    (effect : l.inRange s.params = true → w s = .next t → MoveEnd s t) : MoveEnd s t := by
  rcases hostWrite_cases l w s with ⟨-, e⟩ | ⟨-, -, e⟩ | ⟨hl, -, e⟩
  · cases e.symm.trans h
  · cases e.symm.trans h
    exact .ignored
  · exact effect hl (e.symm.trans h)

/-- Everything a host move can do when it answers a next state. -/
theorem moveEnd_of_hostMove {m : HostMove} (h : hostMove m s = .next t) : MoveEnd s t := by
  cases m <;> rw [hostMove] at h
  case read l =>
    obtain ⟨v, rfl⟩ := hostRead_next_cases h
    exact .read v
  case writeCmd v => exact moveEnd_of_hostWrite h fun _ => moveEnd_of_startCommand
  case writeInLen v =>
    refine moveEnd_of_hostWrite h fun _ he => ?_
    cases he
    unfold Machine.writeInLen
    split
    · next hv => exact .writeInLen hv
    · exact .ignored
  case writeIn i v =>
    refine moveEnd_of_hostWrite h fun hi he => ?_
    cases he
    exact .writeIn (of_decide_eq_true hi) v
  case writeFt sym v =>
    refine moveEnd_of_hostWrite h fun hs he => ?_
    cases he
    exact .writeFt (of_decide_eq_true hs) v
  case writeReadOnly l =>
    refine moveEnd_of_hostWrite h fun _ he => ?_
    cases he
    exact .ignored
  case reset =>
    cases h
    exact .reset

/-- A property that does not look at the pending moves is kept by every step when every move keeps it. -/
theorem step_keeps {P : State → Prop} (pending : ∀ s ms, P s → P { s with script := ms })
    (move : ∀ {s t}, MoveEnd s t → P s → P t) (hs : P s) (h : step s = .next t) : P t := by
  rcases step_cases s with ⟨-, e⟩ | ⟨m, ms, -, e⟩
  · cases e.symm.trans h
    exact hs
  · exact move (moveEnd_of_hostMove (e.symm.trans h)) (pending s ms hs)

end

/-! ## The arena -/

section
variable {s t : State} {i : Instr}

/-- A failing command leaves the arena as it was or builds one (R201). -/
theorem FailureEnd.arenaInv (h : FailureEnd s i t) (hs : ArenaInv s.node s.root) : ArenaInv t.node t.root := by
  cases h with
  | pack | malformed => exact hs
  | unpack | compress | decompress => exact arenaInv_buildArena _

/-- A command leaves the arena as it was, builds one, or clears it (R45). -/
theorem CommandEnd.arenaInv (h : CommandEnd s i t) (hs : ArenaInv s.node s.root) : ArenaInv t.node t.root := by
  cases h with
  | failed h => exact h.arenaInv hs
  | fcount | derive | pack => exact hs
  | build | unpack | compress | decompress => exact arenaInv_buildArena _
  | clear => exact arenaInv_empty

theorem MoveEnd.arenaInv (h : MoveEnd s t) (hs : ArenaInv s.node s.root) : ArenaInv t.node t.root := by
  cases h with
  | ignored | read | illegalCommand | writeInLen | writeIn | writeFt => exact hs
  | command h => exact h.arenaInv hs
  | reset => exact arenaInv_empty

end

/-- Settles O59: only a build and a clear write the arena. -/
theorem stepKeepsTheArenaInvariant : Obligations.StepKeepsTheArenaInvariant := by
  intro s t
  exact step_keeps (P := fun s => ArenaInv s.node s.root) (fun _ _ hs => hs) MoveEnd.arenaInv

/-! ## The code table -/

/-- The bits of an entry at and above LEN are 0 (R21). -/
def CodeEntry.HighBitsZero (e : CodeEntry) : Prop := e.bits.toNat < 2 ^ e.len.toNat

theorem highBitsZero_absent : CodeEntry.absent.HighBitsZero := by
  change 0 < 2 ^ 0
  decide

theorem highBitsZero_codeEntry {c : Bits} (h : c.length ≤ Config.codeMax) : (codeEntry c).HighBitsZero := by
  rw [CodeEntry.HighBitsZero, codeEntry_len h]
  exact (Nat.mod_le _ _).trans_lt (val_lt c)

/-- Recording codes that fit their entries keeps the other bits 0 (R21, R121). -/
theorem highBitsZero_recordCodes {l : List (Byte × Bits)} (len : ∀ e ∈ l, e.2.length ≤ Config.codeMax)
    {ct : List (Nat × CodeEntry)} (h : ∀ sym, (ctGet ct sym).HighBitsZero) (sym : Nat) :
    (ctGet (recordCodes ct l) sym).HighBitsZero := by
  induction l generalizing ct with
  | nil => exact h sym
  | cons e l ih =>
    obtain ⟨he, hl⟩ := List.forall_mem_cons.1 len
    refine ih hl fun b => ?_
    rw [ctGet_setCode]
    split
    · exact highBitsZero_codeEntry he
    · exact h b

theorem codesInv_nil : CodesInv [] where
  highBits _ := highBitsZero_absent
  prefixFree a _ _ _ _ h := by simp [codeOf, CodeEntry.absent] at h

/-- The codes recorded are those of the tree at the root (R121). -/
theorem codesOf_eq_recordCodes {node : List (Nat × Node)} {root : BitVec 16} (h : ArenaInv node root)
    (present : rootPresent root = true) :
    codesOf node root = recordCodes [] (treeAt node Config.codeMax (rootIdx root).toNat).codes := by
  simp [codesOf, present, h.kind_root present, visit_eq_recordCodes]

/-- The code table of an arena that meets R32 is legal (R21, R124 item 2). -/
theorem codesInv_codesOf {node : List (Nat × Node)} {root : BitVec 16} (h : ArenaInv node root) :
    CodesInv (codesOf node root) where
  highBits := by
    cases present : rootPresent root with
    | false =>
      rw [codesOf, present]
      exact codesInv_nil.highBits
    | true =>
      rw [codesOf_eq_recordCodes h present]
      exact highBitsZero_recordCodes (fun _ => length_le_of_mem_codes_treeAt) fun _ => highBitsZero_absent
  prefixFree := prefixFree_codesOf h

section
variable {s t : State} {i : Instr}

theorem FailureEnd.codesInv (h : FailureEnd s i t) (hs : CodesInv s.ct) : CodesInv t.ct := by
  cases h with
  | pack | unpack | malformed | decompress => exact hs
  | compress => exact codesInv_codesOf (arenaInv_buildArena _)

/-- A command leaves the code table as it was, derives it from an arena, or clears it (R45). -/
theorem CommandEnd.codesInv (h : CommandEnd s i t) (ha : ArenaInv s.node s.root) (hs : CodesInv s.ct) :
    CodesInv t.ct := by
  cases h with
  | failed h => exact h.codesInv hs
  | fcount | build | pack | unpack | decompress => exact hs
  | derive => exact codesInv_codesOf ha
  | compress => exact codesInv_codesOf (arenaInv_buildArena _)
  | clear => exact codesInv_nil

theorem MoveEnd.codesInv (h : MoveEnd s t) (ha : ArenaInv s.node s.root) (hs : CodesInv s.ct) : CodesInv t.ct := by
  cases h with
  | ignored | read | illegalCommand | writeInLen | writeIn | writeFt => exact hs
  | command h => exact h.codesInv ha hs
  | reset => exact codesInv_nil

end

/-- Settles O60: DERIVE finds an arena that meets R32, and COMPRESS builds one. -/
theorem stepKeepsTheCodesPrefixFree : Obligations.StepKeepsTheCodesPrefixFree := by
  intro s t ha hs h
  exact (step_keeps (P := fun s => ArenaInv s.node s.root ∧ CodesInv s.ct) (fun _ _ hs => hs)
    (fun m hs => ⟨m.arenaInv hs.1, m.codesInv hs.1 hs.2⟩) ⟨ha, hs⟩ h).2

/-! ## The memories -/

/-- The leaves seeded are in canonical form (R101). -/
theorem wf_seedLeaves (ft : List (Nat × Count)) : Table.wf 512 Node.unused (seedLeaves ft) := by
  refine ⟨List.pairwise_map.2 (presentSymbols_sorted ft), ?_, ?_⟩
  · intro e he
    obtain ⟨sym, hs, rfl⟩ := List.mem_map.1 he
    exact (mem_presentSymbols.1 hs).1.trans (by decide)
  · intro e he
    obtain ⟨sym, -, rfl⟩ := List.mem_map.1 he
    simp [leafNode, Node.unused]

theorem wf_nodePut {node : List (Nat × Node)} (h : Table.wf 512 Node.unused node) {k : Nat} (hk : k < 512) (n : Node) :
    Table.wf 512 Node.unused (nodePut node k n) := Table.wf_put h hk n

theorem wf_setCode {ct : List (Nat × CodeEntry)} (h : Table.wf 256 CodeEntry.absent ct) {sym : Nat} (hs : sym < 256)
    (c : Bits) : Table.wf 256 CodeEntry.absent (setCode ct sym c) := Table.wf_put h hs _

theorem wf_seedArena (ft : List (Nat × Count)) : Table.wf 512 Node.unused (seedArena ft).1 := by
  rcases seedArena_cases ft with ⟨s, -, he⟩ | ⟨-, he⟩
  · simp only [he]
    exact wf_nodePut (wf_seedLeaves ft) (by decide) _
  · rw [he]
    exact wf_seedLeaves ft

/-- Every merge writes inside the arena (R106). -/
theorem BuildReaches.wf {ft : List (Nat × Count)} {node : List (Nat × Node)} {q : List Nat} {next : Nat}
    (h : BuildReaches ft node q next) : Table.wf 512 Node.unused node := by
  induction h with
  | seed => exact wf_seedArena ft
  | merge h hx ih => exact wf_nodePut ih (h.next_lt hx) _

theorem wf_buildArena (ft : List (Nat × Count)) : Table.wf 512 Node.unused (buildArena ft).1 := by
  obtain ⟨q, next, h⟩ := buildReaches_buildArena ft
  exact h.wf

/-- The codes of symbols alone are recorded (R121). -/
theorem wf_recordCodes {ct : List (Nat × CodeEntry)} (h : Table.wf 256 CodeEntry.absent ct) (l : List (Byte × Bits)) :
    Table.wf 256 CodeEntry.absent (recordCodes ct l) := by
  induction l generalizing ct with
  | nil => exact h
  | cons e l ih => exact ih (wf_setCode h e.1.isLt _)

/-- DERIVE makes a table in canonical form from any arena (R121). -/
theorem wf_codesOf (node : List (Nat × Node)) (root : BitVec 16) : Table.wf 256 CodeEntry.absent (codesOf node root) := by
  have empty := Table.wf_nil 256 CodeEntry.absent
  unfold codesOf
  split
  · exact empty
  · split
    · split
      · next hk => exact wf_setCode empty (Nat.lt_succ_of_le hk) _
      · exact empty
    · rw [visit_eq_recordCodes]
      exact wf_recordCodes empty _

theorem wf_of_parseEntries {n : Nat} {x : List (Option Byte)} {prev : Option Byte} {t r : List (Nat × Count)}
    (ht : Table.wf 256 0#32 t) (h : parseEntries n x prev t = .ok r) : Table.wf 256 0#32 r := by
  induction n generalizing x prev t with
  | zero => cases h; exact ht
  | succ n ih =>
    match x, h with
    | b0 :: b1 :: b2 :: b3 :: b4 :: x, h =>
      simp only [parseEntries, Res.bind_eq_ok_iff, Res.ite_raise_eq_ok_iff] at h
      obtain ⟨sym, -, c3, -, c2, -, c1, -, c0, -, -, -, h⟩ := h
      exact ih (Table.wf_put ht sym.isLt _) h

/-- The table of a valid header is in canonical form (R73). -/
theorem wf_of_parseHeader {x : List (Option Byte)} {ft : List (Nat × Count)} {n : Nat}
    (h : parseHeader x = .ok (ft, n)) : Table.wf 256 0#32 ft := by
  match x, h with
  | b0 :: b1 :: b2 :: x, h =>
    simp only [parseHeader, Res.bind_eq_ok_iff, Res.ite_raise_eq_ok_iff] at h
    obtain ⟨version, -, -, n1, -, n0, -, -, -, t, ht, h⟩ := h
    cases h
    exact wf_of_parseEntries (Table.wf_nil _ _) ht

section
variable {s t : State} {i : Instr}

/-- A failure lists no byte of OUT, and the tables written before it are made by their procedures (R201). -/
theorem FailureEnd.canonical (h : FailureEnd s i t) (hs : s.Canonical) : t.Canonical := by
  cases h with
  | pack | malformed => exact { hs with outMem := Memory.wf_nil _ }
  | unpack => exact { hs with outMem := Memory.wf_nil _, node := wf_buildArena _ }
  | compress =>
    exact { hs with outMem := Memory.wf_nil _, ft := countBytes_wf _, node := wf_buildArena _, ct := wf_codesOf _ _ }
  | decompress parsed =>
    exact { hs with outMem := Memory.wf_nil _, ft := wf_of_parseHeader parsed, node := wf_buildArena _ }

/-- A command writes each memory it writes by one procedure (R45). -/
theorem CommandEnd.canonical (h : CommandEnd s i t) (hs : s.Canonical) : t.Canonical := by
  cases h with
  | failed h => exact h.canonical hs
  | fcount => exact { hs with ft := countBytes_wf _ }
  | build => exact { hs with node := wf_buildArena _ }
  | derive => exact { hs with ct := wf_codesOf _ _ }
  | pack fits => exact { hs with outMem := Memory.wf_ofBytes fits }
  | unpack fits => exact { hs with outMem := Memory.wf_ofBytes fits, node := wf_buildArena _ }
  | compress _ fits =>
    exact { hs with outMem := Memory.wf_ofBytes fits, ft := countBytes_wf _, node := wf_buildArena _, ct := wf_codesOf _ _ }
  | decompress parsed fits =>
    exact { hs with outMem := Memory.wf_ofBytes fits, ft := wf_of_parseHeader parsed, node := wf_buildArena _ }
  | clear => exact { hs with ft := Table.wf_nil _ _, node := Table.wf_nil _ _, ct := Table.wf_nil _ _ }

theorem canonical_resetBlock (s : State) : (resetBlock s).Canonical :=
  ⟨Memory.wf_nil _, Memory.wf_nil _, Table.wf_nil _ _, Table.wf_nil _ _, Table.wf_nil _ _⟩

theorem MoveEnd.canonical (h : MoveEnd s t) (hs : s.Canonical) : t.Canonical := by
  cases h with
  | ignored => exact hs
  | read | illegalCommand | writeInLen => exact { hs with }
  | command h => exact h.canonical hs
  | writeIn hi v => exact { hs with inMem := Memory.wf_insert hs.inMem hi v }
  | writeFt hsym v => exact { hs with ft := Table.wf_put hs.ft hsym v }
  | reset => exact canonical_resetBlock s

end

/-- Settles O57: every write of a memory is inside it. -/
theorem stepKeepsCanonicalMemories : Obligations.StepKeepsCanonicalMemories := by
  intro s t
  exact step_keeps (fun _ _ hs => { hs with }) MoveEnd.canonical

/-! ## The registers -/

/-- The report of a command, or of none (R12, R13): BUSY 0, the reserved bits 0, ERRCODE as ERR says, ERR and EMPTY not
together. -/
abbrev LegalReport (status errcode : Byte) : Prop :=
  busyBit status = false ∧ status.extractLsb' 3 5 = 0#5 ∧ errcode.extractLsb' 3 5 = 0#5 ∧
    (errBit status = true ↔ errcode ≠ 0#8) ∧ ¬ (errBit status = true ∧ emptyBit status = true)

/-- OUT and its registers (R15, R16, R24): the output fits, every byte of it is specified, PAD is at most 7. -/
def LegalOutput (cap : Len) (mem : List Host.Cell) (len : Len) (pad : Byte) : Prop :=
  len.toNat ≤ cap.toNat ∧ (∀ i < len.toNat, Sparse.lookup mem i ≠ none) ∧ pad.toNat ≤ 7

/-- ROOT (R18): the reserved bits 0, IDX 0 when the tree is absent. -/
def LegalRoot (root : BitVec 16) : Prop :=
  root.extractLsb' 10 6 = 0#6 ∧ (rootPresent root = false → rootIdx root = 0#9)

theorem legal_iff {s : State} :
    s.Legal ↔ LegalReport s.status s.errcode ∧ s.inLen.toNat ≤ s.params.inCap.toNat ∧
      LegalOutput s.params.outCap s.outMem s.outLen s.pad ∧ LegalRoot s.root := by
  constructor
  · intro h
    exact ⟨⟨h.idle, h.statusReserved, h.errcodeReserved, h.errcodeOfErr, h.errOrEmpty⟩, h.inLen,
      ⟨h.outLen, h.outSpecified, h.pad⟩, h.rootReserved, h.rootAbsent⟩
  · rintro ⟨⟨idle, statusReserved, errcodeReserved, errcodeOfErr, errOrEmpty⟩, inLen, ⟨outLen, outSpecified, pad⟩,
      rootReserved, rootAbsent⟩
    exact ⟨idle, statusReserved, errcodeReserved, errcodeOfErr, errOrEmpty, inLen, outLen, outSpecified, pad,
      rootReserved, rootAbsent⟩

theorem legalReport_success : LegalReport 0x00#8 0#8 := by decide

theorem legalReport_notice : LegalReport 0x04#8 0#8 := by decide

/-- The report of a failure (R200): the codes are 1 to 7 (R190). -/
theorem legalReport_failure (k : FailKind) : LegalReport 0x02#8 k.code := by
  cases k <;> decide

theorem legalOutput_none (cap : Len) (mem : List Host.Cell) : LegalOutput cap mem 0#32 0#8 := by
  simp [LegalOutput]

theorem legalOutput_ofBytes {cap : Len} {out : List Byte} {p : Byte} (fits : out.length ≤ cap.toNat)
    (hp : p.toNat ≤ 7) : LegalOutput cap (Memory.ofBytes out) (BitVec.ofNat 32 out.length) p := by
  have len : (BitVec.ofNat 32 out.length).toNat = out.length := by
    rw [BitVec.toNat_ofNat, Nat.mod_eq_of_lt (fits.trans_lt cap.isLt)]
  refine ⟨by rwa [len], fun i hi => ?_, hp⟩
  rw [Memory.lookup_ofBytes, Ne, List.getElem?_eq_none_iff, Nat.not_le]
  rwa [len] at hi

theorem legalRoot_absent : LegalRoot 0#16 := by
  unfold LegalRoot
  decide

theorem legalRoot_rootOf (q : List Nat) : LegalRoot (rootOf q) := by
  cases q with
  | nil => exact ⟨rootWord_reserved _ _, fun _ => rootIdx_rootWord _ _⟩
  | cons r q => exact ⟨rootWord_reserved _ _, fun h => by simp at h⟩

section
variable {s t : State} {i : Instr}

/-- Every command reports its own end (R12, R13). -/
theorem CommandEnd.legalReport (h : CommandEnd s i t) : LegalReport t.status t.errcode := by
  have notice : LegalReport (if s.inLen = 0#32 then 0x04#8 else 0x00#8) 0#8 := by
    split
    · exact legalReport_notice
    · exact legalReport_success
  cases h with
  | failed h => cases h <;> exact legalReport_failure _
  | fcount | compress => exact notice
  | build | derive | pack | unpack | decompress | clear => exact legalReport_success

theorem CommandEnd.inLen_le (h : CommandEnd s i t) (hs : s.inLen.toNat ≤ s.params.inCap.toNat) :
    t.inLen.toNat ≤ t.params.inCap.toNat := by
  cases h with
  | failed h => cases h <;> exact hs
  | clear => exact Nat.zero_le _
  | fcount | build | derive | pack | unpack | compress | decompress => exact hs

/-- A command keeps the output, makes one that fits, or takes it away (R45, R200). -/
theorem CommandEnd.legalOutput (h : CommandEnd s i t) (hs : LegalOutput s.params.outCap s.outMem s.outLen s.pad) :
    LegalOutput t.params.outCap t.outMem t.outLen t.pad := by
  cases h with
  | failed h => cases h <;> exact legalOutput_none _ _
  | fcount | build | derive => exact hs
  | pack fits hp | unpack fits hp | decompress _ fits hp => exact legalOutput_ofBytes fits hp
  | compress _ fits => exact legalOutput_ofBytes fits (toNat_trailer_le _)
  | clear => exact legalOutput_none _ _

theorem CommandEnd.legalRoot (h : CommandEnd s i t) (hs : LegalRoot s.root) : LegalRoot t.root := by
  cases h with
  | failed h =>
    cases h with
    | pack | malformed => exact hs
    | unpack | compress | decompress => exact legalRoot_rootOf _
  | fcount | derive | pack => exact hs
  | build | unpack | compress | decompress => exact legalRoot_rootOf _
  | clear => exact legalRoot_absent

theorem legal_resetBlock (s : State) : (resetBlock s).Legal :=
  legal_iff.2 ⟨legalReport_success, Nat.zero_le _, legalOutput_none _ _, legalRoot_absent⟩

theorem MoveEnd.legal (h : MoveEnd s t) (hs : s.Legal) : t.Legal := by
  obtain ⟨report, inLen, output, root⟩ := legal_iff.1 hs
  cases h with
  | ignored => exact hs
  | read | writeIn | writeFt => exact { hs with }
  | command h =>
    exact legal_iff.2 ⟨h.legalReport, h.inLen_le inLen, h.legalOutput output, h.legalRoot root⟩
  | illegalCommand => exact legal_iff.2 ⟨legalReport_failure .illegalCommand, inLen, output, root⟩
  | writeInLen hv => exact { hs with inLen := hv }
  | reset => exact legal_resetBlock s

end

/-- Settles O58: a command reports its own end, and the host writes no register but IN_LEN, within its bound. -/
theorem stepKeepsRegistersLegal : Obligations.StepKeepsRegistersLegal := by
  intro s t
  exact step_keeps (fun _ _ hs => { hs with }) MoveEnd.legal

/-- Settles O56: the reset state is what the reset move makes of it. -/
theorem resetMeetsTheInvariant : Obligations.ResetMeetsTheInvariant :=
  ⟨canonical_resetBlock State.reset, legal_resetBlock State.reset, arenaInv_empty, codesInv_nil⟩

end Sys2Proof.Machine
end

section
/-! The host port (`20_memory.md`, rules R50 and R52; `10_state.md`, rules R26 and R30; `30_encoding.md`, rules R60, R78
and R79): what each access of the host does on the idle and on the busy block, and the words it writes and reads. -/

namespace Sys2Proof.Machine

/-! ## The words -/

/-- A command has one word (R62). -/
theorem decode_eq_ok_iff {v : Byte} {i : Instr} : decode v = .ok i ↔ v = encode i := by
  constructor
  · intro h
    cases hv : wordWf v with
    | false => cases (decode_of_not_wordWf hv).symm.trans h
    | true =>
      obtain ⟨j, rfl⟩ := exists_encode_of_wordWf hv
      cases (decode_encode j).symm.trans h
      rfl
  · rintro rfl
    exact decode_encode i

/-- Settles O2: a word that decodes is the word of the command it decodes to. -/
theorem decodeInvertsEncode : Obligations.DecodeInvertsEncode :=
  fun i _ => ⟨by cases i <;> rfl, decode_eq_ok_iff⟩

/-- A concatenation as a number: the field on the left stands above the other (R78). -/
theorem toNat_append_eq_add {m n : Nat} (x : BitVec m) (y : BitVec n) :
    (x ++ y).toNat = 2 ^ n * x.toNat + y.toNat := by
  rw [BitVec.toNat_append, ← Nat.shiftLeft_add_eq_or_of_lt y.isLt, Nat.shiftLeft_eq, Nat.mul_comm]

/-- Settles O9: the fields of a word stand side by side. -/
theorem packedWordLayout : Obligations.PackedWordLayout := by
  refine ⟨fun n => ?_, fun e => toNat_append_eq_add e.len e.bits⟩
  have kind : (BitVec.ofBool (kindBit n.kind)).toNat = if n.kind = .internal then 1 else 0 := by
    cases n.kind <;> rfl
  simp only [nodeWord, toNat_append_eq_add, BitVec.toNat_ofBool, kind]
  ring

/-! ## CMD and reset -/

/-- Settles O4: the block is idle, and the word selects the command. -/
theorem stepRunsDecodedCommand : Obligations.StepRunsDecodedCommand := by
  intro s v ms i hs hb hv
  rw [step_of_writeCmd hs hb, startCommand, hv]

/-- Settles O7: a step without a pending move is idle. -/
theorem idleBlockKeepsAllState : Obligations.IdleBlockKeepsAllState := by
  intro s hs
  rw [step, nextMove, hs]

/-- Settles O12: the registers are 0, and nothing is listed. -/
theorem resetStateValues : Obligations.ResetStateValues :=
  ⟨rfl, rfl, rfl, rfl, rfl, rfl, by decide, ftGet_nil, nodeGet_nil, ctGet_nil, Sparse.lookup_nil, Sparse.lookup_nil⟩

/-- Settles O13: reset is a move of the busy block too. -/
theorem resetMoveGivesResetState : Obligations.ResetMoveGivesResetState := by
  intro s ms hs
  rw [step_of_script_cons hs, hostMove, resetBlock]

/-! ## The accesses -/

section
variable {s : State} {ms : List HostMove} {l : Loc}

/-- A read of a location of the idle block (R50). -/
theorem step_of_read_of_idle (hs : s.script = .read l :: ms) (hl : l.inRange s.params = true) (hb : s.busy = false) :
    step s = readIdle l { s with script := ms } := by
  have idle : ({ s with script := ms } : State).busy = false := hb
  rw [step_of_script_cons hs, hostMove, hostRead, if_neg (by simp [hl]), if_neg (by simp [idle])]

/-- A read of the busy block gives STATUS alone (R52). -/
theorem step_of_read_of_busy (hs : s.script = .read l :: ms) (hl : l.inRange s.params = true) (hb : s.busy = true) :
    step s = if l = .readOnly .status then readIdle l { s with script := ms } else .refused .readWhileBusy := by
  have busy : ({ s with script := ms } : State).busy = true := hb
  rw [step_of_script_cons hs, hostMove, hostRead, if_neg (by simp [hl])]
  simp only [busy, true_and]
  exact ite_not _ _ _

theorem step_of_read_outside (hs : s.script = .read l :: ms) (hl : l.inRange s.params = false) :
    step s = .refused (.noSuchLocation l) := by
  rw [step_of_script_cons hs, hostMove]
  exact hostRead_of_outside (s := { s with script := ms }) hl

/-- A move that is a write is a write in the state with the later moves pending (R50). -/
theorem step_of_write {m : HostMove} {w : State → Host.Outcome State Fault Refusal} (hs : s.script = m :: ms)
    (hm : hostMove m = hostWrite l w) : step s = hostWrite l w { s with script := ms } := by
  rw [step_of_script_cons hs, hm]

theorem step_of_write_of_busy {m : HostMove} {w : State → Host.Outcome State Fault Refusal} (hs : s.script = m :: ms)
    (hm : hostMove m = hostWrite l w) (hl : l.inRange s.params = true) (hb : s.busy = true) :
    step s = .next { s with script := ms } := by
  rw [step_of_write hs hm]
  exact hostWrite_of_busy (s := { s with script := ms }) hl hb w

theorem step_of_write_of_idle {m : HostMove} {w : State → Host.Outcome State Fault Refusal} (hs : s.script = m :: ms)
    (hm : hostMove m = hostWrite l w) (hl : l.inRange s.params = true) (hb : s.busy = false) :
    step s = w { s with script := ms } := by
  rw [step_of_write hs hm]
  exact hostWrite_of_idle (s := { s with script := ms }) hl hb w

theorem step_of_write_outside {m : HostMove} {w : State → Host.Outcome State Fault Refusal} (hs : s.script = m :: ms)
    (hm : hostMove m = hostWrite l w) (hl : l.inRange s.params = false) : step s = .refused (.noSuchLocation l) := by
  rw [step_of_write hs hm]
  exact hostWrite_of_outside (s := { s with script := ms }) hl w

end

/-- Settles O6: on the busy block a write is ignored, and a read gives STATUS alone. -/
theorem accessWhileBusy : Obligations.AccessWhileBusy := by
  refine fun s ms hb => ⟨fun v hs => ?_, fun i v hi hs => ?_, fun sym v hsym hs => ?_, fun l hl hs => ?_, fun hs => ?_,
    fun l hne hl hs => ?_⟩
  · exact step_of_write_of_busy hs rfl rfl hb
  · exact step_of_write_of_busy hs rfl (decide_eq_true hi) hb
  · exact step_of_write_of_busy hs rfl (decide_eq_true hsym) hb
  · exact step_of_write_of_busy hs rfl hl hb
  · rw [step_of_read_of_busy hs rfl hb, if_pos rfl]
    rfl
  · rw [step_of_read_of_busy hs hl hb, if_neg hne]

/-- Settles O8: the value an idle block gives, location by location. -/
theorem readReturnsTheWholeLocation : Obligations.ReadReturnsTheWholeLocation := by
  intro s ms l hs hb hl
  rw [step_of_read_of_idle hs hl hb]
  refine ⟨?_, ?_, ?_, ?_, ?_, ?_, ?_, ?_, ?_, ?_, ?_, ?_, ?_, ?_⟩
  iterate 6 · rintro rfl; rfl
  · rintro i v rfl hv
    change readSpecified (s.inAt i) _ _ = _
    rw [hv]
    rfl
  · rintro i rfl hv
    change readSpecified (s.inAt i) _ _ = _
    rw [hv]
    rfl
  · rintro i v rfl hi hv
    simp only [readIdle, readRo, if_pos hi]
    change readSpecified (s.outAt i) _ _ = _
    rw [hv]
    rfl
  · rintro i rfl hi
    simp only [readIdle, readRo, if_neg (Nat.not_lt.2 hi)]
  · rintro sym rfl; rfl
  · rintro k rfl; rfl
  · rintro sym rfl; rfl
  · rintro rfl; rfl

/-- Settles O10: the effect of a write on the idle block. -/
theorem writeReplacesTheWholeLocation : Obligations.WriteReplacesTheWholeLocation := by
  refine fun s ms hb => ⟨fun v hs hv => ?_, fun v hs hv => ?_, fun i v hs hi => ?_, fun sym v hs hsym => ?_,
    fun l hs hl => ?_⟩
  · rw [step_of_write_of_idle hs rfl rfl hb, writeInLen, if_pos hv]
  · rw [step_of_write_of_idle hs rfl rfl hb, writeInLen, if_neg (Nat.not_le.2 hv)]
  · have effect := step_of_write_of_idle (l := .inp i) (w := fun s => .next (writeIn i v s)) hs rfl (decide_eq_true hi) hb
    exact ⟨_, effect, fun j => Sparse.lookup_insert _ _ _ _⟩
  · have effect := step_of_write_of_idle (l := .ft sym) (w := fun s => .next (writeFt sym v s)) hs rfl
      (decide_eq_true hsym) hb
    exact ⟨_, effect, fun j => ftGet_ftPut _ _ _ _⟩
  · exact step_of_write_of_idle hs rfl hl hb

/-- Settles O11: an index at or above the bound of its memory is in no range. -/
theorem indexOutsideNamesNoLocation : Obligations.IndexOutsideNamesNoLocation := by
  refine fun s ms i => ⟨fun h v hs => ?_, fun h hs => ?_, fun h v hs => ?_, fun h hs => ?_, fun h hs => ?_⟩
  all_goals
    have outside := decide_eq_false (Nat.not_lt.2 h)
    rcases hs with hs | hs
    · exact step_of_read_outside hs outside
    · exact step_of_write_outside hs rfl outside

end Sys2Proof.Machine
end
